-- ==== Sys2Proof/Word.lean ====
section
/-! DEFINITION. The widths of the HCB's words, addresses and table entries (00_scope.md R9, R10). -/

namespace Sys2Proof

/-- A byte, and so a symbol: SYM_BITS = 8 (00_scope.md R9). -/
abbrev Byte := BitVec 8

/-- One discrete unit of the input alphabet, a byte 0..255 (00_scope.md R14). -/
abbrev Symbol := BitVec 8

/-- The host bus data width, BUS_DATA_BITS = 32 (00_scope.md R9). -/
abbrev Word := BitVec 32

/-- A host bus word address, BUS_WADDR_BITS = 16 (00_scope.md R9). -/
abbrev WordAddr := BitVec 16

/-- A node handle, HANDLE_BITS = 9 (00_scope.md R9). -/
abbrev Handle := BitVec 9

/-- One host bus transaction as the 49-bit bundle of the ports (30_encoding.md R82). -/
abbrev HbusWord := BitVec 49

/-- A vector given by its entries. -/
def tabulate {α : Type} (n : Nat) (f : Nat → α) : Vector α n :=
  ⟨((List.range n).map f).toArray, by simp⟩

@[simp] theorem getElem_tabulate {α : Type} (n : Nat) (f : Nat → α) (i : Nat) (h : i < n) :
    (tabulate n f)[i] = f i := by
  simp [tabulate]

end Sys2Proof
end

