-- ==== Sys2Proof/Config.lean ====
section
/-! DEFINITION. The implementation parameters of 00_scope.md R9, and the free values: what the spec says a model
draws (43_host_access.md R168, 10_state.md R29, 70_reset_and_hazards.md R205). -/

namespace Sys2Proof.Config

/-- NSYM: the alphabet size, symbols 0..255 (R9). -/
def nsym : Nat := 256

/-- MAX_LEN: the largest IN_LEN that ENCODE accepts (R9, R103). -/
def maxLen : Nat := 65535

/-- NODE_MAX: the largest node count, 2*NSYM-1 (R9). -/
def nodeMax : Nat := 511

/-- The number of records of TREE (10_state.md R45). -/
def treeSize : Nat := 512

/-- SYMBUF_BYTES: the size of SYMBUF_IN and of SYMBUF_OUT in bytes (R9). -/
def symbufBytes : Nat := 65536

/-- BITBUF_BITS: the size of BITBUF in bits (R9). -/
def bitbufBits : Nat := 524288

/-- DEC_OUT_CAP: the largest number of symbols one DECODE may write (R9). -/
def decOutCap : Nat := 65536

/-- KEEP_TREE_ON_EMPTY: whether an empty ENCODE keeps the retained tree. This hardware's value is false (R9, R119). -/
def keepTreeOnEmpty : Bool := false

/-- FREE VALUE. What the `n`th drawn read returns while BUSY = 1, at an address other than STATUS, CMD, IN_LEN and
IN_BITS: "a value the hardware does not fix: a model draws it freely, per read" (R168). -/
opaque busyRead : Nat → Word

/-- FREE VALUE. Which of the four phases 1, 2, 3, 4 the `n`th drawn read of STATUS shows with a pending ENCODE: "PHASE
reads any of 1, 2, 3, 4" (R29). -/
opaque phaseDraw : Nat → Fin 4

/-- FREE VALUE. What a read presented while `rst` = 1 returns: "reads return any value" (R205). -/
opaque resetRead : Nat → Word

end Sys2Proof.Config
end

