-- ==== Sys2Proof/Syntax.lean ====
section
/-! DEFINITION. The operations of the HCB: one constructor for each row of spec/opcode_table.json (30_encoding.md
R84, R85), and the two formats they are encoded in (R80). -/

namespace Sys2Proof

/-- The HCB's operations. The first three are CMD words, carried by a host write to R.CMD; the last two are HBUS
transactions (30_encoding.md R80). -/
inductive Instr where
  /-- NOP, CMD word 0x00000000 (40_command.md R102). -/
  | nop
  /-- ENCODE, CMD word 0x00000001 (41_encode.md R115). -/
  | encode
  /-- DECODE, CMD word 0x00000002 (42_decode.md R145). -/
  | decode
  /-- BUS_RD, HBUS with WE = 0: a read of the word at `waddr`; `wdata` is the ignored WDATA field
  (43_host_access.md R165, 30_encoding.md R82). -/
  | busRd (waddr : WordAddr) (wdata : Word)
  /-- BUS_WR, HBUS with WE = 1: a write of `wdata` to `waddr` (43_host_access.md R166). -/
  | busWr (waddr : WordAddr) (wdata : Word)
  deriving DecidableEq, Repr

/-- The two formats the HCB decodes; a word's length follows from its format alone (30_encoding.md R80, R88). -/
inductive Format where
  /-- A 32-bit command word (R81). -/
  | cmd
  /-- A 49-bit host bus transaction (R82). -/
  | hbus
  deriving DecidableEq, Repr

/-- An encoded operation: a word of one of the two formats. -/
inductive EncodedWord where
  | cmd (word : Word)
  | hbus (word : HbusWord)
  deriving DecidableEq, Repr

/-- The commands a CMD word selects (30_encoding.md R84). -/
inductive Command where
  | nop
  | encode
  | decode
  deriving DecidableEq, Repr

/-- The operation a command is. -/
def Command.instr : Command → Instr
  | .nop => .nop
  | .encode => .encode
  | .decode => .decode

/-- The format an operation is encoded in (30_encoding.md R84, R85). -/
def Instr.format : Instr → Format
  | .nop => .cmd
  | .encode => .cmd
  | .decode => .cmd
  | .busRd _ _ => .hbus
  | .busWr _ _ => .hbus

end Sys2Proof
end

