-- ==== Sys2Proof/WellFormed.lean ====
section
/-! DEFINITION. The written form of an operation (30_encoding.md R82, R89). It is a check on notation alone: an
ill-formed BUS_RD is a legal transaction (R87), decodes, and runs as its well-formed twin does (log entry 11). -/

namespace Sys2Proof

/-- Whether an operation stands as the spec writes it: the WDATA of a read is "ignored by a read, which the spec writes
as 0" (30_encoding.md R82). Every other field is a bit vector all of whose values are legal (R85). -/
def Instr.wellFormed : Instr → Bool
  | .nop => true
  | .encode => true
  | .decode => true
  | .busRd _ wdata => wdata == 0
  | .busWr _ _ => true

end Sys2Proof
end

