-- ==== Sys2Proof/Decode.lean ====
section
/-! DEFINITION. The two decoders of 30_encoding.md (R84-R88), total on any word and any bytes, and after them the
encoder, written from the same tables. -/

namespace Sys2Proof

/-- Why a list of bytes is no encoded operation. -/
inductive DecodeError where
  /-- Fewer bytes than the format's length (R88: every CMD word is 32 bits, every HBUS word 49). -/
  | tooShort
  /-- A CMD word other than the three of R84 (R86). -/
  | illegalCommand
  /-- A bit above bit 48 in the seven bytes that carry an HBUS word (log entry 10). -/
  | bitsAboveHbus
  deriving DecidableEq, Repr

/-! ### Words -/

/-- `DecodeCmd`: an exact match on all 32 bits; `none` is ILLEGAL (30_encoding.md R84, R86; 40_command.md R101). -/
def decodeCmd (v : Word) : Option Command :=
  if v = 0x00000000#32 then some .nop
  else if v = 0x00000001#32 then some .encode
  else if v = 0x00000002#32 then some .decode
  else none

/-- The WE field, bit 48 (30_encoding.md R82). -/
def hbusWe (w : HbusWord) : Bool := w.getLsbD 48

/-- The WADDR field, bits [47:32] (30_encoding.md R82). -/
def hbusWaddr (w : HbusWord) : WordAddr := w.extractLsb' 32 16

/-- The WDATA field, bits [31:0] (30_encoding.md R82). -/
def hbusWdata (w : HbusWord) : Word := w.extractLsb' 0 32

/-- An HBUS word is decoded on bit 48 alone: every WADDR and every WDATA is legal (30_encoding.md R85). -/
def decodeHbus (w : HbusWord) : Instr :=
  if hbusWe w then .busWr (hbusWaddr w) (hbusWdata w) else .busRd (hbusWaddr w) (hbusWdata w)

/-- The decoder of both formats; `none` is an illegal CMD word (30_encoding.md R88). -/
def decodeWord : EncodedWord → Option Instr
  | .cmd v => (decodeCmd v).map Command.instr
  | .hbus w => some (decodeHbus w)

/-! ### Bytes, lowest address first -/

/-- The number that bytes spell, the first the least significant. -/
def natOfBytes : List Byte → Nat
  | [] => 0
  | b :: bs => b.toNat + 256 * natOfBytes bs

/-- The `n` bytes of a number, the least significant first. -/
def bytesOfNat : Nat → Nat → List Byte
  | 0, _ => []
  | n + 1, v => BitVec.ofNat 8 v :: bytesOfNat n (v / 256)

/-- How many bytes carry a word of a format: 32 bits in four, 49 bits in seven. -/
def Format.byteLength : Format → Nat
  | .cmd => 4
  | .hbus => 7

/-- The word of a format that a number stands for. -/
def wordOfNat (f : Format) (v : Nat) : Except DecodeError EncodedWord :=
  match f with
  | .cmd => .ok (.cmd (BitVec.ofNat 32 v))
  | .hbus => if v < 2 ^ 49 then .ok (.hbus (BitVec.ofNat 49 v)) else .error .bitsAboveHbus

/-- Decode the first word of a list of bytes, and give the bytes after it. -/
def decodeBytes (f : Format) (bs : List Byte) : Except DecodeError (Instr × List Byte) :=
  if bs.length < f.byteLength then .error .tooShort
  else
    match wordOfNat f (natOfBytes (bs.take f.byteLength)) with
    | .error e => .error e
    | .ok w =>
      match decodeWord w with
      | none => .error .illegalCommand
      | some i => .ok (i, bs.drop f.byteLength)

/-- The format of a table row of `nbits` bits, in whole bytes: 32 for the CMD rows, 56 for the HBUS rows. -/
def formatOfBits (nbits : Nat) : Format :=
  if nbits ≤ 32 then .cmd else .hbus

/-- The host's view of the decoder: the instruction whose bits are `w`, numbered as spec/opcode_table.json numbers
them, laid out as bytes and given to `decodeBytes`. -/
def decodeTableWord (nbits w : Nat) : Option Instr :=
  let f := formatOfBits nbits
  if w < 256 ^ f.byteLength then
    match decodeBytes f (bytesOfNat f.byteLength w) with
    | .ok (i, _) => some i
    | .error _ => none
  else none

/-! ### The encoder -/

/-- The HBUS word of a transaction: {WE[48], WADDR[47:32], WDATA[31:0]} (30_encoding.md R82). -/
def hbusWord (we : Bool) (waddr : WordAddr) (wdata : Word) : HbusWord :=
  BitVec.ofBool we ++ waddr ++ wdata

/-- The CMD word of a command (30_encoding.md R84). -/
def Command.word : Command → Word
  | .nop => 0x00000000#32
  | .encode => 0x00000001#32
  | .decode => 0x00000002#32

/-- The word of an operation, in its own format (30_encoding.md R84, R85). -/
def encode : Instr → EncodedWord
  | .nop => .cmd Command.nop.word
  | .encode => .cmd Command.encode.word
  | .decode => .cmd Command.decode.word
  | .busRd waddr wdata => .hbus (hbusWord false waddr wdata)
  | .busWr waddr wdata => .hbus (hbusWord true waddr wdata)

/-- The bytes of a word, lowest address first. -/
def EncodedWord.bytes : EncodedWord → List Byte
  | .cmd v => bytesOfNat 4 v.toNat
  | .hbus w => bytesOfNat 7 w.toNat

/-- The bytes of an operation. -/
def encodeBytes (i : Instr) : List Byte := (encode i).bytes

/-- The host bus transaction that performs an operation: a command is a write of its CMD word to R.CMD, word address
0x0000 (30_encoding.md R80, R90; 40_command.md R100). -/
def Instr.transaction (i : Instr) : HbusWord :=
  match Sys2Proof.encode i with
  | .cmd v => hbusWord true 0 v
  | .hbus w => w

end Sys2Proof
end

