-- ==== Sys2Proof/Machine/State.lean ====
section
/-! DEFINITION. The whole architectural state of one HCB (10_state.md R53), plain data, its reset value (R54), and the
reasons a step can stop. -/

namespace Sys2Proof.Machine

/-- A node record of TREE (10_state.md R45). -/
structure NodeRec where
  leaf : Bool
  sym : Symbol
  freq : BitVec 16
  left : Handle
  right : Handle
  deriving DecidableEq, Repr

/-- The zero record: it "marks an unused handle" (10_state.md R45). -/
def NodeRec.zero : NodeRec := ⟨false, 0, 0, 0, 0⟩

/-- TREE: 512 node records indexed by handle (10_state.md R45). -/
abbrev Tree := Vector NodeRec 512

/-- The engine's pending command (10_state.md R50); "none" is the absent value of `State.pend`. -/
inductive Pending where
  /-- ENCODE(L), L = IN_LEN[15:0] at acceptance. -/
  | encode (len : BitVec 16)
  /-- DECODE(B), B = IN_BITS[19:0] at acceptance. -/
  | decode (bits : BitVec 20)
  deriving DecidableEq, Repr

/-- STATUS.ERR_CODE's values; codes 7-15 are "reserved and never produced" (60_exceptions.md R185). -/
inductive ErrorCode where
  | none
  | badCmd
  | lenRange
  | bitsRange
  | decAbsentChild
  | decPartial
  | decOverflow
  deriving DecidableEq, Repr

/-- The contents of the three data buffers by byte address: strictly rising addresses; a byte that is not listed was
never written and holds no value (70_reset_and_hazards.md R207). -/
abbrev Memory := List Host.Cell

/-- What the outside of the HCB's registers does next (log entries 1 and 2). -/
inductive Input where
  /-- One host bus transaction, the ports' bundle for one clock with `req = 1` (10_state.md R22, 30_encoding.md R82). -/
  | transaction (word : HbusWord)
  /-- The engine is given its turn: the completion step happens if it is enabled (40_command.md R105). -/
  | engine
  /-- A clock edge with `rst` = 1, and the transaction presented on the bus then, if any (70_reset_and_hazards.md R205). -/
  | resetEdge (presented : Option HbusWord)
  deriving DecidableEq, Repr

/-- The state of one HCB: the tuple of 10_state.md R53, and three fields of the model's own at its end. STATUS.BUSY is
not a field of its own: R50 makes it the view "PEND is not none" (log entry 6). STATUS.PHASE is no state (R29, R53). -/
structure State where
  /-- PEND (R50), and with it STATUS.BUSY. -/
  pend : Option Pending
  /-- STATUS.READY (R26). -/
  ready : Bool
  /-- STATUS.ERR (R27). -/
  err : Bool
  /-- STATUS.DROP (R28). -/
  drop : Bool
  /-- STATUS.ERR_CODE (R30). -/
  errCode : ErrorCode
  /-- ERR_POS (R40). -/
  errPos : BitVec 20
  /-- IN_LEN (R31). -/
  inLen : Word
  /-- IN_BITS (R32). -/
  inBits : Word
  /-- ORIG_BITS (R33). -/
  origBits : BitVec 20
  /-- COMP_BITS (R34). -/
  compBits : BitVec 20
  /-- RATIO (R35). -/
  ratio : BitVec 23
  /-- NUM_SYMS (R36). -/
  numSyms : BitVec 9
  /-- NODE_COUNT (R37). -/
  nodeCount : BitVec 9
  /-- ROOT (R38). -/
  root : Handle
  /-- OUT_LEN (R39). -/
  outLen : BitVec 17
  /-- FREQ (R42). -/
  freq : Vector (BitVec 16) 256
  /-- CODE_LEN (R43). -/
  codeLen : Vector (BitVec 8) 256
  /-- CODE (R44): element `j` of the code of `s` is bit `j` of entry `s`. -/
  code : Vector (BitVec 256) 256
  /-- TREE (R45). -/
  tree : Tree
  /-- SYMBUF_IN, BITBUF and SYMBUF_OUT (R47, R48, R49) by byte address. -/
  mem : Memory
  /-- MODEL's own: what the `rdata` port showed for the latest read transaction (R22, log entry 3). -/
  rdata : Word
  /-- MODEL's own: how many reads have drawn a free value (log entry 4). -/
  draws : Nat
  /-- MODEL's own: the inputs still to come, the next one first (log entry 1). -/
  inputs : List Input
  deriving DecidableEq, Repr

/-- The state after power-up and reset: idle, EMPTY, no error, every register 0, tables zero, buffers unwritten
(10_state.md R54). The model's own fields: log entries 2, 3 and 4. -/
def State.reset : State where
  pend := none
  ready := false
  err := false
  drop := false
  errCode := .none
  errPos := 0
  inLen := 0
  inBits := 0
  origBits := 0
  compBits := 0
  ratio := 0
  numSyms := 0
  nodeCount := 0
  root := 0
  outLen := 0
  freq := tabulate 256 fun _ => 0
  codeLen := tabulate 256 fun _ => 0
  code := tabulate 256 fun _ => 0
  tree := tabulate 512 fun _ => NodeRec.zero
  mem := []
  rdata := 0
  draws := 0
  inputs := []

/-- Why the machine stops with a fault. -/
inductive Fault where
  /-- A buffer byte that nothing has written since power-up (or that a reset of a running command made unspecified)
  was read, at byte address `addr`: by BUS_RD of a buffer word, by ENCODE reading its text, or by DECODE reading its
  bits. "A read of it ... is then a model fault, not a value" (70_reset_and_hazards.md R207). SAFE: the hardware goes on
  with some value, and the model proves nothing of such a run. -/
  | unwrittenRead (addr : Nat)
  deriving DecidableEq, Repr

/-- Why an instruction has no meaning. -/
inductive Refusal where
  /-- Raised only by a refused arm of Machine/Dispatch.lean, for an instruction not modelled yet; there is none.
  SAFE: nothing is proved of a run that meets it. -/
  | notModelled (mnemonic : String)
  deriving DecidableEq, Repr

/-- The outcome of one step of this machine. -/
abbrev Outcome := Host.Outcome State Fault Refusal

end Sys2Proof.Machine
end

