-- ==== Sys2Proof/Machine/Operands.lean ====
section
/-! DEFINITION. Operand forms: how bits, bytes and words are packed (20_memory.md R62-R65), where a word address
falls (R61), and the word layout of a node record (43_host_access.md R175). -/

namespace Sys2Proof.Machine

/-! ### Bits and bytes -/

/-- The number whose bit `j` is element `j` of a bit sequence (20_memory.md R63: LSB first). -/
def natOfBits : List Bool → Nat
  | [] => 0
  | b :: bs => b.toNat + 2 * natOfBits bs

/-- The byte whose bit `j` is element `j` of a sequence of at most eight bits. -/
def byteOfBits (bits : List Bool) : Byte := BitVec.ofNat 8 (natOfBits bits)

/-- The entry of CODE that stores a code: element `j` at bit `j`, zero above (10_state.md R44). -/
def codeEntry (code : List Bool) : BitVec 256 := BitVec.ofNat 256 (natOfBits code)

/-- The first `n` bytes of a bit sequence, eight elements to a byte in order. -/
def bytesOfBits : Nat → List Bool → List Byte
  | 0, _ => []
  | n + 1, bits => byteOfBits (bits.take 8) :: bytesOfBits n (bits.drop 8)

/-- How many zeros follow `n` elements up to the next multiple of `m`: the pad of 41_encode.md R136 (`m` = 32) and of
42_decode.md R157 (`m` = 4). -/
def padLength (m n : Nat) : Nat := (m - n % m) % m

/-- A bit sequence and the zero bits that fill its last BITBUF word (41_encode.md R136). -/
def padBits (bits : List Bool) : List Bool :=
  bits ++ List.replicate (padLength 32 bits.length) false

/-- Output symbols and the zero bytes that fill the last SYMBUF_OUT word (42_decode.md R157). -/
def padSymbols (out : List Symbol) : List Byte :=
  out ++ List.replicate (padLength 4 out.length) 0

/-- The bytes that a bit-string and its pad fill. -/
def packBits (bits : List Bool) : List Byte :=
  bytesOfBits ((padBits bits).length / 8) (padBits bits)

/-! ### Words -/

/-- Byte `m` of a word: bits [8m+7:8m] (20_memory.md R62). -/
def byteOfWord (v : Word) (m : Nat) : Byte := v.extractLsb' (8 * m) 8

/-- The four bytes of a word, bits [7:0] first (20_memory.md R62). -/
def bytesOfWord (v : Word) : List Byte :=
  [byteOfWord v 0, byteOfWord v 1, byteOfWord v 2, byteOfWord v 3]

/-- The word of four bytes, the first at bits [7:0] (20_memory.md R62). -/
def wordOfBytes (b0 b1 b2 b3 : Byte) : Word := b3 ++ b2 ++ b1 ++ b0

/-- Word `k` of a CODE entry: bits [32k+31:32k] (43_host_access.md R174). -/
def codeWord (c : BitVec 256) (k : Nat) : Word := c.extractLsb' (32 * k) 32

/-- `NodeWord(rec, k)`: {LEAF, 0000000, SYM, FREQ} and {0000000, RIGHT, 0000000, LEFT} (43_host_access.md R175). -/
def nodeWord (n : NodeRec) (k : Nat) : Word :=
  if k = 0 then BitVec.ofBool n.leaf ++ 0#7 ++ n.sym ++ n.freq
  else 0#7 ++ n.right ++ 0#7 ++ n.left

/-! ### Addresses -/

/-- The byte address of a word address: "byte address = waddr * 4" (20_memory.md R60). -/
def byteAddr (w : WordAddr) : Nat := 4 * w.toNat

/-- The first byte address of SYMBUF_IN (20_memory.md R61). -/
def symInBase : Nat := 0x10000

/-- The first byte address of BITBUF (20_memory.md R61). -/
def bitBase : Nat := 0x20000

/-- The first byte address of SYMBUF_OUT (20_memory.md R61). -/
def symOutBase : Nat := 0x30000

/-- The first byte address after SYMBUF_OUT: the end of the 18-bit byte address space (20_memory.md R60). -/
def memEnd : Nat := 0x40000

/-- What a word address reaches (20_memory.md R61; 10_state.md R23). -/
inductive Target where
  | cmd
  | status
  | inLen
  | inBits
  | origBits
  | compBits
  | ratio
  | numSyms
  | nodeCount
  | root
  | outLen
  | errPos
  | freq (s : Nat)
  | codeLen (s : Nat)
  | code (s k : Nat)
  | tree (h k : Nat)
  | symIn
  | bitBuf
  | symOut
  /-- A reserved register address or an unmapped address (20_memory.md R69). -/
  | unmapped
  deriving DecidableEq, Repr

/-- The register block, by word address (10_state.md R23, R41). -/
def registerAt : Nat → Target
  | 0x0000 => .cmd
  | 0x0001 => .status
  | 0x0002 => .inLen
  | 0x0003 => .inBits
  | 0x0004 => .origBits
  | 0x0005 => .compBits
  | 0x0006 => .ratio
  | 0x0007 => .numSyms
  | 0x0008 => .nodeCount
  | 0x0009 => .root
  | 0x000A => .outLen
  | 0x000B => .errPos
  | _ => .unmapped

/-- The address map, by word address (20_memory.md R61). -/
def targetAt (a : Nat) : Target :=
  if a < 0x0400 then registerAt a
  else if a < 0x0500 then .freq (a - 0x0400)
  else if a < 0x0600 then .codeLen (a - 0x0500)
  else if a < 0x0800 then .unmapped
  else if a < 0x1000 then .code ((a - 0x0800) / 8) ((a - 0x0800) % 8)
  else if a < 0x1400 then .tree ((a - 0x1000) / 2) ((a - 0x1000) % 2)
  else if a < 0x4000 then .unmapped
  else if a < 0x8000 then .symIn
  else if a < 0xC000 then .bitBuf
  else .symOut

/-- What a word address reaches. -/
def target (w : WordAddr) : Target := targetAt w.toNat

/-- Whether a read of the address is exact while BUSY = 1: STATUS, CMD, IN_LEN and IN_BITS (43_host_access.md R168). -/
def exactWhileBusy (w : WordAddr) : Bool := decide (w.toNat < 4)

end Sys2Proof.Machine
end

