-- ==== Sys2Proof/Machine/Flags.lean ====
section
/-! DEFINITION. The STATUS word with its flags (10_state.md R25-R30), the error codes (60_exceptions.md R185) and the
size statistics (41_encode.md R137, R138). -/

namespace Sys2Proof.Machine

/-- STATUS.BUSY: "PEND is not none exactly when STATUS.BUSY = 1" (10_state.md R50). -/
def State.busy (s : State) : Bool := s.pend.isSome

/-- The 4-bit value of ERR_CODE (60_exceptions.md R185). -/
def ErrorCode.bits : ErrorCode → BitVec 4
  | .none => 0
  | .badCmd => 1
  | .lenRange => 2
  | .bitsRange => 3
  | .decAbsentChild => 4
  | .decPartial => 5
  | .decOverflow => 6

/-- STATUS.PHASE as a read shows it: 0 when idle, one of 1, 2, 3, 4 (a draw) with a pending ENCODE, 5 with a pending
DECODE (10_state.md R29). -/
def phase (s : State) : BitVec 3 :=
  match s.pend with
  | none => 0
  | some (.encode _) => BitVec.ofNat 3 (1 + (Config.phaseDraw s.draws).val)
  | some (.decode _) => 5

/-- The STATUS word: {0, ERR_CODE[11:8], 0, PHASE[6:4], DROP, ERR, READY, BUSY} (10_state.md R25). -/
def statusWord (s : State) : Word :=
  0#20 ++ s.errCode.bits ++ 0#1 ++ phase s ++ BitVec.ofBool s.drop ++ BitVec.ofBool s.err
    ++ BitVec.ofBool s.ready ++ BitVec.ofBool s.busy

/-- RATIO: floor(COMP_BITS * 100 * 65536 / ORIG_BITS), and 0 when ORIG_BITS = 0 (41_encode.md R138). -/
def ratioOf (comp orig : Nat) : Nat :=
  if orig = 0 then 0 else comp * 6553600 / orig

end Sys2Proof.Machine
end

