-- ==== Sys2Proof/Machine/Ops.lean ====
section
/-! DEFINITION. The named operations over the buffers and the registers. An error report is this hardware's nearest thing
to an exception (60_exceptions.md R188-R190): `State.reject` at issue and `State.raiseFault` at completion are its two
entries, and its "return" is the acceptance of a later command, `State.accept` (R192). -/

namespace Sys2Proof.Machine

/-! ### The data buffers -/

/-- The canonical form of the buffers' contents: strictly rising addresses. An unlisted byte holds no value, so no entry
can repeat what an unlisted address reads as. -/
abbrev Memory.wf (m : Memory) : Prop := (m.map Prod.fst).Pairwise (· < ·)

/-- The byte at an address; `none` when nothing has written it (70_reset_and_hazards.md R207). -/
def Memory.read (m : Memory) (a : Nat) : Option Byte := m.lookup a

/-- The cells of bytes laid out from an address. -/
def Memory.cells (base : Nat) : List Byte → Memory
  | [] => []
  | b :: bs => (base, b) :: Memory.cells (base + 1) bs

/-- Store bytes from an address on. -/
def Memory.store (m : Memory) (base : Nat) (bs : List Byte) : Memory :=
  m.filter (fun c => decide (c.1 < base)) ++ Memory.cells base bs
    ++ m.filter (fun c => decide (base + bs.length ≤ c.1))

/-- Make the bytes of `[base, base + n)` unwritten (70_reset_and_hazards.md R206). -/
def Memory.erase (m : Memory) (base n : Nat) : Memory :=
  m.filter (fun c => decide (c.1 < base)) ++ m.filter (fun c => decide (base + n ≤ c.1))

/-- Read `n` bytes from an address on, or give the first address that nothing has written. -/
def Memory.readBytes (m : Memory) (base : Nat) : Nat → Except Nat (List Byte)
  | 0 => .ok []
  | n + 1 =>
    match m.read base with
    | none => .error base
    | some b =>
      match m.readBytes (base + 1) n with
      | .error a => .error a
      | .ok bs => .ok (b :: bs)

/-- Read the little-endian word at a byte address (20_memory.md R62), or give the first unwritten address. -/
def Memory.readWord (m : Memory) (base : Nat) : Except Nat Word :=
  match m.readBytes base 4 with
  | .error a => .error a
  | .ok [b0, b1, b2, b3] => .ok (wordOfBytes b0 b1 b2 b3)
  | .ok _ => .error base

/-- The byte address that holds `BIT[i]` (20_memory.md R63). -/
def bitAddr (i : Nat) : Nat := bitBase + i / 8

/-- `BIT[i]`; `none` when nothing has written it (20_memory.md R63). -/
def Memory.readBit (m : Memory) (i : Nat) : Option Bool :=
  (m.read (bitAddr i)).map fun b => b.getLsbD (i % 8)

/-! ### Reports: rejection, acceptance, drop, fault -/

/-- `reject(c)`: ERR and ERR_CODE, and nothing else (40_command.md R103, 60_exceptions.md R188). -/
def State.reject (s : State) (c : ErrorCode) : State :=
  { s with err := true, errCode := c }

/-- `accept(p)`: BUSY and PEND, and ERR, ERR_CODE, ERR_POS and DROP cleared (40_command.md R104). -/
def State.accept (s : State) (p : Pending) : State :=
  { s with pend := some p, err := false, errCode := .none, errPos := 0, drop := false }

/-- A write while BUSY = 1 is dropped: STATUS.DROP, and nothing else (40_command.md R106). -/
def State.dropWrite (s : State) : State := { s with drop := true }

/-- `raise Fault(code, pos)`: ERR, ERR_CODE and ERR_POS (00_scope.md R11, 42_decode.md R156). -/
def State.raiseFault (s : State) (c : ErrorCode) (pos : Nat) : State :=
  { s with err := true, errCode := c, errPos := BitVec.ofNat 20 pos }

/-- The end of a completion step: BUSY <- 0 and PEND <- none (40_command.md R105). -/
def State.retire (s : State) : State := { s with pend := none }

/-! ### Register and buffer updates -/

/-- Store all 32 bits into IN_LEN (43_host_access.md R167). -/
def State.setInLen (s : State) (v : Word) : State := { s with inLen := v }

/-- Store all 32 bits into IN_BITS (43_host_access.md R167). -/
def State.setInBits (s : State) (v : Word) : State := { s with inBits := v }

/-- Store bytes into the buffers. -/
def State.storeBytes (s : State) (base : Nat) (bs : List Byte) : State :=
  { s with mem := s.mem.store base bs }

/-- The `rdata` port shows a read's result (10_state.md R22). -/
def State.returnData (s : State) (v : Word) : State := { s with rdata := v }

/-- Count one more drawn value (log entry 4). -/
def State.nextDraw (s : State) : State := { s with draws := s.draws + 1 }

/-- Set OUT_LEN (10_state.md R39). -/
def State.setOutLen (s : State) (n : Nat) : State := { s with outLen := BitVec.ofNat 17 n }

/-- The inputs still to come (log entry 1). -/
def State.withInputs (s : State) (l : List Input) : State := { s with inputs := l }

end Sys2Proof.Machine
end

