-- ==== Sys2Proof/Machine/Command.lean ====
section
/-! DEFINITION. The CMD family: the issue of NOP, ENCODE and DECODE, and of any CMD word (40_command.md R100-R106).
The completion of an accepted command is the engine's step, Machine/Engine.lean. -/

namespace Sys2Proof.Machine

/-- NOP "writes nothing and changes no state"; written while BUSY = 1 it is a dropped write (40_command.md R102,
R106). -/
def execNop (s : State) : Outcome :=
  if s.busy then .next s.dropWrite else .next s

/-- ENCODE's issue: dropped while BUSY = 1, rejected with LEN_RANGE when IN_LEN > 65535, else accepted with
L = IN_LEN[15:0] (40_command.md R100, R104). -/
def execEncode (s : State) : Outcome :=
  if s.busy then .next s.dropWrite
  else if Config.maxLen < s.inLen.toNat then .next (s.reject .lenRange)
  else .next (s.accept (.encode (s.inLen.extractLsb' 0 16)))

/-- DECODE's issue: dropped while BUSY = 1, rejected with BITS_RANGE when IN_BITS > 524288, else accepted with
B = IN_BITS[19:0] (40_command.md R100, R104). -/
def execDecode (s : State) : Outcome :=
  if s.busy then .next s.dropWrite
  else if Config.bitbufBits < s.inBits.toNat then .next (s.reject .bitsRange)
  else .next (s.accept (.decode (s.inBits.extractLsb' 0 20)))

/-- An illegal CMD word: dropped while BUSY = 1, else rejected with BAD_CMD (40_command.md R100, R103). -/
def issueIllegal (s : State) : Outcome :=
  if s.busy then .next s.dropWrite else .next (s.reject .badCmd)

/-- `IssueCmd(v)`: what a host write of `v` to R.CMD does (40_command.md R100, R101). -/
def issueCmd (v : Word) (s : State) : Outcome :=
  match decodeCmd v with
  | some .nop => execNop s
  | some .encode => execEncode s
  | some .decode => execDecode s
  | none => issueIllegal s

end Sys2Proof.Machine
end

