-- ==== Sys2Proof/Machine/Bus.lean ====
section
/-! DEFINITION. The HBUS family: BUS_RD and BUS_WR (43_host_access.md R165, R166). -/

namespace Sys2Proof.Machine

/-- `View(w)`: the word a read of `w` shows, or the first unwritten byte it needs (43_host_access.md R165, R169,
R172-R178; 70_reset_and_hazards.md R207). -/
def view (w : WordAddr) (s : State) : Except Nat Word :=
  match target w with
  | .cmd => .ok 0
  | .status => .ok (statusWord s)
  | .inLen => .ok s.inLen
  | .inBits => .ok s.inBits
  | .origBits => .ok (s.origBits.setWidth 32)
  | .compBits => .ok (s.compBits.setWidth 32)
  | .ratio => .ok (s.ratio.setWidth 32)
  | .numSyms => .ok (s.numSyms.setWidth 32)
  | .nodeCount => .ok (s.nodeCount.setWidth 32)
  | .root => .ok (s.root.setWidth 32)
  | .outLen => .ok (s.outLen.setWidth 32)
  | .errPos => .ok (s.errPos.setWidth 32)
  | .freq i => .ok ((s.freq[i]?.getD 0).setWidth 32)
  | .codeLen i => .ok ((s.codeLen[i]?.getD 0).setWidth 32)
  | .code i k => .ok (codeWord (s.code[i]?.getD 0) k)
  | .tree h k => .ok (nodeWord (s.tree[h]?.getD NodeRec.zero) k)
  | .symIn => s.mem.readWord (byteAddr w)
  | .bitBuf => s.mem.readWord (byteAddr w)
  | .symOut => s.mem.readWord (byteAddr w)
  | .unmapped => .ok 0

/-- A read of `View(w)`: its word on `rdata`, or the model fault of an unwritten cell. -/
def readView (w : WordAddr) (s : State) : Outcome :=
  match view w s with
  | .error a => .fault (.unwrittenRead a)
  | .ok v => .next (s.returnData v)

/-- The end of a read: one more draw is counted while BUSY = 1 (log entry 4). -/
def countDraw (busy : Bool) (o : Outcome) : Outcome :=
  match o with
  | .next s => .next (if busy then s.nextDraw else s)
  | .fault r => .fault r
  | .refused r => .refused r

/-- BUS_RD: `View(w)`, but while BUSY = 1 a free value for every address other than STATUS, CMD, IN_LEN and IN_BITS
(43_host_access.md R165, R168). The WDATA field is ignored (30_encoding.md R82). -/
def execBusRd (waddr : WordAddr) (_wdata : Word) (s : State) : Outcome :=
  countDraw s.busy
    (if s.busy && !exactWhileBusy waddr then .next (s.returnData (Config.busyRead s.draws))
    else readView waddr s)

/-- A write to an address other than CMD while BUSY = 0: IN_LEN, IN_BITS, SYMBUF_IN and BITBUF take the word, and every
other address ignores it (43_host_access.md R166, R167, R176, R177, R180). -/
def writeTarget (waddr : WordAddr) (v : Word) (s : State) : State :=
  match target waddr with
  | .inLen => s.setInLen v
  | .inBits => s.setInBits v
  | .symIn => s.storeBytes (byteAddr waddr) (bytesOfWord v)
  | .bitBuf => s.storeBytes (byteAddr waddr) (bytesOfWord v)
  | .cmd => s
  | .status => s
  | .origBits => s
  | .compBits => s
  | .ratio => s
  | .numSyms => s
  | .nodeCount => s
  | .root => s
  | .outLen => s
  | .errPos => s
  | .freq _ => s
  | .codeLen _ => s
  | .code _ _ => s
  | .tree _ _ => s
  | .symOut => s
  | .unmapped => s

/-- BUS_WR: a write to CMD issues a command; any other write is dropped while BUSY = 1 (43_host_access.md R166,
40_command.md R100, R106). -/
def execBusWr (waddr : WordAddr) (wdata : Word) (s : State) : Outcome :=
  if waddr = 0 then issueCmd wdata s
  else if s.busy then .next s.dropWrite
  else .next (writeTarget waddr wdata s)

end Sys2Proof.Machine
end

