-- ==== Sys2Proof/Machine/Dispatch.lean ====
section
/-! DEFINITION. The meaning of each operation of the opcode table, one arm a constructor. -/

namespace Sys2Proof.Machine

def exec (i : Instr) (s : State) : Host.Outcome State Fault Refusal :=
  match i with
  -- the CMD family
  | .nop => Sys2Proof.Machine.execNop s
  | .encode => Sys2Proof.Machine.execEncode s
  | .decode => Sys2Proof.Machine.execDecode s
  -- the HBUS family
  | .busRd waddr wdata => Sys2Proof.Machine.execBusRd waddr wdata s
  | .busWr waddr wdata => Sys2Proof.Machine.execBusWr waddr wdata s

end Sys2Proof.Machine
end

