-- ==== Sys2Proof/Machine/Encode.lean ====
section
/-! DEFINITION. ENCODE's completion, `EncodeCommit(L)` (41_encode.md R116): the frequency counter, the tree builder, the
code-table generator, the bitstream packer and the commit. Each phase is a function of the text alone. -/

namespace Sys2Proof.Machine

/-! ### COUNT and the leaf list -/

/-- Every symbol, in ascending order of value. -/
def allSymbols : List Symbol := (List.range 256).map fun i => BitVec.ofNat 8 i

/-- `F[s]`: the number of positions of the text that hold `s` (41_encode.md R120). -/
def countOf (text : List Symbol) (s : Symbol) : Nat := text.count s

/-- `S`: the ascending list of the symbols with `F[s] > 0` (41_encode.md R122). -/
def leafSymbols (text : List Symbol) : List Symbol :=
  allSymbols.filter fun s => decide (0 < countOf text s)

/-! ### BUILD -/

/-- A leaf record (41_encode.md R123). -/
def leafRec (s : Symbol) (f : Nat) : NodeRec := ⟨true, s, BitVec.ofNat 16 f, 0, 0⟩

/-- A member of the priority queue: a node's handle, with its frequency. -/
structure QItem where
  freq : Nat
  handle : Nat
  deriving DecidableEq, Repr

/-- The queue's order: the key (freq, handle), compared lexicographically (41_encode.md R124). -/
def QItem.before (a b : QItem) : Bool :=
  decide (a.freq < b.freq ∨ (a.freq = b.freq ∧ a.handle < b.handle))

/-- An internal record: the sum of the children's frequencies, the first removed LEFT, the second RIGHT (R125). -/
def internalRec (a b : QItem) : NodeRec :=
  ⟨false, 0, BitVec.ofNat 16 (a.freq + b.freq), BitVec.ofNat 9 a.handle, BitVec.ofNat 9 b.handle⟩

/-- Remove the queue's member with the least key (41_encode.md R124). -/
def removeLeast : List QItem → Option (QItem × List QItem)
  | [] => none
  | x :: xs =>
    match removeLeast xs with
    | none => some (x, [])
    | some (m, rest) => if x.before m then some (x, xs) else some (m, x :: rest)

/-- One merge: remove the least member, then the least remaining one, and insert the node made of them at the next
handle, which is the number of records made so far; `none` when fewer than two members are left (41_encode.md R125). -/
def mergeStep (nodes : List NodeRec) (q : List QItem) : Option (List NodeRec × List QItem) :=
  match removeLeast q with
  | none => none
  | some (a, q1) =>
    match removeLeast q1 with
    | none => none
    | some (b, q2) => some (nodes ++ [internalRec a b], q2 ++ [⟨a.freq + b.freq, nodes.length⟩])

/-- Merge until one member remains, at most `fuel` times (41_encode.md R125, R126). -/
def mergeAll : Nat → List NodeRec → List QItem → List NodeRec × List QItem
  | 0, nodes, q => (nodes, q)
  | fuel + 1, nodes, q =>
    match mergeStep nodes q with
    | none => (nodes, q)
    | some (nodes', q') => mergeAll fuel nodes' q'

/-- The leaf records, at handles 0..N-1 in leaf-list order (41_encode.md R123). -/
def leafRecs (text : List Symbol) : List NodeRec :=
  (leafSymbols text).map fun s => leafRec s (countOf text s)

/-- The queue before the first merge: the leaves' handles with their frequencies (41_encode.md R125). -/
def leafQueue (text : List Symbol) : List QItem :=
  (leafSymbols text).mapIdx fun k s => ⟨countOf text s, k⟩

/-- The records made and the queue left when the merge stops (41_encode.md R125, R126, R127). -/
def merged (text : List Symbol) : List NodeRec × List QItem :=
  mergeAll (leafQueue text).length (leafRecs text) (leafQueue text)

/-- `T`: the records made, at their handles; every other record is the zero record (41_encode.md R123, R126). -/
def treeOfNodes (nodes : List NodeRec) : Tree := tabulate 512 fun h => nodes.getD h NodeRec.zero

/-- `r`: the one element of the queue when the merge stops (41_encode.md R125). -/
def rootOfQueue (q : List QItem) : Handle :=
  match q with
  | [] => 0
  | x :: _ => BitVec.ofNat 9 x.handle

/-! ### CODEGEN -/

/-- Record `h` of a tree. -/
def Tree.node (t : Tree) (h : Handle) : NodeRec := t[h.toNat]'(h.isLt)

/-- `Visit(h, p)`: the leaves under `h` with their paths, left subtree first, appending 0 when descending left and 1
when descending right (41_encode.md R130). `fuel` bounds the depth (R132). -/
def visit (t : Tree) : Nat → Handle → List Bool → List (Symbol × List Bool)
  | 0, _, _ => []
  | fuel + 1, h, p =>
    if (t.node h).leaf then [((t.node h).sym, p)]
    else visit t fuel (t.node h).left (p ++ [false]) ++ visit t fuel (t.node h).right (p ++ [true])

/-- `CodeGen(T, r, N)` as the list of symbols with their codes; a lone leaf gets the code "0" (41_encode.md R130,
R131). -/
def codeGen (t : Tree) (r : Handle) (n : Nat) : List (Symbol × List Bool) :=
  if n = 1 then [((t.node r).sym, [false])] else visit t 256 r []

/-- The code of a symbol; the empty sequence when it has none (41_encode.md R134). -/
def codeOf (codes : List (Symbol × List Bool)) (s : Symbol) : List Bool := (codes.lookup s).getD []

/-! ### PACK -/

/-- The bit-string: "for every Symbol in the input in original order, that Symbol's code" (41_encode.md R135). -/
def streamOf (codes : List (Symbol × List Bool)) (text : List Symbol) : List Bool :=
  text.flatMap (codeOf codes)

/-! ### What a text encodes to -/

/-- `N`, the number of distinct symbols (41_encode.md R122). -/
def numSymsOf (text : List Symbol) : Nat := (leafSymbols text).length

/-- The tree of a text (41_encode.md R116, BUILD). -/
def treeOf (text : List Symbol) : Tree := treeOfNodes (merged text).1

/-- The root's handle (41_encode.md R116, BUILD). -/
def rootOf (text : List Symbol) : Handle := rootOfQueue (merged text).2

/-- The codes of a text (41_encode.md R116, CODEGEN). -/
def codesOf (text : List Symbol) : List (Symbol × List Bool) :=
  codeGen (treeOf text) (rootOf text) (numSymsOf text)

/-! ### The commit -/

/-- What a non-empty ENCODE of `text` commits: every table and statistic replaced at once, the bit-string and its pad
written to BITBUF, READY set (41_encode.md R116, R135-R138, R140). -/
def State.commitText (s : State) (text : List Symbol) : State :=
  let codes := codesOf text
  let stream := streamOf codes text
  { s with
    ready := true
    origBits := BitVec.ofNat 20 (8 * text.length)
    compBits := BitVec.ofNat 20 stream.length
    ratio := BitVec.ofNat 23 (ratioOf stream.length (8 * text.length))
    numSyms := BitVec.ofNat 9 (numSymsOf text)
    nodeCount := BitVec.ofNat 9 (2 * numSymsOf text - 1)
    root := rootOf text
    freq := tabulate 256 fun i => BitVec.ofNat 16 (countOf text (BitVec.ofNat 8 i))
    codeLen := tabulate 256 fun i => BitVec.ofNat 8 (codeOf codes (BitVec.ofNat 8 i)).length
    code := tabulate 256 fun i => codeEntry (codeOf codes (BitVec.ofNat 8 i))
    tree := treeOf text
    mem := s.mem.store bitBase (packBits stream) }

/-- `EmptyCommit()`: tables and size counters zero; the tree dropped unless `keep`, the parameter KEEP_TREE_ON_EMPTY
(41_encode.md R118, R119). -/
def State.emptyCommit (s : State) (keep : Bool) : State :=
  { s with
    ready := if keep then s.ready else false
    origBits := 0
    compBits := 0
    ratio := 0
    numSyms := 0
    nodeCount := if keep then s.nodeCount else 0
    root := if keep then s.root else 0
    freq := tabulate 256 fun _ => 0
    codeLen := tabulate 256 fun _ => 0
    code := tabulate 256 fun _ => 0
    tree := if keep then s.tree else tabulate 512 fun _ => NodeRec.zero }

/-- `EncodeCommit(L)` for a value of KEEP_TREE_ON_EMPTY, or the first unwritten byte of the text (41_encode.md R116,
R117; 70_reset_and_hazards.md R207). -/
def encodeCommit (keep : Bool) (len : BitVec 16) (s : State) : Except Nat State :=
  if len = 0 then .ok (s.emptyCommit keep)
  else
    match s.mem.readBytes symInBase len.toNat with
    | .error a => .error a
    | .ok text => .ok (s.commitText text)

end Sys2Proof.Machine
end

