-- ==== Sys2Proof/Machine/Walk.lean ====
section
/-! DEFINITION. DECODE's completion, `DecodeCommit(B)` (42_decode.md R149): the bitstream unpacker and the tree walker. -/

namespace Sys2Proof.Machine

/-- The child a bit leads to: LEFT on 0, RIGHT on 1 (42_decode.md R150). -/
def Tree.child (t : Tree) (h : Handle) (b : Bool) : Handle :=
  if b then (t.node h).right else (t.node h).left

/-- What the walker does with one bit `b` at node `cur`, `n` symbols being written: the next node and the symbol
emitted, if any, or the fault (42_decode.md R149-R154). -/
def walkBit (t : Tree) (root cur : Handle) (n : Nat) (b : Bool) :
    Except ErrorCode (Handle × Option Symbol) :=
  if (t.node cur).leaf then
    if b then .error .decAbsentChild
    else if n = Config.decOutCap then .error .decOverflow
    else .ok (cur, some (t.node cur).sym)
  else if (t.node (t.child cur b)).leaf then
    if n = Config.decOutCap then .error .decOverflow
    else .ok (root, some (t.node (t.child cur b)).sym)
  else .ok (t.child cur b, none)

/-- How a walk ends: the symbols it emitted, in order, and its fault with the bit position, if any. -/
structure WalkEnd where
  out : List Symbol
  fault : Option (ErrorCode × Nat)
  deriving DecidableEq, Repr

/-- A walk's end with one more symbol before it. -/
def WalkEnd.cons (sym : Symbol) (r : WalkEnd) : WalkEnd := { r with out := sym :: r.out }

/-- The loop of 42_decode.md R149: `k` bits left, bit index `i`, node `cur`, `n` symbols written so far. It reads one
bit a turn, in stream order, and stops at the first fault (R148, R156); an unwritten bit gives its byte address
(70_reset_and_hazards.md R207). After the last bit a walker away from the root is DEC_PARTIAL (R155). -/
def walk (t : Tree) (root : Handle) (m : Memory) : Nat → Nat → Handle → Nat → Except Nat WalkEnd
  | 0, i, cur, _ => .ok ⟨[], if cur = root then none else some (.decPartial, i)⟩
  | k + 1, i, cur, n =>
    match m.readBit i with
    | none => .error (bitAddr i)
    | some b =>
      match walkBit t root cur n b with
      | .error c => .ok ⟨[], some (c, i)⟩
      | .ok (cur', none) => walk t root m k (i + 1) cur' n
      | .ok (cur', some sym) =>
        match walk t root m k (i + 1) cur' (n + 1) with
        | .error a => .error a
        | .ok r => .ok (r.cons sym)

/-- `Finish(n)`: OUT_LEN, the output symbols and their pad (42_decode.md R149, R157). -/
def State.finish (s : State) (out : List Symbol) : State :=
  (s.setOutLen out.length).storeBytes symOutBase (padSymbols out)

/-- The end of a walk: `Finish`, then the fault's report, if any (42_decode.md R156). -/
def State.endWalk (s : State) (r : WalkEnd) : State :=
  match r.fault with
  | none => s.finish r.out
  | some (c, pos) => (s.finish r.out).raiseFault c pos

/-- `DecodeCommit(B)`, or the byte address of the first unwritten bit it reads (42_decode.md R147, R149). -/
def decodeCommit (bits : BitVec 20) (s : State) : Except Nat State :=
  if s.ready = false ∨ bits = 0 then .ok (s.setOutLen 0)
  else
    match walk s.tree s.root s.mem bits.toNat 0 s.root 0 with
    | .error a => .error a
    | .ok r => .ok (s.endWalk r)

end Sys2Proof.Machine
end

