-- ==== Sys2Proof/Machine/Engine.lean ====
section
/-! DEFINITION. What happens to the HCB besides host transactions: the engine's completion step (40_command.md R105)
and the reset edge (70_reset_and_hazards.md R205, R206). -/

namespace Sys2Proof.Machine

/-- What an engine step answers: the committed state, retired, or the model fault of an unwritten cell. -/
def retired (r : Except Nat State) : Outcome :=
  match r with
  | .error a => .fault (.unwrittenRead a)
  | .ok s => .next s.retire

/-- `Complete()`: the engine's one step, "enabled exactly when R.STATUS.BUSY = 1"; given a turn while BUSY = 0 it does
nothing (40_command.md R105, log entry 12). -/
def complete (s : State) : Outcome :=
  match s.pend with
  | none => .next s
  | some (.encode len) => retired (encodeCommit Config.keepTreeOnEmpty len s)
  | some (.decode bits) => retired (decodeCommit bits s)

/-- The buffers after a reset: an abandoned ENCODE leaves BITBUF unwritten and an abandoned DECODE leaves SYMBUF_OUT
unwritten; "a reset does not change contents already written" otherwise (70_reset_and_hazards.md R206, R207). -/
def memAfterReset (s : State) : Memory :=
  match s.pend with
  | none => s.mem
  | some (.encode _) => s.mem.erase bitBase Config.symbufBytes
  | some (.decode _) => s.mem.erase symOutBase Config.symbufBytes

/-- Whether the transaction presented at a reset edge is a read. -/
def presentsRead (presented : Option HbusWord) : Bool :=
  match presented with
  | none => false
  | some w => !hbusWe w

/-- A clock edge with `rst` = 1: every register and table takes its reset value, a presented write has no effect and a
presented read returns any value (70_reset_and_hazards.md R205). The inputs and the count of draws go on (log
entries 2 and 4). -/
def State.resetEdge (s : State) (presented : Option HbusWord) : State :=
  { State.reset with
    mem := memAfterReset s
    rdata := if presentsRead presented then Config.resetRead s.draws else s.rdata
    draws := if presentsRead presented then s.draws + 1 else s.draws
    inputs := s.inputs }

/-- The input that makes one transaction the next thing that happens. -/
def transactionInput (nbits w : Nat) : Input :=
  match formatOfBits nbits with
  | .cmd => .transaction (hbusWord true 0 (BitVec.ofNat 32 w))
  | .hbus => .transaction (BitVec.ofNat 49 w)

/-- A host transaction happens: its HBUS word is decoded and run (30_encoding.md R80, R85). -/
def runTransaction (run : Instr → State → Outcome) (w : HbusWord) (s : State) : Outcome :=
  run (decodeHbus w) s

end Sys2Proof.Machine
end

