-- ==== Sys2Proof/Machine/Step.lean ====
section
/-! DEFINITION. One step of the machine: one host bus transaction, one completion step of the engine, or one reset
edge, whichever the inputs name next (00_scope.md R15, R16). -/

namespace Sys2Proof.Machine

/-- One step. With inputs left, the next one happens. With none left, a running command completes (LATENCY is finite,
00_scope.md R9, R16), and an idle HCB stays as it is (70_reset_and_hazards.md R208, R219). -/
def step (s : State) : Host.Outcome State Fault Refusal :=
  match s.inputs with
  | [] => complete s
  | .transaction w :: rest => runTransaction exec w (s.withInputs rest)
  | .engine :: rest => complete (s.withInputs rest)
  | .resetEdge presented :: rest => .next ((s.withInputs rest).resetEdge presented)

/-- The state with one transaction put first among its inputs: a CMD word as the host write to R.CMD that carries it,
an HBUS word as itself (30_encoding.md R80). -/
def State.withFetchWord (s : State) (nbits w : Nat) : State :=
  s.withInputs (transactionInput nbits w :: s.inputs)

end Sys2Proof.Machine
end

