-- ==== Sys2Proof/Safety.lean ====
section
/-! DEFINITION. What a safe run is, and the predicates the statements are written in: whose turn it is, what the buffers
hold, what the retained tree and tables satisfy (10_state.md R46, 43_host_access.md R181). -/

namespace Sys2Proof.Machine

/-! ### Runs -/

/-- The end of a host program's run: BUSY = 0, and "the host has no further transaction to issue" (R219 of
70_reset_and_hazards.md). Turns of the engine and reset edges may be left: they are not the host's, and a transaction
presented at a reset edge is ignored (R205). -/
def RunOver (s : State) : Prop := s.busy = false ∧ ∀ w, .transaction w ∉ s.inputs

/-- A run of `k` steps that reads no unwritten buffer cell: it answers a state (70_reset_and_hazards.md R207). -/
def SafeRun (k : Nat) (s : State) : Prop := ∃ t, Sys2Proof.core.run k s = .next t

/-- The next step is the engine's: it is given its turn, or nothing else is left to happen (log entry 1). -/
def EngineTurn (s : State) : Prop := s.inputs = [] ∨ ∃ rest, s.inputs = .engine :: rest

/-- The next step is a reset edge. -/
def ResetTurn (s : State) : Prop := ∃ p rest, s.inputs = .resetEdge p :: rest

/-- The next step completes an ENCODE. -/
def EncodeTurn (s : State) : Prop := EngineTurn s ∧ ∃ len, s.pend = some (.encode len)

/-- The next step completes a DECODE. -/
def DecodeTurn (s : State) : Prop := EngineTurn s ∧ ∃ bits, s.pend = some (.decode bits)

/-! ### What the buffers hold -/

/-- SYMBUF_IN begins with a text: `SYMIN[k]` is its element `k` (10_state.md R47). -/
def TextAt (m : Memory) (text : List Symbol) : Prop :=
  ∀ k, (h : k < text.length) → m.read (symInBase + k) = some text[k]

/-- BITBUF begins with a bit-string: `BIT[i]` is its element `i` (10_state.md R48). -/
def BitsAt (m : Memory) (bits : List Bool) : Prop :=
  ∀ i, (h : i < bits.length) → m.readBit i = some bits[i]

/-- SYMBUF_OUT begins with the symbols: `SYMOUT[k]` is element `k` (10_state.md R49). -/
def OutputAt (m : Memory) (out : List Symbol) : Prop :=
  ∀ k, (h : k < out.length) → m.read (symOutBase + k) = some out[k]

/-- Two memories agree on every byte outside `[base, base + n)`. -/
def SameOutside (m m' : Memory) (base n : Nat) : Prop :=
  ∀ a, a < base ∨ base + n ≤ a → m'.read a = m.read a

/-- How many bytes the words that hold `n` bytes fill: 4*ceil(n/4) (42_decode.md R157). -/
def wordBytes (n : Nat) : Nat := 4 * ((n + 3) / 4)

/-- How many bytes the BITBUF words that hold `n` bits fill: 4*ceil(n/32) (41_encode.md R136). -/
def bitWordBytes (n : Nat) : Nat := 4 * ((n + 31) / 32)

/-! ### The code table as the host reads it -/

/-- FREQ[s]. -/
def State.freqOf (s : State) (sym : Symbol) : Nat := (s.freq[sym.toNat]'(sym.isLt)).toNat

/-- CODE_LEN[s]. -/
def State.codeLenOf (s : State) (sym : Symbol) : Nat := (s.codeLen[sym.toNat]'(sym.isLt)).toNat

/-- The code of a symbol in the table: element `j` is bit `j` of CODE[s], for j < CODE_LEN[s] (10_state.md R44). -/
def State.codeBits (s : State) (sym : Symbol) : List Bool :=
  (List.range (s.codeLenOf sym)).map fun j => (s.code[sym.toNat]'(sym.isLt)).getLsbD j

/-- The bit-string of a text under the code table (41_encode.md R135). -/
def State.streamBits (s : State) (text : List Symbol) : List Bool := text.flatMap s.codeBits

/-- No code of a symbol in the table is a prefix of another's (41_encode.md R133). -/
def PrefixFree (s : State) : Prop :=
  ∀ a b : Symbol, a ≠ b → 0 < s.codeLenOf a → 0 < s.codeLenOf b → ¬ s.codeBits a <+: s.codeBits b

/-! ### Trees -/

/-- The bits lead from node `h` to node `g`, each from an internal node to its child (41_encode.md R130). -/
def Reaches (t : Tree) : Handle → List Bool → Handle → Prop
  | h, [], g => h = g
  | h, b :: bs, g => (t.node h).leaf = false ∧ Reaches t (t.child h b) bs g

/-- The bits are the path from `root` to a leaf that carries `sym` (41_encode.md R130). -/
def IsCode (t : Tree) (root : Handle) (bits : List Bool) (sym : Symbol) : Prop :=
  ∃ g, Reaches t root bits g ∧ (t.node g).leaf = true ∧ (t.node g).sym = sym

/-- Node `h` is an internal node below handle `n`, and `g` is a child of it. -/
def IsParent (t : Tree) (n : Nat) (h g : Handle) : Prop :=
  h.toNat < n ∧ (t.node h).leaf = false ∧ ((t.node h).left = g ∨ (t.node h).right = g)

/-- TREE[0..n-1] is a strict binary tree rooted at `root`, its nodes numbered after their children, and every other
record is zero (10_state.md R45, R46(a); 41_encode.md R126, R129). -/
structure StrictTree (t : Tree) (root : Handle) (n : Nat) : Prop where
  /-- The root is a node, and no node's child. -/
  root_node : root.toNat < n ∧ ∀ h, ¬ IsParent t n h root
  /-- An internal node has two distinct children, both made before it, and SYM = 0. -/
  internal : ∀ h : Handle, h.toNat < n → (t.node h).leaf = false →
    (t.node h).left.toNat < h.toNat ∧ (t.node h).right.toNat < h.toNat ∧ (t.node h).left ≠ (t.node h).right
      ∧ (t.node h).sym = 0
  /-- A leaf has no children. -/
  leaf : ∀ h : Handle, h.toNat < n → (t.node h).leaf = true → (t.node h).left = 0 ∧ (t.node h).right = 0
  /-- Every other node is the child of exactly one node. -/
  one_parent : ∀ g : Handle, g.toNat < n → g ≠ root →
    ∃ h, IsParent t n h g ∧ ∀ h', IsParent t n h' g → h' = h
  /-- Handles at or above the node count hold the zero record. -/
  unused : ∀ h : Handle, n ≤ h.toNat → t.node h = NodeRec.zero

/-- An internal node's FREQ is the sum of its children's (10_state.md R45). -/
def FreqSums (t : Tree) (n : Nat) : Prop :=
  ∀ h : Handle, h.toNat < n → (t.node h).leaf = false →
    (t.node h).freq.toNat = (t.node (t.node h).left).freq.toNat + (t.node (t.node h).right).freq.toNat

/-- The queue's key of a node, compared lexicographically: (freq, handle) (41_encode.md R124). -/
def KeyLess (t : Tree) (g h : Handle) : Prop :=
  (t.node g).freq.toNat < (t.node h).freq.toNat
    ∨ ((t.node g).freq = (t.node h).freq ∧ g.toNat < h.toNat)

/-- Node `g` is in the priority queue when node `h` is made: it was made before `h`, and no node made before `h` has it
as a child (41_encode.md R125). -/
def InQueue (t : Tree) (n : Nat) (h g : Handle) : Prop :=
  g.toNat < h.toNat ∧ ∀ k, k.toNat < h.toNat → ¬ IsParent t n k g

/-- Every internal node joins the two least members of the queue at its making, the least one LEFT (41_encode.md R124,
R125). -/
def LeastFirst (t : Tree) (n : Nat) : Prop :=
  ∀ h : Handle, h.toNat < n → (t.node h).leaf = false →
    InQueue t n h (t.node h).left ∧ InQueue t n h (t.node h).right
      ∧ KeyLess t (t.node h).left (t.node h).right
      ∧ ∀ g, InQueue t n h g → g ≠ (t.node h).left → g ≠ (t.node h).right → KeyLess t (t.node h).right g

/-! ### Commands at work -/

/-- ENCODE is pending with a text in SYMBUF_IN as long as it was accepted for, and its completion step answers `t`. -/
def EncodeCommits (s : State) (text : List Symbol) (t : State) : Prop :=
  s.pend = some (.encode (BitVec.ofNat 16 text.length)) ∧ 0 < text.length ∧ text.length ≤ 65535
    ∧ TextAt s.mem text ∧ complete s = .next t

/-- From `s` to `t` a DECODE has written the symbols `out`: OUT_LEN counts them, SYMBUF_OUT begins with them, zero bytes
fill the last word, and no other byte changed (42_decode.md R157, R158). -/
def Decoded (s t : State) (out : List Symbol) : Prop :=
  t.outLen.toNat = out.length ∧ OutputAt t.mem out
    ∧ (∀ k, out.length ≤ k → k < wordBytes out.length → t.mem.read (symOutBase + k) = some 0)
    ∧ SameOutside s.mem t.mem symOutBase (wordBytes out.length)

/-! ### The retained state -/

/-- The symbols in the frequency table. -/
def State.seen (s : State) : List Symbol := allSymbols.filter fun sym => decide (0 < s.freqOf sym)

/-- What the retained tree and tables satisfy after a non-empty ENCODE (10_state.md R46), and how the accessors agree
(43_host_access.md R181). -/
structure Retained (s : State) : Prop where
  /-- R46(a): a strict binary tree rooted at ROOT. -/
  tree : StrictTree s.tree s.root s.nodeCount.toNat
  /-- R46(a): its leaves carry exactly the symbols with FREQ > 0, each at one leaf. -/
  leaves : (∀ h : Handle, h.toNat < s.nodeCount.toNat → (s.tree.node h).leaf = true →
      0 < s.freqOf (s.tree.node h).sym)
    ∧ ∀ sym : Symbol, 0 < s.freqOf sym →
      ∃ h : Handle, (h.toNat < s.nodeCount.toNat ∧ (s.tree.node h).leaf = true ∧ (s.tree.node h).sym = sym)
        ∧ ∀ h' : Handle, h'.toNat < s.nodeCount.toNat → (s.tree.node h').leaf = true →
          (s.tree.node h').sym = sym → h' = h
  /-- R46(b): a leaf's FREQ field is its symbol's FREQ entry. -/
  leaf_freq : ∀ h : Handle, h.toNat < s.nodeCount.toNat → (s.tree.node h).leaf = true →
    (s.tree.node h).freq.toNat = s.freqOf (s.tree.node h).sym
  /-- R45: an internal node's FREQ is the sum of its children's. -/
  sums : FreqSums s.tree s.nodeCount.toNat
  /-- R46(c): the code of a leaf is its root-to-leaf path, or "0" for a root leaf. -/
  codes : ∀ h : Handle, h.toNat < s.nodeCount.toNat → (s.tree.node h).leaf = true →
    if h = s.root then s.codeBits (s.tree.node h).sym = [false]
    else Reaches s.tree s.root (s.codeBits (s.tree.node h).sym) h
  /-- R46(d): the codes are prefix-free. -/
  prefix_free : PrefixFree s
  /-- R181: CODE_LEN[s] > 0 iff FREQ[s] > 0. -/
  coded : ∀ sym : Symbol, 0 < s.codeLenOf sym ↔ 0 < s.freqOf sym
  /-- R44: bits at and above CODE_LEN[s] are 0. -/
  high_bits : ∀ (sym : Symbol) (j : Nat), s.codeLenOf sym ≤ j →
    (s.code[sym.toNat]'(sym.isLt)).getLsbD j = false
  /-- R181: NUM_SYMS is the count of non-zero FREQ words, and NODE_COUNT = 2*NUM_SYMS-1. -/
  counts : s.numSyms.toNat = s.seen.length ∧ s.nodeCount.toNat + 1 = 2 * s.numSyms.toNat
  /-- R181: ORIG_BITS = 8 * sum of FREQ[s]. -/
  orig : s.origBits.toNat = 8 * (allSymbols.map s.freqOf).sum

/-- The tables and the tree are empty: what a state with READY = 0 holds, since KEEP_TREE_ON_EMPTY = false
(41_encode.md R118, R119; 10_state.md R37, R38, R54). -/
structure Cleared (s : State) : Prop where
  tree : ∀ h : Handle, s.tree.node h = NodeRec.zero
  counts : s.numSyms = 0 ∧ s.nodeCount = 0 ∧ s.root = 0
  sizes : s.origBits = 0 ∧ s.compBits = 0 ∧ s.ratio = 0
  tables : ∀ sym : Symbol, s.freqOf sym = 0 ∧ s.codeLenOf sym = 0 ∧ s.code[sym.toNat]'(sym.isLt) = 0

/-- The invariant of the retained state: READY tells whether a tree is retained (10_state.md R26, R46). -/
def RetainedInv (s : State) : Prop := (s.ready = true → Retained s) ∧ (s.ready = false → Cleared s)

/-- The size statistics agree with the tables and with one another (41_encode.md R138, R139; 43_host_access.md R181). -/
structure SizeInv (s : State) : Prop where
  /-- R181: COMP_BITS is the sum of FREQ[s] * CODE_LEN[s]. -/
  comp : s.compBits.toNat = (allSymbols.map fun sym => s.freqOf sym * s.codeLenOf sym).sum
  /-- R139: COMP_BITS <= ORIG_BITS. -/
  bound : s.compBits.toNat ≤ s.origBits.toNat
  /-- R138: RATIO, rounded down; 0 when ORIG_BITS = 0. -/
  ratio : s.ratio.toNat = if s.origBits.toNat = 0 then 0 else s.compBits.toNat * 6553600 / s.origBits.toNat
  /-- R139: RATIO <= 6553600. -/
  ratio_le : s.ratio.toNat ≤ 6553600

/-! ### The invariant of control -/

/-- The pending command's length is the length register's, and in range (40_command.md R103, R104, R108). -/
def PendingInv (s : State) : Prop :=
  match s.pend with
  | none => True
  | some (.encode len) => s.inLen.toNat = len.toNat
  | some (.decode bits) => s.inBits.toNat = bits.toNat ∧ bits.toNat ≤ Config.bitbufBits

/-- The invariant of the control and error state and of the buffers' form. -/
structure ControlInv (s : State) : Prop where
  /-- The canonical form. -/
  mem : s.mem.wf
  /-- Every buffer word was written whole or not at all (20_memory.md R67; 41_encode.md R136; 42_decode.md R157). -/
  words : ∀ w k, k < 4 → (s.mem.read (4 * w + k)).isSome = (s.mem.read (4 * w)).isSome
  /-- ERR = 1 exactly when ERR_CODE is not NONE (10_state.md R27, R30). -/
  err : s.err = true ↔ s.errCode ≠ .none
  /-- While a command runs there is no error (40_command.md R109). -/
  running : s.busy = true → s.err = false ∧ s.errPos = 0
  /-- The command's length (40_command.md R108). -/
  pending : PendingInv s
  /-- The ranges of ERR_POS (10_state.md R40) and OUT_LEN (R39). -/
  ranges : s.errPos.toNat ≤ 524288 ∧ s.outLen.toNat ≤ 65536

end Sys2Proof.Machine
end

