-- ==== Sys2Proof/Certificates/Slice0/Obligations.lean ====
section
/-! DEFINITION. The statements for the provers. Each docstring names the rules of spec/ it formalises. -/

open Sys2Proof Sys2Proof.Machine

/-! ### Encodings -/

/-- The words of 30_encoding.md R84 and of the programs P1 and P5 (95_test_vectors.md), written out byte by byte, decode to
the operations they stand for. The order of the bytes is the model's own (log entry 10). -/
def Obligations.SpecWordsDecode : Prop :=
  decodeBytes .cmd [0x00, 0x00, 0x00, 0x00] = .ok (.nop, [])
    ∧ decodeBytes .cmd [0x01, 0x00, 0x00, 0x00] = .ok (.encode, [])
    ∧ decodeBytes .cmd [0x02, 0x00, 0x00, 0x00] = .ok (.decode, [])
    ∧ decodeBytes .cmd [0x00, 0x01, 0x00, 0x00] = .error .illegalCommand
    ∧ decodeBytes .hbus [0x61, 0x61, 0x61, 0x61, 0x00, 0x40, 0x01] = .ok (.busWr 0x4000 0x61616161, [])
    ∧ decodeBytes .hbus [0x01, 0x00, 0x01, 0x00, 0x03, 0x00, 0x01] = .ok (.busWr 0x0003 0x00010001, [])
    ∧ decodeBytes .hbus [0x00, 0x00, 0x00, 0x00, 0xFF, 0xFF, 0x00] = .ok (.busRd 0xFFFF 0x00000000, [])

/-- Decode and encode agree: the bytes of every operation, with every operand at every value, decode to it, whatever
bytes follow (30_encoding.md R80-R88). -/
def Obligations.EveryOperationRoundTrips : Prop :=
  ∀ (i : Instr) (rest : List Byte), decodeBytes i.format (encodeBytes i ++ rest) = .ok (i, rest)

/-- R101: DecodeCmd is an exact match on the 32-bit word. -/
def Obligations.CommandWordsDecodeByExactMatch : Prop :=
  ∀ v : Word,
    (decodeCmd v = some .nop ↔ v = 0x00000000#32) ∧ (decodeCmd v = some .encode ↔ v = 0x00000001#32)
      ∧ (decodeCmd v = some .decode ↔ v = 0x00000002#32)
      ∧ (decodeCmd v = none ↔ v ≠ 0x00000000#32 ∧ v ≠ 0x00000001#32 ∧ v ≠ 0x00000002#32)

/-- R85: an HBUS word is decoded on bit 48 alone, its WADDR is bits [47:32] and its WDATA bits [31:0] (R82); and every
HBUS word is the encoding of what it decodes to, so no bit is lost. -/
def Obligations.HbusWordsDecodeOnBit48 : Prop :=
  ∀ w : HbusWord,
    decodeHbus w =
        (if w.getLsbD 48 then .busWr (BitVec.ofNat 16 (w.toNat / 2 ^ 32)) (BitVec.ofNat 32 w.toNat)
        else .busRd (BitVec.ofNat 16 (w.toNat / 2 ^ 32)) (BitVec.ofNat 32 w.toNat))
      ∧ encode (decodeHbus w) = .hbus w

/-- The decoder of bytes is total and refuses by name: too few bytes, an illegal CMD word, a bit above bit 48; and it
reads exactly the word's own bytes (30_encoding.md R86-R88; the bytes are the model's own, log entry 10). -/
def Obligations.ByteDecoderRefusesByName : Prop :=
  (∀ (f : Format) (bs : List Byte), bs.length < f.byteLength → decodeBytes f bs = .error .tooShort)
    ∧ (∀ (v : Word) (rest : List Byte), v ≠ 0x00000000#32 → v ≠ 0x00000001#32 → v ≠ 0x00000002#32 →
        decodeBytes .cmd (bytesOfNat 4 v.toNat ++ rest) = .error .illegalCommand)
    ∧ (∀ (w : HbusWord) (rest : List Byte),
        decodeBytes .hbus (bytesOfNat 7 w.toNat ++ rest) = .ok (decodeHbus w, rest))
    ∧ (∀ (v : Nat) (rest : List Byte), 2 ^ 49 ≤ v → v < 2 ^ 56 →
        decodeBytes .hbus (bytesOfNat 7 v ++ rest) = .error .bitsAboveHbus)

/-! ### Steps -/

/-- A step runs the decoded transaction: with a transaction first among the inputs, the step is `exec` of what its word
decodes to, the input being used up; and for every operation, with the transaction that performs it first, the step is
`exec` of that operation (30_encoding.md R80; the inputs are the model's own, log entries 1 and 2). -/
def Obligations.StepRunsTheDecodedTransaction : Prop :=
  ∀ (s : State) (rest : List Input),
    (∀ w, s.inputs = .transaction w :: rest → step s = exec (decodeHbus w) { s with inputs := rest })
      ∧ ∀ i : Instr, s.inputs = .transaction i.transaction :: rest → step s = exec i { s with inputs := rest }

/-- A step gives the engine its turn: where the inputs say so, and where nothing else is left; without a pending command
the turn changes nothing but the inputs (40_command.md R105; the inputs are the model's own, log entries 1 and 12). -/
def Obligations.StepGivesTheEngineItsTurn : Prop :=
  ∀ s : State,
    (s.inputs = [] → step s = complete s)
      ∧ (∀ rest, s.inputs = .engine :: rest → step s = complete { s with inputs := rest })
      ∧ (s.busy = false → complete s = .next s)

/-- The whole of command issue, R100 with the order of R194: a write of `v` to CMD, for every `v` and every state; and
no other transaction issues a command, since PEND stays. -/
def Obligations.CommandIssueFollowsTheCheckOrder : Prop :=
  ∀ (s : State) (v : Word),
    (∀ (w : WordAddr) (t : State), w ≠ 0x0000 →
        exec (.busWr w v) s = .next t ∨ exec (.busRd w v) s = .next t → t.pend = s.pend)
    ∧ (∀ t, exec (.busRd 0x0000 v) s = .next t → t.pend = s.pend)
    ∧ exec (.busWr 0x0000 v) s =
      if s.busy = true then .next { s with drop := true }
      else if v = 0x00000000#32 then .next s
      else if v = 0x00000001#32 then
        if 65535 < s.inLen.toNat then .next { s with err := true, errCode := .lenRange }
        else .next { s with
          pend := some (.encode (BitVec.ofNat 16 s.inLen.toNat)), err := false, errCode := .none, errPos := 0,
          drop := false }
      else if v = 0x00000002#32 then
        if 524288 < s.inBits.toNat then .next { s with err := true, errCode := .bitsRange }
        else .next { s with
          pend := some (.decode (BitVec.ofNat 20 s.inBits.toNat)), err := false, errCode := .none, errPos := 0,
          drop := false }
      else .next { s with err := true, errCode := .badCmd }

/-! ### The CMD family -/

/-- R102: NOP changes no state; written while BUSY = 1 it is a dropped write; the word 0x00000100 is no NOP. -/
def Obligations.NopChangesNothing : Prop :=
  ∀ s : State,
    (s.busy = false → exec .nop s = .next s)
      ∧ (s.busy = true → exec .nop s = .next { s with drop := true })
      ∧ (s.busy = false → exec (.busWr 0x0000 0x00000100) s = .next { s with err := true, errCode := .badCmd })

/-- R106: every host write while BUSY = 1 is dropped: DROP is set, and nothing else changes, whichever address and
value, and whichever command; ERR, ERR_CODE and ERR_POS stay (R187). -/
def Obligations.WritesWhileBusyAreDropped : Prop :=
  ∀ s : State, s.busy = true →
    (∀ w v, exec (.busWr w v) s = .next { s with drop := true })
      ∧ exec .nop s = .next { s with drop := true }
      ∧ exec .encode s = .next { s with drop := true }
      ∧ exec .decode s = .next { s with drop := true }

/-- R104: acceptance: BUSY and PEND with the length taken from the register, ERR, ERR_CODE, ERR_POS and DROP cleared,
everything else unchanged. -/
def Obligations.CommandsAreAccepted : Prop :=
  ∀ s : State, s.busy = false →
    (s.inLen.toNat ≤ 65535 → ∃ len : BitVec 16, len.toNat = s.inLen.toNat ∧
        exec .encode s = .next { s with
          pend := some (.encode len), err := false, errCode := .none, errPos := 0, drop := false })
      ∧ (s.inBits.toNat ≤ 524288 → ∃ bits : BitVec 20, bits.toNat = s.inBits.toNat ∧
        exec .decode s = .next { s with
          pend := some (.decode bits), err := false, errCode := .none, errPos := 0, drop := false })

/-- R103, R188: a rejection writes ERR and ERR_CODE and nothing else, for its three causes. -/
def Obligations.CommandsAreRejectedPrecisely : Prop :=
  ∀ s : State, s.busy = false →
    (∀ v : Word, v ≠ 0x00000000#32 → v ≠ 0x00000001#32 → v ≠ 0x00000002#32 →
        exec (.busWr 0x0000 v) s = .next { s with err := true, errCode := .badCmd })
      ∧ (65535 < s.inLen.toNat → exec .encode s = .next { s with err := true, errCode := .lenRange })
      ∧ (524288 < s.inBits.toNat → exec .decode s = .next { s with err := true, errCode := .bitsRange })

/-! ### The HBUS family: writes -/

/-- R167: a write to IN_LEN or IN_BITS stores all 32 bits, and a later read returns them; a command that passes its
range check uses the whole value. -/
def Obligations.LengthRegistersHoldAllBits : Prop :=
  ∀ (s : State) (v d : Word), s.busy = false →
    exec (.busWr 0x0002 v) s = .next { s with inLen := v }
      ∧ exec (.busRd 0x0002 d) { s with inLen := v } = .next { s with inLen := v, rdata := v }
      ∧ exec (.busWr 0x0003 v) s = .next { s with inBits := v }
      ∧ exec (.busRd 0x0003 d) { s with inBits := v } = .next { s with inBits := v, rdata := v }
      ∧ (∀ t len, exec .encode s = .next t → t.pend = some (.encode len) → len.toNat = s.inLen.toNat)
      ∧ (∀ t bits, exec .decode s = .next t → t.pend = some (.decode bits) → bits.toNat = s.inBits.toNat)

/-- R176 with R62: a write to SYMBUF_IN stores the word's four bytes, the least significant at the lowest index, and
changes nothing else; a read of a written word returns its bytes in that order. -/
def Obligations.SymbolInputBufferIsReadWrite : Prop :=
  ∀ (s : State) (w : WordAddr) (v d : Word), s.busy = false → 0x4000 ≤ w.toNat → w.toNat < 0x8000 →
    (∃ m, exec (.busWr w v) s = .next { s with mem := m }
        ∧ (∀ k, k < 4 → m.read (symInBase + (4 * (w.toNat - 0x4000) + k)) = some (v.extractLsb' (8 * k) 8))
        ∧ SameOutside s.mem m (symInBase + 4 * (w.toNat - 0x4000)) 4)
      ∧ (∀ bs : List Byte, (h : bs.length = 4) →
          (∀ k, (hk : k < 4) → s.mem.read (symInBase + (4 * (w.toNat - 0x4000) + k)) = some bs[k]) →
          ∃ r : Word, exec (.busRd w d) s = .next { s with rdata := r }
            ∧ ∀ k, (hk : k < 4) → r.extractLsb' (8 * k) 8 = bs[k])

/-- R177 with R63: a write to BITBUF stores the word's 32 bits, bit 0 at the lowest index, and changes no other bit; a
read of a written word returns its bits in that order. -/
def Obligations.BitBufferIsReadWrite : Prop :=
  ∀ (s : State) (w : WordAddr) (v d : Word), s.busy = false → 0x8000 ≤ w.toNat → w.toNat < 0xC000 →
    (∃ m, exec (.busWr w v) s = .next { s with mem := m }
        ∧ (∀ j, j < 32 → m.readBit (32 * (w.toNat - 0x8000) + j) = some (v.getLsbD j))
        ∧ SameOutside s.mem m (bitBase + 4 * (w.toNat - 0x8000)) 4)
      ∧ (∀ bits : List Bool, (h : bits.length = 32) →
          (∀ j, (hj : j < 32) → s.mem.readBit (32 * (w.toNat - 0x8000) + j) = some bits[j]) →
          ∃ r : Word, exec (.busRd w d) s = .next { s with rdata := r }
            ∧ ∀ j, (hj : j < 32) → r.getLsbD j = bits[j])

/-- R178: SYMBUF_OUT reads in the layout of R62, and host writes to it are ignored. -/
def Obligations.SymbolOutputBufferIsReadOnly : Prop :=
  ∀ (s : State) (w : WordAddr) (v d : Word), s.busy = false → 0xC000 ≤ w.toNat →
    exec (.busWr w v) s = .next s
      ∧ (∀ bs : List Byte, (h : bs.length = 4) →
          (∀ k, (hk : k < 4) → s.mem.read (symOutBase + (4 * (w.toNat - 0xC000) + k)) = some bs[k]) →
          ∃ r : Word, exec (.busRd w d) s = .next { s with rdata := r }
            ∧ ∀ k, (hk : k < 4) → r.extractLsb' (8 * k) 8 = bs[k])

/-- R180: a write to a read-only register, table or buffer, or to a reserved or unmapped address, is ignored while
BUSY = 0. -/
def Obligations.ReadOnlyAndUnmappedWritesAreIgnored : Prop :=
  ∀ (s : State) (w : WordAddr) (v : Word), s.busy = false →
    w.toNat = 0x0001 ∨ (0x0004 ≤ w.toNat ∧ w.toNat < 0x4000) ∨ 0xC000 ≤ w.toNat → exec (.busWr w v) s = .next s

/-! ### The HBUS family: reads -/

/-- R23, R24, R25, R29: while BUSY = 0 each register reads as its field, zero-extended; CMD reads 0; STATUS reads
READY, ERR, DROP and ERR_CODE at bits 1, 2, 3 and [11:8], and 0 elsewhere. -/
def Obligations.RegistersReadBackWhileIdle : Prop :=
  ∀ (s : State) (d : Word), s.busy = false →
    exec (.busRd 0x0000 d) s = .next { s with rdata := 0 }
      ∧ exec (.busRd 0x0001 d) s = .next { s with
          rdata := BitVec.ofNat 32
            (2 * s.ready.toNat + 4 * s.err.toNat + 8 * s.drop.toNat + 256 * s.errCode.bits.toNat) }
      ∧ exec (.busRd 0x0002 d) s = .next { s with rdata := s.inLen }
      ∧ exec (.busRd 0x0003 d) s = .next { s with rdata := s.inBits }
      ∧ exec (.busRd 0x0004 d) s = .next { s with rdata := BitVec.ofNat 32 s.origBits.toNat }
      ∧ exec (.busRd 0x0005 d) s = .next { s with rdata := BitVec.ofNat 32 s.compBits.toNat }
      ∧ exec (.busRd 0x0006 d) s = .next { s with rdata := BitVec.ofNat 32 s.ratio.toNat }
      ∧ exec (.busRd 0x0007 d) s = .next { s with rdata := BitVec.ofNat 32 s.numSyms.toNat }
      ∧ exec (.busRd 0x0008 d) s = .next { s with rdata := BitVec.ofNat 32 s.nodeCount.toNat }
      ∧ exec (.busRd 0x0009 d) s = .next { s with rdata := BitVec.ofNat 32 s.root.toNat }
      ∧ exec (.busRd 0x000A d) s = .next { s with rdata := BitVec.ofNat 32 s.outLen.toNat }
      ∧ exec (.busRd 0x000B d) s = .next { s with rdata := BitVec.ofNat 32 s.errPos.toNat }

/-- R185 with R25: what each error code reads as in STATUS[11:8]. -/
def Obligations.ErrorCodesReadAsNumbered : Prop :=
  ∀ (s : State) (d : Word), s.busy = false →
    ∃ t, exec (.busRd 0x0001 d) s = .next t ∧
      (t.rdata.toNat / 256) % 16 =
        match s.errCode with
        | .none => 0
        | .badCmd => 1
        | .lenRange => 2
        | .bitsRange => 3
        | .decAbsentChild => 4
        | .decPartial => 5
        | .decOverflow => 6

/-- R29 with R25: a read of STATUS while BUSY = 1 shows the flags exactly and, as PHASE, one of 1, 2, 3, 4 with a pending
ENCODE and 5 with a pending DECODE; it changes nothing but the model's own fields. It holds for every value of the
drawn phase. -/
def Obligations.StatusReadsExactlyWhileBusy : Prop :=
  ∀ (s : State) (d : Word), s.busy = true →
    ∃ (t : State) (p : Nat), exec (.busRd 0x0001 d) s = .next t
      ∧ t = { s with rdata := t.rdata, draws := t.draws }
      ∧ t.rdata.toNat =
          1 + 2 * s.ready.toNat + 4 * s.err.toNat + 8 * s.drop.toNat + 16 * p + 256 * s.errCode.bits.toNat
      ∧ ((∃ len, s.pend = some (.encode len)) → 1 ≤ p ∧ p ≤ 4)
      ∧ ((∃ bits, s.pend = some (.decode bits)) → p = 5)

/-- R168: while BUSY = 1 a read of CMD, IN_LEN or IN_BITS is exact, and a read of any address but those and STATUS
answers with some value; none changes anything but the model's own fields. Nothing is said of the drawn value, which
is free. -/
def Obligations.ReadsWhileBusyAnswer : Prop :=
  ∀ (s : State) (d : Word), s.busy = true →
    (∃ t, exec (.busRd 0x0000 d) s = .next t ∧ t = { s with rdata := 0, draws := t.draws })
      ∧ (∃ t, exec (.busRd 0x0002 d) s = .next t ∧ t = { s with rdata := s.inLen, draws := t.draws })
      ∧ (∃ t, exec (.busRd 0x0003 d) s = .next t ∧ t = { s with rdata := s.inBits, draws := t.draws })
      ∧ ∀ w : WordAddr, 4 ≤ w.toNat →
          ∃ t, exec (.busRd w d) s = .next t ∧ t = { s with rdata := t.rdata, draws := t.draws }

/-- R172-R175: the table views while BUSY = 0. -/
def Obligations.TablesReadBackWhileIdle : Prop :=
  ∀ (s : State) (d : Word), s.busy = false →
    (∀ sym : Symbol, exec (.busRd (BitVec.ofNat 16 (0x0400 + sym.toNat)) d) s =
        .next { s with rdata := BitVec.ofNat 32 (s.freqOf sym) })
      ∧ (∀ sym : Symbol, exec (.busRd (BitVec.ofNat 16 (0x0500 + sym.toNat)) d) s =
        .next { s with rdata := BitVec.ofNat 32 (s.codeLenOf sym) })
      ∧ (∀ (sym : Symbol) (k : Nat), k < 8 →
        ∃ r : Word, exec (.busRd (BitVec.ofNat 16 (0x0800 + 8 * sym.toNat + k)) d) s = .next { s with rdata := r }
          ∧ ∀ j, j < 32 → r.getLsbD j = (s.code[sym.toNat]'(sym.isLt)).getLsbD (32 * k + j))
      ∧ ∀ h : Handle,
        exec (.busRd (BitVec.ofNat 16 (0x1000 + 2 * h.toNat)) d) s = .next { s with
            rdata := BitVec.ofNat 32 (2 ^ 31 * (s.tree.node h).leaf.toNat + 2 ^ 16 * (s.tree.node h).sym.toNat
              + (s.tree.node h).freq.toNat) }
          ∧ exec (.busRd (BitVec.ofNat 16 (0x1000 + 2 * h.toNat + 1)) d) s = .next { s with
            rdata := BitVec.ofNat 32 (2 ^ 16 * (s.tree.node h).right.toNat + (s.tree.node h).left.toNat) }

/-- R169: a read of a reserved register address or an unmapped address returns 0 while BUSY = 0; while BUSY = 1 it
answers with some value, as R168 says. -/
def Obligations.UnmappedReadsReturnZero : Prop :=
  ∀ (s : State) (w : WordAddr) (d : Word),
    (0x000C ≤ w.toNat ∧ w.toNat < 0x0400) ∨ (0x0600 ≤ w.toNat ∧ w.toNat < 0x0800)
      ∨ (0x1400 ≤ w.toNat ∧ w.toNat < 0x4000) →
    (s.busy = false → exec (.busRd w d) s = .next { s with rdata := 0 })
      ∧ (s.busy = true → ∃ t, exec (.busRd w d) s = .next t ∧ t = { s with rdata := t.rdata, draws := t.draws })

/-- R179: a BUS_RD changes no state (the model's own `rdata` and count of draws apart, log entries 3 and 4), and while
BUSY = 0 the same read again returns the same value. -/
def Obligations.ReadsChangeNoState : Prop :=
  ∀ (s t : State) (w : WordAddr) (d : Word), exec (.busRd w d) s = .next t →
    t = { s with rdata := t.rdata, draws := t.draws }
      ∧ (s.busy = false → t.draws = s.draws ∧ ∀ d', exec (.busRd w d') t = .next t)

/-! ### ENCODE -/

/-- ENCODE from issue to result (R104, R115, R140): an idle HCB whose IN_LEN is the length of a text, 1 to 65535, that
stands in SYMBUF_IN accepts ENCODE, and the completion step then answers; READY is set, the errors and DROP are
clear, ORIG_BITS is 8 bits a symbol, FREQ counts the text, and nothing is changed but the tables, the statistics and
the BITBUF words of the bit-string. -/
def Obligations.EncodeRunsToItsResult : Prop :=
  ∀ (s : State) (text : List Symbol), s.busy = false → text.length = s.inLen.toNat → 0 < text.length →
    text.length ≤ 65535 → TextAt s.mem text →
    ∃ u t, exec .encode s = .next u
      ∧ u = { s with
          pend := some (.encode (BitVec.ofNat 16 text.length)), err := false, errCode := .none, errPos := 0,
          drop := false }
      ∧ complete u = .next t
      ∧ t = { u with
          pend := none, ready := true, origBits := t.origBits, compBits := t.compBits, ratio := t.ratio,
          numSyms := t.numSyms, nodeCount := t.nodeCount, root := t.root, freq := t.freq, codeLen := t.codeLen,
          code := t.code, tree := t.tree, mem := t.mem }
      ∧ t.origBits.toNat = 8 * text.length
      ∧ (∀ sym, t.freqOf sym = text.count sym)
      ∧ SameOutside s.mem t.mem bitBase (bitWordBytes (t.streamBits text).length)

/-- R120, R121: FREQ[s] is the number of positions of the text that hold `s`, with no saturation or wrap, and the counts
add up to L. -/
def Obligations.EncodeCountsTheText : Prop :=
  ∀ (s t : State) (text : List Symbol), EncodeCommits s text t →
    (∀ sym, t.freqOf sym = text.count sym) ∧ (allSymbols.map t.freqOf).sum = text.length

/-- R122, R123: with S the ascending list of the symbols with FREQ > 0 and N its length (1 to 256), NUM_SYMS = N,
handles 0..N-1 are the leaves of S in order, the internal nodes come after them, and every record at or above
NODE_COUNT is the zero record. -/
def Obligations.EncodeNumbersLeavesBySymbol : Prop :=
  ∀ (s t : State) (text : List Symbol), EncodeCommits s text t →
    t.seen.length = t.numSyms.toNat ∧ 1 ≤ t.seen.length ∧ t.seen.length ≤ 256
      ∧ t.seen.Pairwise (fun a b => a.toNat < b.toNat)
      ∧ (∀ k, (h : k < t.seen.length) →
          t.tree.node (BitVec.ofNat 9 k) = ⟨true, t.seen[k], BitVec.ofNat 16 (text.count t.seen[k]), 0, 0⟩)
      ∧ (∀ h : Handle, t.seen.length ≤ h.toNat → (t.tree.node h).leaf = false)
      ∧ (∀ h : Handle, t.nodeCount.toNat ≤ h.toNat → t.tree.node h = NodeRec.zero)

/-- R124, R125 with R128: every internal node joins the two least members of the queue as it stood at the node's making, by
the key (freq, handle), the first removed LEFT and the second RIGHT; its frequency is the sum of theirs, without
wrap; and the root's frequency is L. -/
def Obligations.EncodeMergesLeastFirst : Prop :=
  ∀ (s t : State) (text : List Symbol), EncodeCommits s text t →
    LeastFirst t.tree t.nodeCount.toNat ∧ FreqSums t.tree t.nodeCount.toNat
      ∧ (t.tree.node t.root).freq.toNat = text.length

/-- R126, R127, R129: the tree is a strict binary tree over NODE_COUNT = 2N-1 nodes, rooted at 2N-2, which is the one
leaf's handle 0 when N = 1; its leaves are handles 0..N-1, and carry the symbols of the text, each at one leaf. -/
def Obligations.EncodeBuildsAStrictBinaryTree : Prop :=
  ∀ (s t : State) (text : List Symbol), EncodeCommits s text t →
    StrictTree t.tree t.root t.nodeCount.toNat
      ∧ t.nodeCount.toNat + 1 = 2 * t.numSyms.toNat ∧ t.nodeCount.toNat ≤ 511
      ∧ t.root.toNat + 2 = 2 * t.numSyms.toNat
      ∧ (∀ h : Handle, h.toNat < t.nodeCount.toNat →
          ((t.tree.node h).leaf = true ↔ h.toNat < t.numSyms.toNat)
            ∧ ((t.tree.node h).leaf = true → (t.tree.node h).sym ∈ text))
      ∧ ∀ sym ∈ text, ∃ h : Handle,
          (h.toNat < t.nodeCount.toNat ∧ (t.tree.node h).leaf = true ∧ (t.tree.node h).sym = sym)
            ∧ ∀ h' : Handle, (t.tree.node h').leaf = true → (t.tree.node h').sym = sym → h' = h

/-- R130, R131, R132, R134: a symbol of the text has as its code the path from the root to its leaf, or "0" when it is the only
one; the length is 1 to 255; bits at and above the length are 0; any other symbol has length 0 and code 0. -/
def Obligations.EncodeCodesAreTreePaths : Prop :=
  ∀ (s t : State) (text : List Symbol), EncodeCommits s text t →
    ∀ sym : Symbol,
      (sym ∈ text → 1 ≤ t.codeLenOf sym ∧ t.codeLenOf sym ≤ 255
          ∧ (t.numSyms.toNat = 1 → t.codeBits sym = [false])
          ∧ (2 ≤ t.numSyms.toNat → IsCode t.tree t.root (t.codeBits sym) sym))
        ∧ (sym ∉ text → t.codeLenOf sym = 0 ∧ t.code[sym.toNat]'(sym.isLt) = 0)
        ∧ ∀ j, t.codeLenOf sym ≤ j → (t.code[sym.toNat]'(sym.isLt)).getLsbD j = false

/-- R133: the codes are prefix-free. -/
def Obligations.EncodeCodesArePrefixFree : Prop :=
  ∀ (s t : State) (text : List Symbol), EncodeCommits s text t → PrefixFree t

/-- R135, R136: BITBUF begins with the text's codes in order, zero bits fill the last word, and no other byte of the
buffers changes. -/
def Obligations.EncodePacksTheBitString : Prop :=
  ∀ (s t : State) (text : List Symbol), EncodeCommits s text t →
    BitsAt t.mem (t.streamBits text)
      ∧ (∀ i, (t.streamBits text).length ≤ i → i < 8 * bitWordBytes (t.streamBits text).length →
          t.mem.readBit i = some false)
      ∧ SameOutside s.mem t.mem bitBase (bitWordBytes (t.streamBits text).length)

/-- R137, R138: ORIG_BITS, COMP_BITS and RATIO of a non-empty text, and of the empty one. -/
def Obligations.EncodeAccountsForSizes : Prop :=
  ∀ s t : State,
    (∀ text : List Symbol, EncodeCommits s text t →
      t.origBits.toNat = 8 * text.length ∧ t.compBits.toNat = (t.streamBits text).length
        ∧ t.ratio.toNat = t.compBits.toNat * 100 * 65536 / t.origBits.toNat)
      ∧ (s.pend = some (.encode 0) → complete s = .next t → t.origBits = 0 ∧ t.compBits = 0 ∧ t.ratio = 0)

/-- R118 with R119: an empty ENCODE completes with the tables, the counters and, as KEEP_TREE_ON_EMPTY = false, the tree
cleared, and READY = 0; no buffer byte is read or written; with the parameter true the tree, NODE_COUNT, ROOT and
READY would stay. -/
def Obligations.EmptyEncodeClears : Prop :=
  ∀ s : State,
    (s.pend = some (.encode 0) → ∃ t, complete s = .next t
        ∧ t = { s with
            pend := none, ready := false, origBits := 0, compBits := 0, ratio := 0, numSyms := 0, nodeCount := 0,
            root := 0, freq := t.freq, codeLen := t.codeLen, code := t.code, tree := t.tree }
        ∧ Cleared t)
      ∧ ∃ t, encodeCommit true 0 s = .ok t
        ∧ t = { s with
            origBits := 0, compBits := 0, ratio := 0, numSyms := 0, freq := t.freq, codeLen := t.codeLen,
            code := t.code }
        ∧ ∀ sym : Symbol, t.freqOf sym = 0 ∧ t.codeLenOf sym = 0 ∧ t.code[sym.toNat]'(sym.isLt) = 0

/-- R117, R140: what ENCODE leaves in the tables, the statistics and the bit-string's words depends on the text alone: not
on the bytes beyond it, nor on anything retained before. -/
def Obligations.EncodeDependsOnTheTextAlone : Prop :=
  ∀ (s₁ s₂ t₁ t₂ : State) (text : List Symbol), EncodeCommits s₁ text t₁ → EncodeCommits s₂ text t₂ →
    t₁.ready = t₂.ready ∧ t₁.origBits = t₂.origBits ∧ t₁.compBits = t₂.compBits ∧ t₁.ratio = t₂.ratio
      ∧ t₁.numSyms = t₂.numSyms ∧ t₁.nodeCount = t₂.nodeCount ∧ t₁.root = t₂.root ∧ t₁.freq = t₂.freq
      ∧ t₁.codeLen = t₂.codeLen ∧ t₁.code = t₂.code ∧ t₁.tree = t₂.tree
      ∧ ∀ a, bitBase ≤ a → a < bitBase + bitWordBytes (t₁.streamBits text).length →
          t₁.mem.read a = t₂.mem.read a

/-! ### DECODE -/

/-- R147: with no tree retained, or no bits, DECODE is accepted and completes with OUT_LEN = 0 and writes nothing else;
there is no error. -/
def Obligations.DecodeOfNothingIsEmpty : Prop :=
  ∀ (s : State) (bits : BitVec 20), s.pend = some (.decode bits) → s.ready = false ∨ bits = 0 →
    complete s = .next { s with pend := none, outLen := 0 }

/-- R150, R151, R155, R157: DECODE, from issue to result, over the codes of symbols followed by a path that ends at an
internal node: the symbols are written in order with their pad; a path that leaves the walker away from the root is
DEC_PARTIAL at B, and one that does not is no fault. -/
def Obligations.DecodeFollowsTheTree : Prop :=
  ∀ (s : State) (codes : List (List Bool)) (syms : List Symbol) (tail : List Bool) (g : Handle),
    s.busy = false → s.ready = true → (s.tree.node s.root).leaf = false →
    List.Forall₂ (IsCode s.tree s.root) codes syms → Reaches s.tree s.root tail g →
    (s.tree.node g).leaf = false → syms.length ≤ 65536 → (codes.flatten ++ tail).length = s.inBits.toNat →
    s.inBits.toNat ≤ 524288 → BitsAt s.mem (codes.flatten ++ tail) →
    ∃ u t, exec .decode s = .next u ∧ complete u = .next t ∧ Decoded s t syms
      ∧ t = { s with
          err := decide (g ≠ s.root), errCode := if g = s.root then .none else .decPartial,
          errPos := if g = s.root then 0 else BitVec.ofNat 20 s.inBits.toNat, drop := false,
          outLen := t.outLen, mem := t.mem }

/-- R152, R153, R156: DECODE, from issue to result, at a root that is a leaf: each bit 0 writes the root's symbol; the first bit
1, at index i, is DEC_ABSENT_CHILD at i, and no bit after it is read. -/
def Obligations.DecodeAtALeafRoot : Prop :=
  ∀ (s : State) (n : Nat), s.busy = false → s.ready = true → (s.tree.node s.root).leaf = true →
    s.inBits.toNat ≤ 524288 → n ≤ 65536 →
    (s.inBits.toNat = n → BitsAt s.mem (List.replicate n false) →
      ∃ u t, exec .decode s = .next u ∧ complete u = .next t
        ∧ Decoded s t (List.replicate n (s.tree.node s.root).sym)
        ∧ t = { s with
            err := false, errCode := .none, errPos := 0, drop := false, outLen := t.outLen, mem := t.mem })
      ∧ (n < s.inBits.toNat → BitsAt s.mem (List.replicate n false ++ [true]) →
        ∃ u t, exec .decode s = .next u ∧ complete u = .next t
          ∧ Decoded s t (List.replicate n (s.tree.node s.root).sym)
          ∧ t = { s with
              err := true, errCode := .decAbsentChild, errPos := BitVec.ofNat 20 n, drop := false,
              outLen := t.outLen, mem := t.mem })

/-- R154: a 65537th symbol does not fit: DEC_OVERFLOW at the index of the bit that completed it, with OUT_LEN = 65536,
at an internal root and at a leaf root. -/
def Obligations.DecodeOverflowsAtItsCapacity : Prop :=
  ∀ s : State, s.busy = false → s.ready = true → s.inBits.toNat ≤ 524288 →
    (∀ (codes : List (List Bool)) (syms : List Symbol), (s.tree.node s.root).leaf = false →
        List.Forall₂ (IsCode s.tree s.root) codes syms → syms.length = 65537 →
        codes.flatten.length ≤ s.inBits.toNat → BitsAt s.mem codes.flatten →
        ∃ u t, exec .decode s = .next u ∧ complete u = .next t ∧ Decoded s t (syms.take 65536)
          ∧ t = { s with
              err := true, errCode := .decOverflow, errPos := BitVec.ofNat 20 (codes.flatten.length - 1),
              drop := false, outLen := t.outLen, mem := t.mem })
      ∧ ((s.tree.node s.root).leaf = true → 65537 ≤ s.inBits.toNat → BitsAt s.mem (List.replicate 65537 false) →
        ∃ u t, exec .decode s = .next u ∧ complete u = .next t
          ∧ Decoded s t (List.replicate 65536 (s.tree.node s.root).sym)
          ∧ t = { s with
              err := true, errCode := .decOverflow, errPos := 65536, drop := false, outLen := t.outLen,
              mem := t.mem })

/-- R157, R158: DECODE changes only OUT_LEN, the SYMBUF_OUT words it fills and, on a fault, ERR, ERR_CODE and ERR_POS;
zero bytes fill the last word, on a clean end and on a fault alike. -/
def Obligations.DecodeTouchesOnlyItsOutput : Prop :=
  ∀ (s t : State) (bits : BitVec 20), s.pend = some (.decode bits) → complete s = .next t →
    t = { s with
        pend := none, err := t.err, errCode := t.errCode, errPos := t.errPos, outLen := t.outLen, mem := t.mem }
      ∧ SameOutside s.mem t.mem symOutBase (wordBytes t.outLen.toNat)
      ∧ (∀ k, t.outLen.toNat ≤ k → k < wordBytes t.outLen.toNat → t.mem.read (symOutBase + k) = some 0)
      ∧ ((t.err = s.err ∧ t.errCode = s.errCode ∧ t.errPos = s.errPos)
        ∨ (t.err = true
            ∧ (t.errCode = .decAbsentChild ∨ t.errCode = .decPartial ∨ t.errCode = .decOverflow)))

/-- R148, R163(e): what DECODE answers depends on READY, the tree, ROOT, B and the bits below B alone; so bits at or
after B are never read, and a second DECODE of the same bits gives the same result. -/
def Obligations.DecodeDependsOnTreeAndBitsAlone : Prop :=
  ∀ (s₁ s₂ t₁ : State) (bits : BitVec 20), s₁.pend = some (.decode bits) → s₂.pend = some (.decode bits) →
    s₁.ready = s₂.ready → s₁.tree = s₂.tree → s₁.root = s₂.root → s₁.err = s₂.err → s₁.errCode = s₂.errCode →
    s₁.errPos = s₂.errPos → (∀ i, i < bits.toNat → s₁.mem.readBit i = s₂.mem.readBit i) → complete s₁ = .next t₁ →
    ∃ t₂, complete s₂ = .next t₂ ∧ t₂.outLen = t₁.outLen ∧ t₂.err = t₁.err ∧ t₂.errCode = t₁.errCode
      ∧ t₂.errPos = t₁.errPos
      ∧ (s₁.ready = true → bits ≠ 0 →
          ∀ k, k < wordBytes t₁.outLen.toNat → t₂.mem.read (symOutBase + k) = t₁.mem.read (symOutBase + k))

/-- R160: with N >= 2 every bit sequence is a list of codes followed by at most an incomplete code, and the only faults
are DEC_PARTIAL and DEC_OVERFLOW. -/
def Obligations.TwoSymbolTreesHaveNoAbsentChild : Prop :=
  ∀ s : State, Retained s → 2 ≤ s.numSyms.toNat →
    (∀ bits : List Bool, ∃ (codes : List (List Bool)) (syms : List Symbol) (tail : List Bool) (g : Handle),
        bits = codes.flatten ++ tail ∧ List.Forall₂ (IsCode s.tree s.root) codes syms
          ∧ Reaches s.tree s.root tail g ∧ (s.tree.node g).leaf = false)
      ∧ ∀ (t : State) (bits : BitVec 20), s.pend = some (.decode bits) → complete s = .next t →
        t.errCode = s.errCode ∨ t.errCode = .decPartial ∨ t.errCode = .decOverflow

/-- R159, the round trip: after an ENCODE of a non-empty text has completed, and whatever the host has done since, as long as
the tree, ROOT, READY and BITBUF are as the ENCODE left them, a DECODE of COMP_BITS bits completes with no fault,
OUT_LEN = L and the text in SYMBUF_OUT. -/
def Obligations.RoundTrip : Prop :=
  ∀ (s t s' : State) (text : List Symbol), EncodeCommits s text t →
    s'.tree = t.tree → s'.root = t.root → s'.ready = t.ready →
    (∀ a, bitBase ≤ a → a < symOutBase → s'.mem.read a = t.mem.read a) →
    s'.pend = some (.decode t.compBits) →
    ∃ u, complete s' = .next u ∧ Decoded s' u text ∧ u.err = s'.err ∧ u.errCode = s'.errCode
      ∧ u.errPos = s'.errPos

/-! ### The whole machine -/

/-- R206, R205, R207: a reset edge gives every register and table its reset value; the buffers keep their contents,
except that an abandoned ENCODE leaves BITBUF unwritten and an abandoned DECODE leaves SYMBUF_OUT unwritten. That it is
the whole buffer is the model's choice (log entry 7), and so is that the inputs go on as they were (log entry 2). -/
def Obligations.ResetEdgeRestoresResetValues : Prop :=
  ∀ (s : State) (p : Option HbusWord) (rest : List Input), s.inputs = .resetEdge p :: rest →
    ∃ t, step s = .next t
      ∧ t = { State.reset with mem := t.mem, rdata := t.rdata, draws := t.draws, inputs := rest }
      ∧ (s.pend = none → t.mem = s.mem)
      ∧ (∀ len, s.pend = some (.encode len) →
          SameOutside s.mem t.mem bitBase 65536 ∧ ∀ k, k < 65536 → t.mem.read (bitBase + k) = none)
      ∧ (∀ bits, s.pend = some (.decode bits) →
          SameOutside s.mem t.mem symOutBase 65536 ∧ ∀ k, k < 65536 → t.mem.read (symOutBase + k) = none)

/-- R54: the reset values. The values of the model's own fields are not stated. -/
def Obligations.ResetValues : Prop :=
  State.reset.busy = false ∧ State.reset.pend = none ∧ State.reset.ready = false ∧ State.reset.err = false
    ∧ State.reset.drop = false ∧ State.reset.errCode = .none ∧ State.reset.errPos = 0 ∧ State.reset.inLen = 0
    ∧ State.reset.inBits = 0 ∧ State.reset.origBits = 0 ∧ State.reset.compBits = 0 ∧ State.reset.ratio = 0
    ∧ State.reset.numSyms = 0 ∧ State.reset.nodeCount = 0 ∧ State.reset.root = 0 ∧ State.reset.outLen = 0
    ∧ (∀ sym : Symbol, State.reset.freqOf sym = 0 ∧ State.reset.codeLenOf sym = 0
        ∧ State.reset.code[sym.toNat]'(sym.isLt) = 0)
    ∧ (∀ h : Handle, State.reset.tree.node h = NodeRec.zero)
    ∧ (∀ a, State.reset.mem.read a = none) ∧ statusWord State.reset = 0

/-- R207: a read of a buffer byte that nothing has written is a fault of the model: by BUS_RD, by ENCODE of a text that is
not all there, and by DECODE at the first unwritten bit its walk reads: a bit `i` below B such that the walk of the `i`
bits before it answers with no fault, or with DEC_PARTIAL only, which ending there alone causes. R207 asks for the fault
alone: that it names the first unwritten byte is the model's choice (log entry 5). -/
def Obligations.UnwrittenReadsFault : Prop :=
  ∀ (s : State) (a : Nat), s.mem.read a = none →
    (∀ (w : WordAddr) (d : Word), s.busy = false → 0x4000 ≤ w.toNat → 4 * w.toNat ≤ a → a < 4 * w.toNat + 4 →
        (∀ b, 4 * w.toNat ≤ b → b < a → (s.mem.read b).isSome) →
        exec (.busRd w d) s = .fault (.unwrittenRead a))
      ∧ (∀ len : BitVec 16, s.pend = some (.encode len) → symInBase ≤ a → a < symInBase + len.toNat →
        (∀ b, symInBase ≤ b → b < a → (s.mem.read b).isSome) → complete s = .fault (.unwrittenRead a))
      ∧ (∀ (bits : BitVec 20) (i : Nat) (r : WalkEnd), s.pend = some (.decode bits) → s.ready = true →
        i < bits.toNat → a = bitAddr i → walk s.tree s.root s.mem i 0 s.root 0 = .ok r →
        (∀ c pos, r.fault = some (c, pos) → c = .decPartial) → complete s = .fault (.unwrittenRead a))

/-- No step is refused, and the only stop is a read of a buffer byte that nothing has written (R87, R110, R141; R207). This
is a property of the model, and rests on two of its choices: a DECODE that reports a DEC_ code is a next state with
STATUS.ERR = 1, where R190 speaks of a fault outcome of the command (log entry 13), and the fault of R207 names an
address (log entry 5). -/
def Obligations.OnlyUnwrittenReadsStop : Prop :=
  ∀ s : State,
    (∀ r, step s ≠ .refused r)
      ∧ ∀ r, step s = .fault r → ∃ a, r = .unwrittenRead a ∧ s.mem.read a = none ∧ symInBase ≤ a ∧ a < memEnd

/-- The reset state meets the invariant of control. -/
def Obligations.ResetMeetsControlInvariant : Prop := ControlInv State.reset

/-- Every step keeps the invariant of control: the buffers' canonical form and whole words, ERR with ERR_CODE, no error while
a command runs, and the pending command's length equal to the length register (R27, R30, R39, R40, R50, R108, R109). -/
def Obligations.StepKeepsControlInvariant : Prop :=
  ∀ s t : State, ControlInv s → step s = .next t → ControlInv t

/-- The reset state meets the invariant of the retained state and of the sizes. -/
def Obligations.ResetMeetsRetainedInvariant : Prop := RetainedInv State.reset ∧ SizeInv State.reset

/-- Every step keeps the invariant of the retained state: READY with a strict binary tree, codes that are its paths,
prefix-free, and agreeing accessors, or no READY and everything cleared (R26, R46, R181). -/
def Obligations.StepKeepsRetainedInvariant : Prop :=
  ∀ s t : State, RetainedInv s → step s = .next t → RetainedInv t

/-- Every step keeps the invariant of the size statistics: COMP_BITS is the sum of FREQ * CODE_LEN and at most ORIG_BITS,
and RATIO is their ratio and at most 100 percent (R138, R139, R181). -/
def Obligations.StepKeepsSizeInvariant : Prop :=
  ∀ s t : State, SizeInv s → step s = .next t → SizeInv t

/-- R26: READY is set by the completion of a non-empty ENCODE, cleared by reset and by the completion of an empty one
(KEEP_TREE_ON_EMPTY = false), and changed by nothing else. -/
def Obligations.ReadyFollowsEncodeAndReset : Prop :=
  ∀ s t : State, step s = .next t →
    (ResetTurn s → t.ready = false)
      ∧ (EngineTurn s → ∀ len : BitVec 16, s.pend = some (.encode len) → t.ready = decide (len ≠ 0))
      ∧ (¬ ResetTurn s → ¬ EncodeTurn s → t.ready = s.ready)

/-- R33-R38, R180: the tables, the tree and the size statistics are changed by nothing but the completion of an ENCODE and
reset. -/
def Obligations.TablesChangeOnlyByEncodeOrReset : Prop :=
  ∀ s t : State, step s = .next t → ¬ ResetTurn s → ¬ EncodeTurn s →
    t.origBits = s.origBits ∧ t.compBits = s.compBits ∧ t.ratio = s.ratio ∧ t.numSyms = s.numSyms
      ∧ t.nodeCount = s.nodeCount ∧ t.root = s.root ∧ t.freq = s.freq ∧ t.codeLen = s.codeLen ∧ t.code = s.code
      ∧ t.tree = s.tree

/-- R39, R49: OUT_LEN and SYMBUF_OUT are changed by nothing but the completion of a DECODE and reset. -/
def Obligations.OutputChangesOnlyByDecodeOrReset : Prop :=
  ∀ s t : State, step s = .next t → ¬ ResetTurn s → ¬ DecodeTurn s →
    t.outLen = s.outLen ∧ ∀ a, symOutBase ≤ a → t.mem.read a = s.mem.read a

/-- R47: the engine never writes SYMBUF_IN, and nothing does but a host write to the word, while BUSY = 0. -/
def Obligations.SymbolInputChangesOnlyByHostWrites : Prop :=
  ∀ (s t : State) (a : Nat), step s = .next t → symInBase ≤ a → a < bitBase → t.mem.read a ≠ s.mem.read a →
    s.busy = false ∧ ∃ w waddr v rest, s.inputs = .transaction w :: rest ∧ decodeHbus w = .busWr waddr v
      ∧ 4 * waddr.toNat ≤ a ∧ a < 4 * waddr.toNat + 4

/-- R28: DROP is set by a host write while BUSY = 1 and by nothing else, and cleared by the acceptance of a command and by
reset and by nothing else. -/
def Obligations.DropFollowsBusyWrites : Prop :=
  ∀ s t : State, step s = .next t →
    (s.drop = false →
        (t.drop = true ↔ s.busy = true ∧ ∃ w rest, s.inputs = .transaction w :: rest ∧ w.getLsbD 48 = true))
      ∧ (s.drop = true → (t.drop = false ↔ ResetTurn s ∨ (s.busy = false ∧ t.busy = true)))

/-- R27, R30, R40, R192: ERR is cleared by the acceptance of a command and by reset and by nothing else; ERR_CODE and ERR_POS
change only then, by a DECODE's completion and, for ERR_CODE, by a rejection, which sets ERR. -/
def Obligations.ErrorReportsStayUntilAcceptance : Prop :=
  ∀ s t : State, step s = .next t → ¬ ResetTurn s → ¬ (s.busy = false ∧ t.busy = true) →
    (s.err = true → t.err = true)
      ∧ (t.errPos ≠ s.errPos → DecodeTurn s ∧ t.err = true)
      ∧ (t.errCode ≠ s.errCode → t.err = true ∧ (DecodeTurn s ∨ (s.busy = false ∧ t.errPos = s.errPos)))

/-- R67, R73, R105, R106, R108: host transactions that come while a command runs do not disturb it. Any number of them,
followed by the completion step, answers, and leaves the state that completion at once would have left, but for DROP,
which tells whether one of them was a write, and the model's own fields. -/
def Obligations.TransactionsDoNotDisturbARunningCommand : Prop :=
  ∀ (s u : State) (words : List HbusWord), s.busy = true → s.inputs = words.map .transaction →
    complete { s with inputs := [] } = .next u →
    ∃ t, Sys2Proof.core.run (words.length + 1) s = .next t
      ∧ t = { u with drop := t.drop, rdata := t.rdata, draws := t.draws }
      ∧ (t.drop = true ↔ s.drop = true ∨ ∃ w ∈ words, w.getLsbD 48 = true)
end

