-- ==== Sys2Proof/Laws/Encoding.lean ====
section
/-! SUPPORT. The laws of bytes and numbers that the two decoders and the encoder rest on. -/

namespace Sys2Proof

@[simp] theorem length_bytesOfNat (n v : Nat) : (bytesOfNat n v).length = n := by
  induction n generalizing v with
  | zero => rfl
  | succ n ih => simp [bytesOfNat, ih]

/-- The bytes of a number spell it, as far as they reach. -/
theorem natOfBytes_bytesOfNat (n v : Nat) : natOfBytes (bytesOfNat n v) = v % 256 ^ n := by
  induction n generalizing v with
  | zero => simp [bytesOfNat, natOfBytes, Nat.mod_one]
  | succ n ih =>
    have hp : 256 ^ (n + 1) = 256 * 256 ^ n := by rw [Nat.pow_succ, Nat.mul_comm]
    rw [bytesOfNat, natOfBytes, ih, BitVec.toNat_ofNat, hp, Nat.mod_mul]

theorem natOfBytes_lt (bs : List Byte) : natOfBytes bs < 256 ^ bs.length := by
  induction bs with
  | nil => simp [natOfBytes]
  | cons b bs ih =>
    have := b.isLt
    rw [natOfBytes, List.length_cons, Nat.pow_succ]
    omega

/-- The bytes that spell a number are its bytes. -/
theorem bytesOfNat_natOfBytes (bs : List Byte) : bytesOfNat bs.length (natOfBytes bs) = bs := by
  induction bs with
  | nil => rfl
  | cons b bs ih =>
    have hb := b.isLt
    have h1 : (b.toNat + 256 * natOfBytes bs) / 256 = natOfBytes bs := by omega
    have h2 : BitVec.ofNat 8 (b.toNat + 256 * natOfBytes bs) = b := by
      apply BitVec.eq_of_toNat_eq
      rw [BitVec.toNat_ofNat]
      omega
    rw [List.length_cons, natOfBytes, bytesOfNat, h1, h2, ih]

end Sys2Proof
end

