-- ==== Sys2Proof/Laws/State.lean ====
section
/-! SUPPORT. What each named update of State leaves in each field: one lemma a field and update, true by rfl. -/

namespace Sys2Proof.Machine

variable (s : State)

/-! ### reject -/

@[simp] theorem State.reject_pend (c : ErrorCode) : (s.reject c).pend = s.pend := rfl
@[simp] theorem State.reject_ready (c : ErrorCode) : (s.reject c).ready = s.ready := rfl
@[simp] theorem State.reject_err (c : ErrorCode) : (s.reject c).err = true := rfl
@[simp] theorem State.reject_drop (c : ErrorCode) : (s.reject c).drop = s.drop := rfl
@[simp] theorem State.reject_errCode (c : ErrorCode) : (s.reject c).errCode = c := rfl
@[simp] theorem State.reject_errPos (c : ErrorCode) : (s.reject c).errPos = s.errPos := rfl
@[simp] theorem State.reject_inLen (c : ErrorCode) : (s.reject c).inLen = s.inLen := rfl
@[simp] theorem State.reject_inBits (c : ErrorCode) : (s.reject c).inBits = s.inBits := rfl
@[simp] theorem State.reject_origBits (c : ErrorCode) : (s.reject c).origBits = s.origBits := rfl
@[simp] theorem State.reject_compBits (c : ErrorCode) : (s.reject c).compBits = s.compBits := rfl
@[simp] theorem State.reject_ratio (c : ErrorCode) : (s.reject c).ratio = s.ratio := rfl
@[simp] theorem State.reject_numSyms (c : ErrorCode) : (s.reject c).numSyms = s.numSyms := rfl
@[simp] theorem State.reject_nodeCount (c : ErrorCode) : (s.reject c).nodeCount = s.nodeCount := rfl
@[simp] theorem State.reject_root (c : ErrorCode) : (s.reject c).root = s.root := rfl
@[simp] theorem State.reject_outLen (c : ErrorCode) : (s.reject c).outLen = s.outLen := rfl
@[simp] theorem State.reject_freq (c : ErrorCode) : (s.reject c).freq = s.freq := rfl
@[simp] theorem State.reject_codeLen (c : ErrorCode) : (s.reject c).codeLen = s.codeLen := rfl
@[simp] theorem State.reject_code (c : ErrorCode) : (s.reject c).code = s.code := rfl
@[simp] theorem State.reject_tree (c : ErrorCode) : (s.reject c).tree = s.tree := rfl
@[simp] theorem State.reject_mem (c : ErrorCode) : (s.reject c).mem = s.mem := rfl
@[simp] theorem State.reject_rdata (c : ErrorCode) : (s.reject c).rdata = s.rdata := rfl
@[simp] theorem State.reject_draws (c : ErrorCode) : (s.reject c).draws = s.draws := rfl
@[simp] theorem State.reject_inputs (c : ErrorCode) : (s.reject c).inputs = s.inputs := rfl
@[simp] theorem State.reject_busy (c : ErrorCode) : (s.reject c).busy = s.busy := rfl

/-! ### accept -/

@[simp] theorem State.accept_pend (p : Pending) : (s.accept p).pend = some p := rfl
@[simp] theorem State.accept_ready (p : Pending) : (s.accept p).ready = s.ready := rfl
@[simp] theorem State.accept_err (p : Pending) : (s.accept p).err = false := rfl
@[simp] theorem State.accept_drop (p : Pending) : (s.accept p).drop = false := rfl
@[simp] theorem State.accept_errCode (p : Pending) : (s.accept p).errCode = .none := rfl
@[simp] theorem State.accept_errPos (p : Pending) : (s.accept p).errPos = 0 := rfl
@[simp] theorem State.accept_inLen (p : Pending) : (s.accept p).inLen = s.inLen := rfl
@[simp] theorem State.accept_inBits (p : Pending) : (s.accept p).inBits = s.inBits := rfl
@[simp] theorem State.accept_origBits (p : Pending) : (s.accept p).origBits = s.origBits := rfl
@[simp] theorem State.accept_compBits (p : Pending) : (s.accept p).compBits = s.compBits := rfl
@[simp] theorem State.accept_ratio (p : Pending) : (s.accept p).ratio = s.ratio := rfl
@[simp] theorem State.accept_numSyms (p : Pending) : (s.accept p).numSyms = s.numSyms := rfl
@[simp] theorem State.accept_nodeCount (p : Pending) : (s.accept p).nodeCount = s.nodeCount := rfl
@[simp] theorem State.accept_root (p : Pending) : (s.accept p).root = s.root := rfl
@[simp] theorem State.accept_outLen (p : Pending) : (s.accept p).outLen = s.outLen := rfl
@[simp] theorem State.accept_freq (p : Pending) : (s.accept p).freq = s.freq := rfl
@[simp] theorem State.accept_codeLen (p : Pending) : (s.accept p).codeLen = s.codeLen := rfl
@[simp] theorem State.accept_code (p : Pending) : (s.accept p).code = s.code := rfl
@[simp] theorem State.accept_tree (p : Pending) : (s.accept p).tree = s.tree := rfl
@[simp] theorem State.accept_mem (p : Pending) : (s.accept p).mem = s.mem := rfl
@[simp] theorem State.accept_rdata (p : Pending) : (s.accept p).rdata = s.rdata := rfl
@[simp] theorem State.accept_draws (p : Pending) : (s.accept p).draws = s.draws := rfl
@[simp] theorem State.accept_inputs (p : Pending) : (s.accept p).inputs = s.inputs := rfl
@[simp] theorem State.accept_busy (p : Pending) : (s.accept p).busy = true := rfl

/-! ### dropWrite -/

@[simp] theorem State.dropWrite_pend : (s.dropWrite).pend = s.pend := rfl
@[simp] theorem State.dropWrite_ready : (s.dropWrite).ready = s.ready := rfl
@[simp] theorem State.dropWrite_err : (s.dropWrite).err = s.err := rfl
@[simp] theorem State.dropWrite_drop : (s.dropWrite).drop = true := rfl
@[simp] theorem State.dropWrite_errCode : (s.dropWrite).errCode = s.errCode := rfl
@[simp] theorem State.dropWrite_errPos : (s.dropWrite).errPos = s.errPos := rfl
@[simp] theorem State.dropWrite_inLen : (s.dropWrite).inLen = s.inLen := rfl
@[simp] theorem State.dropWrite_inBits : (s.dropWrite).inBits = s.inBits := rfl
@[simp] theorem State.dropWrite_origBits : (s.dropWrite).origBits = s.origBits := rfl
@[simp] theorem State.dropWrite_compBits : (s.dropWrite).compBits = s.compBits := rfl
@[simp] theorem State.dropWrite_ratio : (s.dropWrite).ratio = s.ratio := rfl
@[simp] theorem State.dropWrite_numSyms : (s.dropWrite).numSyms = s.numSyms := rfl
@[simp] theorem State.dropWrite_nodeCount : (s.dropWrite).nodeCount = s.nodeCount := rfl
@[simp] theorem State.dropWrite_root : (s.dropWrite).root = s.root := rfl
@[simp] theorem State.dropWrite_outLen : (s.dropWrite).outLen = s.outLen := rfl
@[simp] theorem State.dropWrite_freq : (s.dropWrite).freq = s.freq := rfl
@[simp] theorem State.dropWrite_codeLen : (s.dropWrite).codeLen = s.codeLen := rfl
@[simp] theorem State.dropWrite_code : (s.dropWrite).code = s.code := rfl
@[simp] theorem State.dropWrite_tree : (s.dropWrite).tree = s.tree := rfl
@[simp] theorem State.dropWrite_mem : (s.dropWrite).mem = s.mem := rfl
@[simp] theorem State.dropWrite_rdata : (s.dropWrite).rdata = s.rdata := rfl
@[simp] theorem State.dropWrite_draws : (s.dropWrite).draws = s.draws := rfl
@[simp] theorem State.dropWrite_inputs : (s.dropWrite).inputs = s.inputs := rfl
@[simp] theorem State.dropWrite_busy : (s.dropWrite).busy = s.busy := rfl

/-! ### raiseFault -/

@[simp] theorem State.raiseFault_pend (c : ErrorCode) (pos : Nat) : (s.raiseFault c pos).pend = s.pend := rfl
@[simp] theorem State.raiseFault_ready (c : ErrorCode) (pos : Nat) : (s.raiseFault c pos).ready = s.ready := rfl
@[simp] theorem State.raiseFault_err (c : ErrorCode) (pos : Nat) : (s.raiseFault c pos).err = true := rfl
@[simp] theorem State.raiseFault_drop (c : ErrorCode) (pos : Nat) : (s.raiseFault c pos).drop = s.drop := rfl
@[simp] theorem State.raiseFault_errCode (c : ErrorCode) (pos : Nat) : (s.raiseFault c pos).errCode = c := rfl
@[simp] theorem State.raiseFault_errPos (c : ErrorCode) (pos : Nat) :
    (s.raiseFault c pos).errPos = BitVec.ofNat 20 pos := rfl
@[simp] theorem State.raiseFault_inLen (c : ErrorCode) (pos : Nat) : (s.raiseFault c pos).inLen = s.inLen := rfl
@[simp] theorem State.raiseFault_inBits (c : ErrorCode) (pos : Nat) : (s.raiseFault c pos).inBits = s.inBits := rfl
@[simp] theorem State.raiseFault_origBits (c : ErrorCode) (pos : Nat) :
    (s.raiseFault c pos).origBits = s.origBits := rfl
@[simp] theorem State.raiseFault_compBits (c : ErrorCode) (pos : Nat) :
    (s.raiseFault c pos).compBits = s.compBits := rfl
@[simp] theorem State.raiseFault_ratio (c : ErrorCode) (pos : Nat) : (s.raiseFault c pos).ratio = s.ratio := rfl
@[simp] theorem State.raiseFault_numSyms (c : ErrorCode) (pos : Nat) :
    (s.raiseFault c pos).numSyms = s.numSyms := rfl
@[simp] theorem State.raiseFault_nodeCount (c : ErrorCode) (pos : Nat) :
    (s.raiseFault c pos).nodeCount = s.nodeCount := rfl
@[simp] theorem State.raiseFault_root (c : ErrorCode) (pos : Nat) : (s.raiseFault c pos).root = s.root := rfl
@[simp] theorem State.raiseFault_outLen (c : ErrorCode) (pos : Nat) : (s.raiseFault c pos).outLen = s.outLen := rfl
@[simp] theorem State.raiseFault_freq (c : ErrorCode) (pos : Nat) : (s.raiseFault c pos).freq = s.freq := rfl
@[simp] theorem State.raiseFault_codeLen (c : ErrorCode) (pos : Nat) :
    (s.raiseFault c pos).codeLen = s.codeLen := rfl
@[simp] theorem State.raiseFault_code (c : ErrorCode) (pos : Nat) : (s.raiseFault c pos).code = s.code := rfl
@[simp] theorem State.raiseFault_tree (c : ErrorCode) (pos : Nat) : (s.raiseFault c pos).tree = s.tree := rfl
@[simp] theorem State.raiseFault_mem (c : ErrorCode) (pos : Nat) : (s.raiseFault c pos).mem = s.mem := rfl
@[simp] theorem State.raiseFault_rdata (c : ErrorCode) (pos : Nat) : (s.raiseFault c pos).rdata = s.rdata := rfl
@[simp] theorem State.raiseFault_draws (c : ErrorCode) (pos : Nat) : (s.raiseFault c pos).draws = s.draws := rfl
@[simp] theorem State.raiseFault_inputs (c : ErrorCode) (pos : Nat) : (s.raiseFault c pos).inputs = s.inputs := rfl
@[simp] theorem State.raiseFault_busy (c : ErrorCode) (pos : Nat) : (s.raiseFault c pos).busy = s.busy := rfl

/-! ### retire -/

@[simp] theorem State.retire_pend : (s.retire).pend = none := rfl
@[simp] theorem State.retire_ready : (s.retire).ready = s.ready := rfl
@[simp] theorem State.retire_err : (s.retire).err = s.err := rfl
@[simp] theorem State.retire_drop : (s.retire).drop = s.drop := rfl
@[simp] theorem State.retire_errCode : (s.retire).errCode = s.errCode := rfl
@[simp] theorem State.retire_errPos : (s.retire).errPos = s.errPos := rfl
@[simp] theorem State.retire_inLen : (s.retire).inLen = s.inLen := rfl
@[simp] theorem State.retire_inBits : (s.retire).inBits = s.inBits := rfl
@[simp] theorem State.retire_origBits : (s.retire).origBits = s.origBits := rfl
@[simp] theorem State.retire_compBits : (s.retire).compBits = s.compBits := rfl
@[simp] theorem State.retire_ratio : (s.retire).ratio = s.ratio := rfl
@[simp] theorem State.retire_numSyms : (s.retire).numSyms = s.numSyms := rfl
@[simp] theorem State.retire_nodeCount : (s.retire).nodeCount = s.nodeCount := rfl
@[simp] theorem State.retire_root : (s.retire).root = s.root := rfl
@[simp] theorem State.retire_outLen : (s.retire).outLen = s.outLen := rfl
@[simp] theorem State.retire_freq : (s.retire).freq = s.freq := rfl
@[simp] theorem State.retire_codeLen : (s.retire).codeLen = s.codeLen := rfl
@[simp] theorem State.retire_code : (s.retire).code = s.code := rfl
@[simp] theorem State.retire_tree : (s.retire).tree = s.tree := rfl
@[simp] theorem State.retire_mem : (s.retire).mem = s.mem := rfl
@[simp] theorem State.retire_rdata : (s.retire).rdata = s.rdata := rfl
@[simp] theorem State.retire_draws : (s.retire).draws = s.draws := rfl
@[simp] theorem State.retire_inputs : (s.retire).inputs = s.inputs := rfl
@[simp] theorem State.retire_busy : (s.retire).busy = false := rfl

/-! ### setInLen -/

@[simp] theorem State.setInLen_pend (v : Word) : (s.setInLen v).pend = s.pend := rfl
@[simp] theorem State.setInLen_ready (v : Word) : (s.setInLen v).ready = s.ready := rfl
@[simp] theorem State.setInLen_err (v : Word) : (s.setInLen v).err = s.err := rfl
@[simp] theorem State.setInLen_drop (v : Word) : (s.setInLen v).drop = s.drop := rfl
@[simp] theorem State.setInLen_errCode (v : Word) : (s.setInLen v).errCode = s.errCode := rfl
@[simp] theorem State.setInLen_errPos (v : Word) : (s.setInLen v).errPos = s.errPos := rfl
@[simp] theorem State.setInLen_inLen (v : Word) : (s.setInLen v).inLen = v := rfl
@[simp] theorem State.setInLen_inBits (v : Word) : (s.setInLen v).inBits = s.inBits := rfl
@[simp] theorem State.setInLen_origBits (v : Word) : (s.setInLen v).origBits = s.origBits := rfl
@[simp] theorem State.setInLen_compBits (v : Word) : (s.setInLen v).compBits = s.compBits := rfl
@[simp] theorem State.setInLen_ratio (v : Word) : (s.setInLen v).ratio = s.ratio := rfl
@[simp] theorem State.setInLen_numSyms (v : Word) : (s.setInLen v).numSyms = s.numSyms := rfl
@[simp] theorem State.setInLen_nodeCount (v : Word) : (s.setInLen v).nodeCount = s.nodeCount := rfl
@[simp] theorem State.setInLen_root (v : Word) : (s.setInLen v).root = s.root := rfl
@[simp] theorem State.setInLen_outLen (v : Word) : (s.setInLen v).outLen = s.outLen := rfl
@[simp] theorem State.setInLen_freq (v : Word) : (s.setInLen v).freq = s.freq := rfl
@[simp] theorem State.setInLen_codeLen (v : Word) : (s.setInLen v).codeLen = s.codeLen := rfl
@[simp] theorem State.setInLen_code (v : Word) : (s.setInLen v).code = s.code := rfl
@[simp] theorem State.setInLen_tree (v : Word) : (s.setInLen v).tree = s.tree := rfl
@[simp] theorem State.setInLen_mem (v : Word) : (s.setInLen v).mem = s.mem := rfl
@[simp] theorem State.setInLen_rdata (v : Word) : (s.setInLen v).rdata = s.rdata := rfl
@[simp] theorem State.setInLen_draws (v : Word) : (s.setInLen v).draws = s.draws := rfl
@[simp] theorem State.setInLen_inputs (v : Word) : (s.setInLen v).inputs = s.inputs := rfl
@[simp] theorem State.setInLen_busy (v : Word) : (s.setInLen v).busy = s.busy := rfl

/-! ### setInBits -/

@[simp] theorem State.setInBits_pend (v : Word) : (s.setInBits v).pend = s.pend := rfl
@[simp] theorem State.setInBits_ready (v : Word) : (s.setInBits v).ready = s.ready := rfl
@[simp] theorem State.setInBits_err (v : Word) : (s.setInBits v).err = s.err := rfl
@[simp] theorem State.setInBits_drop (v : Word) : (s.setInBits v).drop = s.drop := rfl
@[simp] theorem State.setInBits_errCode (v : Word) : (s.setInBits v).errCode = s.errCode := rfl
@[simp] theorem State.setInBits_errPos (v : Word) : (s.setInBits v).errPos = s.errPos := rfl
@[simp] theorem State.setInBits_inLen (v : Word) : (s.setInBits v).inLen = s.inLen := rfl
@[simp] theorem State.setInBits_inBits (v : Word) : (s.setInBits v).inBits = v := rfl
@[simp] theorem State.setInBits_origBits (v : Word) : (s.setInBits v).origBits = s.origBits := rfl
@[simp] theorem State.setInBits_compBits (v : Word) : (s.setInBits v).compBits = s.compBits := rfl
@[simp] theorem State.setInBits_ratio (v : Word) : (s.setInBits v).ratio = s.ratio := rfl
@[simp] theorem State.setInBits_numSyms (v : Word) : (s.setInBits v).numSyms = s.numSyms := rfl
@[simp] theorem State.setInBits_nodeCount (v : Word) : (s.setInBits v).nodeCount = s.nodeCount := rfl
@[simp] theorem State.setInBits_root (v : Word) : (s.setInBits v).root = s.root := rfl
@[simp] theorem State.setInBits_outLen (v : Word) : (s.setInBits v).outLen = s.outLen := rfl
@[simp] theorem State.setInBits_freq (v : Word) : (s.setInBits v).freq = s.freq := rfl
@[simp] theorem State.setInBits_codeLen (v : Word) : (s.setInBits v).codeLen = s.codeLen := rfl
@[simp] theorem State.setInBits_code (v : Word) : (s.setInBits v).code = s.code := rfl
@[simp] theorem State.setInBits_tree (v : Word) : (s.setInBits v).tree = s.tree := rfl
@[simp] theorem State.setInBits_mem (v : Word) : (s.setInBits v).mem = s.mem := rfl
@[simp] theorem State.setInBits_rdata (v : Word) : (s.setInBits v).rdata = s.rdata := rfl
@[simp] theorem State.setInBits_draws (v : Word) : (s.setInBits v).draws = s.draws := rfl
@[simp] theorem State.setInBits_inputs (v : Word) : (s.setInBits v).inputs = s.inputs := rfl
@[simp] theorem State.setInBits_busy (v : Word) : (s.setInBits v).busy = s.busy := rfl

/-! ### storeBytes -/

@[simp] theorem State.storeBytes_pend (base : Nat) (bs : List Byte) : (s.storeBytes base bs).pend = s.pend := rfl
@[simp] theorem State.storeBytes_ready (base : Nat) (bs : List Byte) :
    (s.storeBytes base bs).ready = s.ready := rfl
@[simp] theorem State.storeBytes_err (base : Nat) (bs : List Byte) : (s.storeBytes base bs).err = s.err := rfl
@[simp] theorem State.storeBytes_drop (base : Nat) (bs : List Byte) : (s.storeBytes base bs).drop = s.drop := rfl
@[simp] theorem State.storeBytes_errCode (base : Nat) (bs : List Byte) :
    (s.storeBytes base bs).errCode = s.errCode := rfl
@[simp] theorem State.storeBytes_errPos (base : Nat) (bs : List Byte) :
    (s.storeBytes base bs).errPos = s.errPos := rfl
@[simp] theorem State.storeBytes_inLen (base : Nat) (bs : List Byte) :
    (s.storeBytes base bs).inLen = s.inLen := rfl
@[simp] theorem State.storeBytes_inBits (base : Nat) (bs : List Byte) :
    (s.storeBytes base bs).inBits = s.inBits := rfl
@[simp] theorem State.storeBytes_origBits (base : Nat) (bs : List Byte) :
    (s.storeBytes base bs).origBits = s.origBits := rfl
@[simp] theorem State.storeBytes_compBits (base : Nat) (bs : List Byte) :
    (s.storeBytes base bs).compBits = s.compBits := rfl
@[simp] theorem State.storeBytes_ratio (base : Nat) (bs : List Byte) :
    (s.storeBytes base bs).ratio = s.ratio := rfl
@[simp] theorem State.storeBytes_numSyms (base : Nat) (bs : List Byte) :
    (s.storeBytes base bs).numSyms = s.numSyms := rfl
@[simp] theorem State.storeBytes_nodeCount (base : Nat) (bs : List Byte) :
    (s.storeBytes base bs).nodeCount = s.nodeCount := rfl
@[simp] theorem State.storeBytes_root (base : Nat) (bs : List Byte) : (s.storeBytes base bs).root = s.root := rfl
@[simp] theorem State.storeBytes_outLen (base : Nat) (bs : List Byte) :
    (s.storeBytes base bs).outLen = s.outLen := rfl
@[simp] theorem State.storeBytes_freq (base : Nat) (bs : List Byte) : (s.storeBytes base bs).freq = s.freq := rfl
@[simp] theorem State.storeBytes_codeLen (base : Nat) (bs : List Byte) :
    (s.storeBytes base bs).codeLen = s.codeLen := rfl
@[simp] theorem State.storeBytes_code (base : Nat) (bs : List Byte) : (s.storeBytes base bs).code = s.code := rfl
@[simp] theorem State.storeBytes_tree (base : Nat) (bs : List Byte) : (s.storeBytes base bs).tree = s.tree := rfl
@[simp] theorem State.storeBytes_mem (base : Nat) (bs : List Byte) :
    (s.storeBytes base bs).mem = s.mem.store base bs := rfl
@[simp] theorem State.storeBytes_rdata (base : Nat) (bs : List Byte) :
    (s.storeBytes base bs).rdata = s.rdata := rfl
@[simp] theorem State.storeBytes_draws (base : Nat) (bs : List Byte) :
    (s.storeBytes base bs).draws = s.draws := rfl
@[simp] theorem State.storeBytes_inputs (base : Nat) (bs : List Byte) :
    (s.storeBytes base bs).inputs = s.inputs := rfl
@[simp] theorem State.storeBytes_busy (base : Nat) (bs : List Byte) : (s.storeBytes base bs).busy = s.busy := rfl

/-! ### returnData -/

@[simp] theorem State.returnData_pend (v : Word) : (s.returnData v).pend = s.pend := rfl
@[simp] theorem State.returnData_ready (v : Word) : (s.returnData v).ready = s.ready := rfl
@[simp] theorem State.returnData_err (v : Word) : (s.returnData v).err = s.err := rfl
@[simp] theorem State.returnData_drop (v : Word) : (s.returnData v).drop = s.drop := rfl
@[simp] theorem State.returnData_errCode (v : Word) : (s.returnData v).errCode = s.errCode := rfl
@[simp] theorem State.returnData_errPos (v : Word) : (s.returnData v).errPos = s.errPos := rfl
@[simp] theorem State.returnData_inLen (v : Word) : (s.returnData v).inLen = s.inLen := rfl
@[simp] theorem State.returnData_inBits (v : Word) : (s.returnData v).inBits = s.inBits := rfl
@[simp] theorem State.returnData_origBits (v : Word) : (s.returnData v).origBits = s.origBits := rfl
@[simp] theorem State.returnData_compBits (v : Word) : (s.returnData v).compBits = s.compBits := rfl
@[simp] theorem State.returnData_ratio (v : Word) : (s.returnData v).ratio = s.ratio := rfl
@[simp] theorem State.returnData_numSyms (v : Word) : (s.returnData v).numSyms = s.numSyms := rfl
@[simp] theorem State.returnData_nodeCount (v : Word) : (s.returnData v).nodeCount = s.nodeCount := rfl
@[simp] theorem State.returnData_root (v : Word) : (s.returnData v).root = s.root := rfl
@[simp] theorem State.returnData_outLen (v : Word) : (s.returnData v).outLen = s.outLen := rfl
@[simp] theorem State.returnData_freq (v : Word) : (s.returnData v).freq = s.freq := rfl
@[simp] theorem State.returnData_codeLen (v : Word) : (s.returnData v).codeLen = s.codeLen := rfl
@[simp] theorem State.returnData_code (v : Word) : (s.returnData v).code = s.code := rfl
@[simp] theorem State.returnData_tree (v : Word) : (s.returnData v).tree = s.tree := rfl
@[simp] theorem State.returnData_mem (v : Word) : (s.returnData v).mem = s.mem := rfl
@[simp] theorem State.returnData_rdata (v : Word) : (s.returnData v).rdata = v := rfl
@[simp] theorem State.returnData_draws (v : Word) : (s.returnData v).draws = s.draws := rfl
@[simp] theorem State.returnData_inputs (v : Word) : (s.returnData v).inputs = s.inputs := rfl
@[simp] theorem State.returnData_busy (v : Word) : (s.returnData v).busy = s.busy := rfl

/-! ### nextDraw -/

@[simp] theorem State.nextDraw_pend : (s.nextDraw).pend = s.pend := rfl
@[simp] theorem State.nextDraw_ready : (s.nextDraw).ready = s.ready := rfl
@[simp] theorem State.nextDraw_err : (s.nextDraw).err = s.err := rfl
@[simp] theorem State.nextDraw_drop : (s.nextDraw).drop = s.drop := rfl
@[simp] theorem State.nextDraw_errCode : (s.nextDraw).errCode = s.errCode := rfl
@[simp] theorem State.nextDraw_errPos : (s.nextDraw).errPos = s.errPos := rfl
@[simp] theorem State.nextDraw_inLen : (s.nextDraw).inLen = s.inLen := rfl
@[simp] theorem State.nextDraw_inBits : (s.nextDraw).inBits = s.inBits := rfl
@[simp] theorem State.nextDraw_origBits : (s.nextDraw).origBits = s.origBits := rfl
@[simp] theorem State.nextDraw_compBits : (s.nextDraw).compBits = s.compBits := rfl
@[simp] theorem State.nextDraw_ratio : (s.nextDraw).ratio = s.ratio := rfl
@[simp] theorem State.nextDraw_numSyms : (s.nextDraw).numSyms = s.numSyms := rfl
@[simp] theorem State.nextDraw_nodeCount : (s.nextDraw).nodeCount = s.nodeCount := rfl
@[simp] theorem State.nextDraw_root : (s.nextDraw).root = s.root := rfl
@[simp] theorem State.nextDraw_outLen : (s.nextDraw).outLen = s.outLen := rfl
@[simp] theorem State.nextDraw_freq : (s.nextDraw).freq = s.freq := rfl
@[simp] theorem State.nextDraw_codeLen : (s.nextDraw).codeLen = s.codeLen := rfl
@[simp] theorem State.nextDraw_code : (s.nextDraw).code = s.code := rfl
@[simp] theorem State.nextDraw_tree : (s.nextDraw).tree = s.tree := rfl
@[simp] theorem State.nextDraw_mem : (s.nextDraw).mem = s.mem := rfl
@[simp] theorem State.nextDraw_rdata : (s.nextDraw).rdata = s.rdata := rfl
@[simp] theorem State.nextDraw_draws : (s.nextDraw).draws = s.draws + 1 := rfl
@[simp] theorem State.nextDraw_inputs : (s.nextDraw).inputs = s.inputs := rfl
@[simp] theorem State.nextDraw_busy : (s.nextDraw).busy = s.busy := rfl

/-! ### setOutLen -/

@[simp] theorem State.setOutLen_pend (n : Nat) : (s.setOutLen n).pend = s.pend := rfl
@[simp] theorem State.setOutLen_ready (n : Nat) : (s.setOutLen n).ready = s.ready := rfl
@[simp] theorem State.setOutLen_err (n : Nat) : (s.setOutLen n).err = s.err := rfl
@[simp] theorem State.setOutLen_drop (n : Nat) : (s.setOutLen n).drop = s.drop := rfl
@[simp] theorem State.setOutLen_errCode (n : Nat) : (s.setOutLen n).errCode = s.errCode := rfl
@[simp] theorem State.setOutLen_errPos (n : Nat) : (s.setOutLen n).errPos = s.errPos := rfl
@[simp] theorem State.setOutLen_inLen (n : Nat) : (s.setOutLen n).inLen = s.inLen := rfl
@[simp] theorem State.setOutLen_inBits (n : Nat) : (s.setOutLen n).inBits = s.inBits := rfl
@[simp] theorem State.setOutLen_origBits (n : Nat) : (s.setOutLen n).origBits = s.origBits := rfl
@[simp] theorem State.setOutLen_compBits (n : Nat) : (s.setOutLen n).compBits = s.compBits := rfl
@[simp] theorem State.setOutLen_ratio (n : Nat) : (s.setOutLen n).ratio = s.ratio := rfl
@[simp] theorem State.setOutLen_numSyms (n : Nat) : (s.setOutLen n).numSyms = s.numSyms := rfl
@[simp] theorem State.setOutLen_nodeCount (n : Nat) : (s.setOutLen n).nodeCount = s.nodeCount := rfl
@[simp] theorem State.setOutLen_root (n : Nat) : (s.setOutLen n).root = s.root := rfl
@[simp] theorem State.setOutLen_outLen (n : Nat) : (s.setOutLen n).outLen = BitVec.ofNat 17 n := rfl
@[simp] theorem State.setOutLen_freq (n : Nat) : (s.setOutLen n).freq = s.freq := rfl
@[simp] theorem State.setOutLen_codeLen (n : Nat) : (s.setOutLen n).codeLen = s.codeLen := rfl
@[simp] theorem State.setOutLen_code (n : Nat) : (s.setOutLen n).code = s.code := rfl
@[simp] theorem State.setOutLen_tree (n : Nat) : (s.setOutLen n).tree = s.tree := rfl
@[simp] theorem State.setOutLen_mem (n : Nat) : (s.setOutLen n).mem = s.mem := rfl
@[simp] theorem State.setOutLen_rdata (n : Nat) : (s.setOutLen n).rdata = s.rdata := rfl
@[simp] theorem State.setOutLen_draws (n : Nat) : (s.setOutLen n).draws = s.draws := rfl
@[simp] theorem State.setOutLen_inputs (n : Nat) : (s.setOutLen n).inputs = s.inputs := rfl
@[simp] theorem State.setOutLen_busy (n : Nat) : (s.setOutLen n).busy = s.busy := rfl

/-! ### withInputs -/

@[simp] theorem State.withInputs_pend (l : List Input) : (s.withInputs l).pend = s.pend := rfl
@[simp] theorem State.withInputs_ready (l : List Input) : (s.withInputs l).ready = s.ready := rfl
@[simp] theorem State.withInputs_err (l : List Input) : (s.withInputs l).err = s.err := rfl
@[simp] theorem State.withInputs_drop (l : List Input) : (s.withInputs l).drop = s.drop := rfl
@[simp] theorem State.withInputs_errCode (l : List Input) : (s.withInputs l).errCode = s.errCode := rfl
@[simp] theorem State.withInputs_errPos (l : List Input) : (s.withInputs l).errPos = s.errPos := rfl
@[simp] theorem State.withInputs_inLen (l : List Input) : (s.withInputs l).inLen = s.inLen := rfl
@[simp] theorem State.withInputs_inBits (l : List Input) : (s.withInputs l).inBits = s.inBits := rfl
@[simp] theorem State.withInputs_origBits (l : List Input) : (s.withInputs l).origBits = s.origBits := rfl
@[simp] theorem State.withInputs_compBits (l : List Input) : (s.withInputs l).compBits = s.compBits := rfl
@[simp] theorem State.withInputs_ratio (l : List Input) : (s.withInputs l).ratio = s.ratio := rfl
@[simp] theorem State.withInputs_numSyms (l : List Input) : (s.withInputs l).numSyms = s.numSyms := rfl
@[simp] theorem State.withInputs_nodeCount (l : List Input) : (s.withInputs l).nodeCount = s.nodeCount := rfl
@[simp] theorem State.withInputs_root (l : List Input) : (s.withInputs l).root = s.root := rfl
@[simp] theorem State.withInputs_outLen (l : List Input) : (s.withInputs l).outLen = s.outLen := rfl
@[simp] theorem State.withInputs_freq (l : List Input) : (s.withInputs l).freq = s.freq := rfl
@[simp] theorem State.withInputs_codeLen (l : List Input) : (s.withInputs l).codeLen = s.codeLen := rfl
@[simp] theorem State.withInputs_code (l : List Input) : (s.withInputs l).code = s.code := rfl
@[simp] theorem State.withInputs_tree (l : List Input) : (s.withInputs l).tree = s.tree := rfl
@[simp] theorem State.withInputs_mem (l : List Input) : (s.withInputs l).mem = s.mem := rfl
@[simp] theorem State.withInputs_rdata (l : List Input) : (s.withInputs l).rdata = s.rdata := rfl
@[simp] theorem State.withInputs_draws (l : List Input) : (s.withInputs l).draws = s.draws := rfl
@[simp] theorem State.withInputs_inputs (l : List Input) : (s.withInputs l).inputs = l := rfl
@[simp] theorem State.withInputs_busy (l : List Input) : (s.withInputs l).busy = s.busy := rfl

/-! ### finish -/

@[simp] theorem State.finish_pend (out : List Symbol) : (s.finish out).pend = s.pend := rfl
@[simp] theorem State.finish_ready (out : List Symbol) : (s.finish out).ready = s.ready := rfl
@[simp] theorem State.finish_err (out : List Symbol) : (s.finish out).err = s.err := rfl
@[simp] theorem State.finish_drop (out : List Symbol) : (s.finish out).drop = s.drop := rfl
@[simp] theorem State.finish_errCode (out : List Symbol) : (s.finish out).errCode = s.errCode := rfl
@[simp] theorem State.finish_errPos (out : List Symbol) : (s.finish out).errPos = s.errPos := rfl
@[simp] theorem State.finish_inLen (out : List Symbol) : (s.finish out).inLen = s.inLen := rfl
@[simp] theorem State.finish_inBits (out : List Symbol) : (s.finish out).inBits = s.inBits := rfl
@[simp] theorem State.finish_origBits (out : List Symbol) : (s.finish out).origBits = s.origBits := rfl
@[simp] theorem State.finish_compBits (out : List Symbol) : (s.finish out).compBits = s.compBits := rfl
@[simp] theorem State.finish_ratio (out : List Symbol) : (s.finish out).ratio = s.ratio := rfl
@[simp] theorem State.finish_numSyms (out : List Symbol) : (s.finish out).numSyms = s.numSyms := rfl
@[simp] theorem State.finish_nodeCount (out : List Symbol) : (s.finish out).nodeCount = s.nodeCount := rfl
@[simp] theorem State.finish_root (out : List Symbol) : (s.finish out).root = s.root := rfl
@[simp] theorem State.finish_outLen (out : List Symbol) : (s.finish out).outLen = BitVec.ofNat 17 out.length := rfl
@[simp] theorem State.finish_freq (out : List Symbol) : (s.finish out).freq = s.freq := rfl
@[simp] theorem State.finish_codeLen (out : List Symbol) : (s.finish out).codeLen = s.codeLen := rfl
@[simp] theorem State.finish_code (out : List Symbol) : (s.finish out).code = s.code := rfl
@[simp] theorem State.finish_tree (out : List Symbol) : (s.finish out).tree = s.tree := rfl
@[simp] theorem State.finish_mem (out : List Symbol) :
    (s.finish out).mem = s.mem.store symOutBase (padSymbols out) := rfl
@[simp] theorem State.finish_rdata (out : List Symbol) : (s.finish out).rdata = s.rdata := rfl
@[simp] theorem State.finish_draws (out : List Symbol) : (s.finish out).draws = s.draws := rfl
@[simp] theorem State.finish_inputs (out : List Symbol) : (s.finish out).inputs = s.inputs := rfl
@[simp] theorem State.finish_busy (out : List Symbol) : (s.finish out).busy = s.busy := rfl

/-! ### commitText -/

@[simp] theorem State.commitText_pend (text : List Symbol) : (s.commitText text).pend = s.pend := rfl
@[simp] theorem State.commitText_ready (text : List Symbol) : (s.commitText text).ready = true := rfl
@[simp] theorem State.commitText_err (text : List Symbol) : (s.commitText text).err = s.err := rfl
@[simp] theorem State.commitText_drop (text : List Symbol) : (s.commitText text).drop = s.drop := rfl
@[simp] theorem State.commitText_errCode (text : List Symbol) : (s.commitText text).errCode = s.errCode := rfl
@[simp] theorem State.commitText_errPos (text : List Symbol) : (s.commitText text).errPos = s.errPos := rfl
@[simp] theorem State.commitText_inLen (text : List Symbol) : (s.commitText text).inLen = s.inLen := rfl
@[simp] theorem State.commitText_inBits (text : List Symbol) : (s.commitText text).inBits = s.inBits := rfl
@[simp] theorem State.commitText_origBits (text : List Symbol) :
    (s.commitText text).origBits = BitVec.ofNat 20 (8 * text.length) := rfl
@[simp] theorem State.commitText_compBits (text : List Symbol) :
    (s.commitText text).compBits = BitVec.ofNat 20 (streamOf (codesOf text) text).length := rfl
@[simp] theorem State.commitText_ratio (text : List Symbol) :
    (s.commitText text).ratio = BitVec.ofNat 23 (ratioOf (streamOf (codesOf text) text).length (8 * text.length)) := rfl
@[simp] theorem State.commitText_numSyms (text : List Symbol) :
    (s.commitText text).numSyms = BitVec.ofNat 9 (numSymsOf text) := rfl
@[simp] theorem State.commitText_nodeCount (text : List Symbol) :
    (s.commitText text).nodeCount = BitVec.ofNat 9 (2 * numSymsOf text - 1) := rfl
@[simp] theorem State.commitText_root (text : List Symbol) : (s.commitText text).root = rootOf text := rfl
@[simp] theorem State.commitText_outLen (text : List Symbol) : (s.commitText text).outLen = s.outLen := rfl
@[simp] theorem State.commitText_freq (text : List Symbol) :
    (s.commitText text).freq = tabulate 256 fun i => BitVec.ofNat 16 (countOf text (BitVec.ofNat 8 i)) := rfl
@[simp] theorem State.commitText_codeLen (text : List Symbol) :
    (s.commitText text).codeLen = tabulate 256 fun i => BitVec.ofNat 8 (codeOf (codesOf text) (BitVec.ofNat 8 i)).length := rfl
@[simp] theorem State.commitText_code (text : List Symbol) :
    (s.commitText text).code = tabulate 256 fun i => codeEntry (codeOf (codesOf text) (BitVec.ofNat 8 i)) := rfl
@[simp] theorem State.commitText_tree (text : List Symbol) : (s.commitText text).tree = treeOf text := rfl
@[simp] theorem State.commitText_mem (text : List Symbol) :
    (s.commitText text).mem = s.mem.store bitBase (packBits (streamOf (codesOf text) text)) := rfl
@[simp] theorem State.commitText_rdata (text : List Symbol) : (s.commitText text).rdata = s.rdata := rfl
@[simp] theorem State.commitText_draws (text : List Symbol) : (s.commitText text).draws = s.draws := rfl
@[simp] theorem State.commitText_inputs (text : List Symbol) : (s.commitText text).inputs = s.inputs := rfl
@[simp] theorem State.commitText_busy (text : List Symbol) : (s.commitText text).busy = s.busy := rfl

/-! ### emptyCommit -/

@[simp] theorem State.emptyCommit_pend (keep : Bool) : (s.emptyCommit keep).pend = s.pend := rfl
@[simp] theorem State.emptyCommit_ready (keep : Bool) :
    (s.emptyCommit keep).ready = if keep then s.ready else false := rfl
@[simp] theorem State.emptyCommit_err (keep : Bool) : (s.emptyCommit keep).err = s.err := rfl
@[simp] theorem State.emptyCommit_drop (keep : Bool) : (s.emptyCommit keep).drop = s.drop := rfl
@[simp] theorem State.emptyCommit_errCode (keep : Bool) : (s.emptyCommit keep).errCode = s.errCode := rfl
@[simp] theorem State.emptyCommit_errPos (keep : Bool) : (s.emptyCommit keep).errPos = s.errPos := rfl
@[simp] theorem State.emptyCommit_inLen (keep : Bool) : (s.emptyCommit keep).inLen = s.inLen := rfl
@[simp] theorem State.emptyCommit_inBits (keep : Bool) : (s.emptyCommit keep).inBits = s.inBits := rfl
@[simp] theorem State.emptyCommit_origBits (keep : Bool) : (s.emptyCommit keep).origBits = 0 := rfl
@[simp] theorem State.emptyCommit_compBits (keep : Bool) : (s.emptyCommit keep).compBits = 0 := rfl
@[simp] theorem State.emptyCommit_ratio (keep : Bool) : (s.emptyCommit keep).ratio = 0 := rfl
@[simp] theorem State.emptyCommit_numSyms (keep : Bool) : (s.emptyCommit keep).numSyms = 0 := rfl
@[simp] theorem State.emptyCommit_nodeCount (keep : Bool) :
    (s.emptyCommit keep).nodeCount = if keep then s.nodeCount else 0 := rfl
@[simp] theorem State.emptyCommit_root (keep : Bool) :
    (s.emptyCommit keep).root = if keep then s.root else 0 := rfl
@[simp] theorem State.emptyCommit_outLen (keep : Bool) : (s.emptyCommit keep).outLen = s.outLen := rfl
@[simp] theorem State.emptyCommit_freq (keep : Bool) : (s.emptyCommit keep).freq = tabulate 256 fun _ => 0 := rfl
@[simp] theorem State.emptyCommit_codeLen (keep : Bool) :
    (s.emptyCommit keep).codeLen = tabulate 256 fun _ => 0 := rfl
@[simp] theorem State.emptyCommit_code (keep : Bool) : (s.emptyCommit keep).code = tabulate 256 fun _ => 0 := rfl
@[simp] theorem State.emptyCommit_tree (keep : Bool) :
    (s.emptyCommit keep).tree = if keep then s.tree else tabulate 512 fun _ => NodeRec.zero := rfl
@[simp] theorem State.emptyCommit_mem (keep : Bool) : (s.emptyCommit keep).mem = s.mem := rfl
@[simp] theorem State.emptyCommit_rdata (keep : Bool) : (s.emptyCommit keep).rdata = s.rdata := rfl
@[simp] theorem State.emptyCommit_draws (keep : Bool) : (s.emptyCommit keep).draws = s.draws := rfl
@[simp] theorem State.emptyCommit_inputs (keep : Bool) : (s.emptyCommit keep).inputs = s.inputs := rfl
@[simp] theorem State.emptyCommit_busy (keep : Bool) : (s.emptyCommit keep).busy = s.busy := rfl

/-! ### Views -/

theorem State.busy_eq_true : s.busy = true ↔ ∃ p, s.pend = some p := by
  simp [State.busy, Option.isSome_iff_exists]

theorem State.busy_eq_false : s.busy = false ↔ s.pend = none := by
  simp [State.busy]

theorem State.busy_of_pend {p : Pending} (h : s.pend = some p) : s.busy = true := by
  simp [State.busy, h]

theorem State.busy_of_pend_none (h : s.pend = none) : s.busy = false := by
  simp [State.busy, h]

end Sys2Proof.Machine
end

