-- ==== Sys2Proof/Laws/Memory.lean ====
section
/-! SUPPORT. The laws of the data buffers: read after store, read after erase, reads of several bytes, and that every
operation keeps the canonical form. -/

namespace Sys2Proof.Machine

/-! ### Reads -/

@[simp] theorem Memory.read_nil (a : Nat) : Memory.read [] a = none := rfl

theorem Memory.read_cons (c : Host.Cell) (m : Memory) (a : Nat) :
    Memory.read (c :: m) a = if a = c.1 then some c.2 else Memory.read m a := by
  obtain ⟨x, b⟩ := c
  by_cases h : a = x
  · simp [Memory.read, h]
  · have hb : (a == x) = false := by simpa using h
    simp [Memory.read, List.lookup_cons, h, hb]

theorem Memory.read_append (m m' : Memory) (a : Nat) :
    Memory.read (m ++ m') a = (Memory.read m a).or (Memory.read m' a) := by
  induction m with
  | nil => simp
  | cons c m ih =>
    rw [List.cons_append, read_cons, read_cons, ih]
    split <;> simp

theorem Memory.read_filter (m : Memory) (p : Nat → Bool) (a : Nat) :
    Memory.read (m.filter fun c => p c.1) a = if p a then Memory.read m a else none := by
  induction m with
  | nil => simp
  | cons c m ih =>
    by_cases hc : p c.1 = true
    · rw [List.filter_cons_of_pos (by simpa using hc), read_cons, read_cons, ih]
      by_cases ha : a = c.1
      · subst ha; simp [hc]
      · simp [ha]
    · rw [List.filter_cons_of_neg (by simpa using hc), read_cons, ih]
      by_cases ha : a = c.1
      · subst ha; simp [hc]
      · simp [ha]

theorem Memory.read_cells (base : Nat) (bs : List Byte) (a : Nat) :
    Memory.read (Memory.cells base bs) a =
      if base ≤ a ∧ a < base + bs.length then bs[a - base]? else none := by
  induction bs generalizing base with
  | nil => simp [Memory.cells]
  | cons b bs ih =>
    rw [Memory.cells, read_cons, ih]
    by_cases ha : a = base
    · subst ha; simp
    · by_cases h : base + 1 ≤ a ∧ a < base + 1 + bs.length
      · have h' : base ≤ a ∧ a < base + (bs.length + 1) := by omega
        have e : a - base = (a - (base + 1)) + 1 := by omega
        simp [ha, h, h', e]
      · have h' : ¬ (base ≤ a ∧ a < base + (bs.length + 1)) := by omega
        rw [if_neg h, if_neg ha, List.length_cons, if_neg h']

/-- Read after store: a stored byte reads as stored, and every other address reads as before. -/
theorem Memory.read_store (m : Memory) (base : Nat) (bs : List Byte) (a : Nat) :
    (m.store base bs).read a =
      if base ≤ a ∧ a < base + bs.length then bs[a - base]? else m.read a := by
  rw [Memory.store, read_append, read_append, read_cells,
    read_filter m (fun x => decide (x < base)), read_filter m (fun x => decide (base + bs.length ≤ x))]
  by_cases h1 : a < base
  · have h2 : ¬ (base ≤ a ∧ a < base + bs.length) := by omega
    have h3 : ¬ base + bs.length ≤ a := by omega
    simp [h1, h2, h3]
  · by_cases h2 : a < base + bs.length
    · have h3 : ¬ base + bs.length ≤ a := by omega
      have h4 : a - base < bs.length := by omega
      have h5 : base ≤ a := by omega
      simp [h1, h2, h3, h5, List.getElem?_eq_getElem h4]
    · have h3 : base + bs.length ≤ a := by omega
      simp [h1, h2, h3]

/-- A store leaves every address outside the stored bytes alone. -/
theorem Memory.read_store_outside (m : Memory) (base : Nat) (bs : List Byte) (a : Nat)
    (h : a < base ∨ base + bs.length ≤ a) : (m.store base bs).read a = m.read a := by
  have : ¬ (base ≤ a ∧ a < base + bs.length) := by omega
  rw [read_store, if_neg this]

/-- A stored byte reads as stored. -/
theorem Memory.read_store_inside (m : Memory) (base : Nat) (bs : List Byte) (k : Nat) (h : k < bs.length) :
    (m.store base bs).read (base + k) = some bs[k] := by
  have h1 : base ≤ base + k ∧ base + k < base + bs.length := by omega
  have h2 : base + k - base = k := by omega
  rw [read_store, if_pos h1, h2, List.getElem?_eq_getElem h]

/-- Read after erase. -/
theorem Memory.read_erase (m : Memory) (base n a : Nat) :
    (m.erase base n).read a = if base ≤ a ∧ a < base + n then none else m.read a := by
  rw [Memory.erase, read_append, read_filter m (fun x => decide (x < base)),
    read_filter m (fun x => decide (base + n ≤ x))]
  by_cases h1 : a < base
  · have h2 : ¬ (base ≤ a ∧ a < base + n) := by omega
    have h3 : ¬ base + n ≤ a := by omega
    simp [h1, h2, h3]
  · by_cases h2 : a < base + n
    · have h3 : ¬ base + n ≤ a := by omega
      have h5 : base ≤ a := by omega
      simp [h1, h2, h3, h5]
    · have h3 : base + n ≤ a := by omega
      simp [h1, h2, h3]

/-! ### The canonical form -/

theorem Memory.mem_cells {base : Nat} {bs : List Byte} {c : Host.Cell} (h : c ∈ Memory.cells base bs) :
    base ≤ c.1 ∧ c.1 < base + bs.length := by
  induction bs generalizing base with
  | nil => simp [Memory.cells] at h
  | cons b bs ih =>
    rcases List.mem_cons.1 h with rfl | h
    · simp
    · have := ih h
      simp only [List.length_cons]
      omega

theorem Memory.wf_cells (base : Nat) (bs : List Byte) : (Memory.cells base bs).wf := by
  induction bs generalizing base with
  | nil => simp [Memory.wf, Memory.cells]
  | cons b bs ih =>
    simp only [Memory.wf, Memory.cells, List.map_cons, List.pairwise_cons]
    refine ⟨?_, ih (base + 1)⟩
    intro x hx
    obtain ⟨c, hc, rfl⟩ := List.mem_map.1 hx
    have := mem_cells hc
    omega

theorem Memory.wf_filter {m : Memory} (h : m.wf) (p : Host.Cell → Bool) : Memory.wf (m.filter p) :=
  h.sublist (List.filter_sublist.map Prod.fst)

theorem Memory.wf_append {m m' : Memory} (h : m.wf) (h' : m'.wf)
    (hlt : ∀ c ∈ m, ∀ c' ∈ m', c.1 < c'.1) : Memory.wf (m ++ m') := by
  simp only [Memory.wf, List.map_append, List.pairwise_append]
  refine ⟨h, h', ?_⟩
  intro x hx y hy
  obtain ⟨c, hc, rfl⟩ := List.mem_map.1 hx
  obtain ⟨c', hc', rfl⟩ := List.mem_map.1 hy
  exact hlt c hc c' hc'

/-- A store keeps the canonical form. -/
theorem Memory.wf_store {m : Memory} (h : m.wf) (base : Nat) (bs : List Byte) : (m.store base bs).wf := by
  refine wf_append (wf_append (wf_filter h _) (wf_cells base bs) ?_) (wf_filter h _) ?_
  · intro c hc c' hc'
    have h1 := (List.mem_filter.1 hc).2
    have h2 := mem_cells hc'
    simp only [decide_eq_true_eq] at h1
    omega
  · intro c hc c' hc'
    have h2 := (List.mem_filter.1 hc').2
    simp only [decide_eq_true_eq] at h2
    rcases List.mem_append.1 hc with hc | hc
    · have h1 := (List.mem_filter.1 hc).2
      simp only [decide_eq_true_eq] at h1
      omega
    · have h1 := mem_cells hc
      omega

/-- An erase keeps the canonical form. -/
theorem Memory.wf_erase {m : Memory} (h : m.wf) (base n : Nat) : (m.erase base n).wf := by
  refine wf_append (wf_filter h _) (wf_filter h _) ?_
  intro c hc c' hc'
  have h1 := (List.mem_filter.1 hc).2
  have h2 := (List.mem_filter.1 hc').2
  simp only [decide_eq_true_eq] at h1 h2
  omega

/-- Memories in canonical form that read alike are equal. -/
theorem Memory.ext_of_wf {m m' : Memory} (h : m.wf) (h' : m'.wf) (hr : ∀ a, m.read a = m'.read a) : m = m' := by
  have below : ∀ {c : Host.Cell} {m : Memory}, Memory.wf (c :: m) → ∀ a, a ≤ c.1 → Memory.read m a = none := by
    intro c m hwf a ha
    induction m with
    | nil => rfl
    | cons d m ih =>
      simp only [Memory.wf, List.map_cons, List.pairwise_cons] at hwf ih
      have hd : c.1 < d.1 := hwf.1 _ (by simp)
      rw [read_cons, if_neg (by omega)]
      exact ih ⟨fun x hx => hwf.1 x (by simp [hx]), hwf.2.2⟩
  induction m generalizing m' with
  | nil =>
    cases m' with
    | nil => rfl
    | cons d m' => simpa [read_cons] using hr d.1
  | cons c m ih =>
    cases m' with
    | nil => simpa [read_cons] using hr c.1
    | cons d m' =>
      have e1 : c.1 = d.1 := by
        have hc := hr c.1
        have hd := hr d.1
        rcases Nat.lt_trichotomy c.1 d.1 with hlt | heq | hgt
        · rw [read_cons, read_cons, if_pos rfl, if_neg (by omega), below h' _ (by omega)] at hc
          simp at hc
        · exact heq
        · rw [read_cons, read_cons, if_pos rfl, if_neg (by omega), below h _ (by omega)] at hd
          simp at hd
      have e2 : c.2 = d.2 := by
        have hc := hr c.1
        rw [read_cons, read_cons, if_pos rfl, if_pos e1] at hc
        simpa using hc
      have e3 : m = m' := by
        have hm : Memory.wf m := (List.pairwise_cons.1 h).2
        have hm' : Memory.wf m' := (List.pairwise_cons.1 h').2
        refine ih hm hm' fun a => ?_
        by_cases ha : a ≤ c.1
        · rw [below h a ha, below h' a (by omega)]
        · have hc := hr a
          rw [read_cons, read_cons, if_neg (by omega), if_neg (by omega)] at hc
          exact hc
      rw [e3, Prod.ext e1 e2]

/-! ### Reads of several bytes -/

/-- `readBytes` answers exactly the bytes that stand there. -/
theorem Memory.readBytes_eq_ok {m : Memory} {base n : Nat} {bs : List Byte} :
    m.readBytes base n = .ok bs ↔
      bs.length = n ∧ ∀ k, (h : k < bs.length) → m.read (base + k) = some bs[k] := by
  induction n generalizing base bs with
  | zero => cases bs <;> simp [Memory.readBytes]
  | succ n ih =>
    rw [Memory.readBytes]
    cases hb : m.read base with
    | none =>
      simp only [reduceCtorEq, false_iff, not_and]
      intro hl hall
      have := hall 0 (by omega)
      simp [hb] at this
    | some b =>
      cases hr : m.readBytes (base + 1) n with
      | error a =>
        simp only [reduceCtorEq, false_iff, not_and]
        intro hl hall
        cases bs with
        | nil => simp at hl
        | cons c cs =>
          have hok : m.readBytes (base + 1) n = .ok cs := by
            rw [ih]
            refine ⟨by simpa using hl, fun k hk => ?_⟩
            have := hall (k + 1) (by simpa using hk)
            rw [show base + 1 + k = base + (k + 1) by omega, this]
            simp
          rw [hr] at hok
          simp at hok
      | ok cs =>
        have hcs := ih.1 hr
        constructor
        · intro h
          obtain rfl : b :: cs = bs := by simpa using h
          refine ⟨by simp [hcs.1], fun k hk => ?_⟩
          cases k with
          | zero => simpa using hb
          | succ k =>
            have := hcs.2 k (by simpa using hk)
            rw [show base + (k + 1) = base + 1 + k by omega, this]
            simp
        · rintro ⟨hl, hall⟩
          cases bs with
          | nil => simp at hl
          | cons c ds =>
            have h0 : some b = some c := by
              have := hall 0 (by simp)
              rw [Nat.add_zero, hb] at this
              simpa using this
            have hok : m.readBytes (base + 1) n = .ok ds := by
              rw [ih]
              refine ⟨by simpa using hl, fun k hk => ?_⟩
              have := hall (k + 1) (by simpa using hk)
              rw [show base + 1 + k = base + (k + 1) by omega, this]
              simp
            rw [hr] at hok
            simp only [Option.some.injEq] at h0
            simp only [Except.ok.injEq] at hok
            rw [h0, hok]

/-- `readBytes` stops at the first byte that nothing has written. -/
theorem Memory.readBytes_eq_error {m : Memory} {base n a : Nat} :
    m.readBytes base n = .error a ↔
      base ≤ a ∧ a < base + n ∧ m.read a = none ∧ ∀ b, base ≤ b → b < a → (m.read b).isSome := by
  induction n generalizing base with
  | zero =>
    simp only [Memory.readBytes, reduceCtorEq, false_iff]
    omega
  | succ n ih =>
    rw [Memory.readBytes]
    cases hb : m.read base with
    | none =>
      simp only [Except.error.injEq]
      constructor
      · rintro rfl
        exact ⟨Nat.le_refl _, by omega, hb, fun b h1 h2 => by omega⟩
      · rintro ⟨h1, h2, h3, h4⟩
        by_contra hne
        have := h4 base (Nat.le_refl _) (by omega)
        simp [hb] at this
    | some c =>
      have key : (base ≤ a ∧ a < base + (n + 1) ∧ m.read a = none ∧ ∀ b, base ≤ b → b < a → (m.read b).isSome) ↔
          m.readBytes (base + 1) n = .error a := by
        rw [ih]
        constructor
        · rintro ⟨h1, h2, h3, h4⟩
          have hne : a ≠ base := by rintro rfl; simp [hb] at h3
          exact ⟨by omega, by omega, h3, fun b hb1 hb2 => h4 b (by omega) hb2⟩
        · rintro ⟨h1, h2, h3, h4⟩
          refine ⟨by omega, by omega, h3, fun b hb1 hb2 => ?_⟩
          by_cases hbb : b = base
          · subst hbb; simp [hb]
          · exact h4 b (by omega) hb2
      rw [key]
      cases hr : m.readBytes (base + 1) n <;> simp

/-- `readBytes` answers in one of the two ways. -/
theorem Memory.readBytes_cases (m : Memory) (base n : Nat) :
    (∃ bs, m.readBytes base n = .ok bs ∧ bs.length = n) ∨ ∃ a, m.readBytes base n = .error a := by
  cases h : m.readBytes base n with
  | ok bs => exact .inl ⟨bs, rfl, (readBytes_eq_ok.1 h).1⟩
  | error a => exact .inr ⟨a, rfl⟩

/-- A text stands in SYMBUF_IN exactly when ENCODE reads it there. -/
theorem readBytes_text {m : Memory} {text : List Symbol} :
    m.readBytes symInBase text.length = .ok text ↔ TextAt m text := by
  rw [Memory.readBytes_eq_ok]
  simp [TextAt]

theorem Memory.readWord_eq_ok {m : Memory} {base : Nat} {b0 b1 b2 b3 : Byte} (h0 : m.read base = some b0)
    (h1 : m.read (base + 1) = some b1) (h2 : m.read (base + 2) = some b2) (h3 : m.read (base + 3) = some b3) :
    m.readWord base = .ok (wordOfBytes b0 b1 b2 b3) := by
  have : m.readBytes base 4 = .ok [b0, b1, b2, b3] := by
    simp [Memory.readBytes, h0, h1, h2, h3]
  rw [Memory.readWord, this]

theorem Memory.readWord_eq_error {m : Memory} {base a : Nat} :
    m.readWord base = .error a ↔ m.readBytes base 4 = .error a := by
  rw [Memory.readWord]
  rcases readBytes_cases m base 4 with ⟨bs, h, hl⟩ | ⟨e, h⟩
  · match bs, hl with
    | [b0, b1, b2, b3], _ => simp [h]
  · simp [h]

end Sys2Proof.Machine
end

