-- ==== Sys2Proof/Laws/Pack.lean ====
section
/-! SUPPORT. The laws of packing: bits in numbers, bytes and words, pads, and what BITBUF and SYMBUF_OUT read as after
a pack. -/

namespace Sys2Proof.Machine

/-! ### Bits in numbers -/

@[simp] theorem testBit_natOfBits (bs : List Bool) (j : Nat) : (natOfBits bs).testBit j = bs.getD j false := by
  induction bs generalizing j with
  | nil => simp [natOfBits]
  | cons b bs ih =>
    cases j with
    | zero => cases b <;> simp [natOfBits, Nat.testBit_zero]
    | succ j =>
      rw [Nat.testBit_succ, List.getD_cons_succ, ← ih]
      congr 1
      cases b <;> (simp [natOfBits]; try omega)

@[simp] theorem getLsbD_byteOfBits (bs : List Bool) (j : Nat) :
    (byteOfBits bs).getLsbD j = (decide (j < 8) && bs.getD j false) := by
  simp [byteOfBits, BitVec.getLsbD_ofNat]

@[simp] theorem getLsbD_codeEntry (bs : List Bool) (j : Nat) :
    (codeEntry bs).getLsbD j = (decide (j < 256) && bs.getD j false) := by
  simp [codeEntry, BitVec.getLsbD_ofNat]

/-! ### Bits in bytes -/

@[simp] theorem length_bytesOfBits (n : Nat) (bits : List Bool) : (bytesOfBits n bits).length = n := by
  induction n generalizing bits with
  | zero => rfl
  | succ n ih => simp [bytesOfBits, ih]

theorem getElem_bytesOfBits (n : Nat) (bits : List Bool) (k : Nat) (h : k < (bytesOfBits n bits).length) :
    (bytesOfBits n bits)[k] = byteOfBits ((bits.drop (8 * k)).take 8) := by
  induction n generalizing bits k with
  | zero => simp [bytesOfBits] at h
  | succ n ih =>
    cases k with
    | zero => simp [bytesOfBits]
    | succ k =>
      have hk : k < (bytesOfBits n (bits.drop 8)).length := by simpa using h
      simp only [bytesOfBits, List.getElem_cons_succ]
      rw [ih _ _ hk, List.drop_drop, show 8 + 8 * k = 8 * (k + 1) by omega]

/-! ### Pads -/

theorem add_padLength (m n : Nat) (hm : 0 < m) : (n + padLength m n) % m = 0 := by
  have h1 := Nat.mod_lt n hm
  have h2 := Nat.div_add_mod n m
  rw [padLength]
  by_cases h0 : n % m = 0
  · simp [h0]
  · rw [Nat.mod_eq_of_lt (a := m - n % m) (by omega)]
    have : n + (m - n % m) = m * (n / m + 1) := by
      rw [Nat.mul_add]; omega
    rw [this, Nat.mul_mod_right]

theorem length_padBits (bits : List Bool) : (padBits bits).length = 8 * bitWordBytes bits.length := by
  have h : bits.length + padLength 32 bits.length = 32 * ((bits.length + 31) / 32) := by
    rw [padLength]; omega
  rw [padBits, List.length_append, List.length_replicate, h, bitWordBytes]
  omega

theorem length_padSymbols (out : List Symbol) : (padSymbols out).length = wordBytes out.length := by
  rw [padSymbols, List.length_append, List.length_replicate, padLength, wordBytes]
  omega

theorem getD_padBits (bits : List Bool) (i : Nat) : (padBits bits).getD i false = bits.getD i false := by
  rw [padBits]
  by_cases h : i < bits.length
  · simp [List.getElem?_append_left h]
  · rw [List.getD_eq_getElem?_getD, List.getD_eq_getElem?_getD, List.getElem?_append_right (by omega),
      List.getElem?_replicate]
    rw [List.getElem?_eq_none (l := bits) (by omega)]
    split <;> rfl

@[simp] theorem length_packBits (bits : List Bool) : (packBits bits).length = bitWordBytes bits.length := by
  rw [packBits, length_bytesOfBits, length_padBits]
  omega

theorem wordBytes_ge (n : Nat) : n ≤ wordBytes n := by
  rw [wordBytes]; omega

theorem bitWordBytes_ge (n : Nat) : n ≤ 8 * bitWordBytes n := by
  rw [bitWordBytes]; omega

/-! ### BITBUF after a pack -/

/-- A stored bit-string and its pad read back bit by bit. -/
theorem readBit_store_packBits (m : Memory) (bits : List Bool) (i : Nat) (h : i < 8 * bitWordBytes bits.length) :
    (m.store bitBase (packBits bits)).readBit i = some (bits.getD i false) := by
  have hk : i / 8 < (packBits bits).length := by rw [length_packBits]; omega
  rw [Memory.readBit, bitAddr, Memory.read_store_inside _ _ _ _ hk]
  simp only [Option.map_some, packBits]
  rw [getElem_bytesOfBits, getLsbD_byteOfBits]
  have h8 : i % 8 < 8 := Nat.mod_lt _ (by omega)
  have e : 8 * (i / 8) + i % 8 = i := by omega
  rw [List.getD_eq_getElem?_getD, List.getElem?_take_of_lt h8, List.getElem?_drop, e, ← List.getD_eq_getElem?_getD,
    getD_padBits]
  simp [h8]

/-- The bits of a memory that agrees elsewhere. -/
theorem readBit_congr {m m' : Memory} {i : Nat} (h : m'.read (bitAddr i) = m.read (bitAddr i)) :
    m'.readBit i = m.readBit i := by
  rw [Memory.readBit, Memory.readBit, h]

/-! ### Words and their bytes -/

theorem length_bytesOfWord (v : Word) : (bytesOfWord v).length = 4 := rfl

theorem getElem_bytesOfWord (v : Word) (k : Nat) (h : k < (bytesOfWord v).length) :
    (bytesOfWord v)[k] = v.extractLsb' (8 * k) 8 := by
  rw [length_bytesOfWord] at h
  match k, h with
  | 0, _ => rfl
  | 1, _ => rfl
  | 2, _ => rfl
  | 3, _ => rfl

theorem getLsbD_wordOfBytes (b0 b1 b2 b3 : Byte) (j : Nat) (h : j < 32) :
    (wordOfBytes b0 b1 b2 b3).getLsbD j = ([b0, b1, b2, b3].getD (j / 8) 0).getLsbD (j % 8) := by
  simp only [wordOfBytes, BitVec.getLsbD_append]
  rcases (show j / 8 = 0 ∨ j / 8 = 1 ∨ j / 8 = 2 ∨ j / 8 = 3 by omega) with e | e | e | e
  · have : j % 8 = j := by omega
    simp [e, this, show j < 8 by omega]
  · have h1 : j % 8 = j - 8 := by omega
    simp [e, h1, show ¬ j < 8 by omega, show j - 8 < 8 by omega]
  · have h1 : j % 8 = j - 8 - 8 := by omega
    simp [e, h1, show ¬ j < 8 by omega, show ¬ j - 8 < 8 by omega, show j - 8 - 8 < 8 by omega]
  · have h1 : j % 8 = j - 8 - 8 - 8 := by omega
    simp [e, h1, show ¬ j < 8 by omega, show ¬ j - 8 < 8 by omega, show ¬ j - 8 - 8 < 8 by omega]

theorem wordOfBytes_bytesOfWord (v : Word) :
    wordOfBytes (byteOfWord v 0) (byteOfWord v 1) (byteOfWord v 2) (byteOfWord v 3) = v := by
  apply BitVec.eq_of_getLsbD_eq
  intro j hj
  rw [getLsbD_wordOfBytes _ _ _ _ _ hj]
  rcases (show j / 8 = 0 ∨ j / 8 = 1 ∨ j / 8 = 2 ∨ j / 8 = 3 by omega) with e | e | e | e <;>
    simp [e, byteOfWord, show j % 8 < 8 by omega] <;> congr 1 <;> omega

end Sys2Proof.Machine
end

