-- ==== Sys2Proof/Laws/Exec.lean ====
section
/-! SUPPORT. What a transaction, a completion step and a step can do, said once: the inversion lemmas the proofs cite, and
the equations of each meaning. -/

namespace Sys2Proof.Machine

/-! ### The address map -/

/-- The kinds of address above the register block, one range at a time. -/
theorem targetAt_cases (a : Nat) :
    (a < 0x0400 ∧ targetAt a = registerAt a)
      ∨ (0x0400 ≤ a ∧ a < 0x0500 ∧ targetAt a = .freq (a - 0x0400))
      ∨ (0x0500 ≤ a ∧ a < 0x0600 ∧ targetAt a = .codeLen (a - 0x0500))
      ∨ (0x0600 ≤ a ∧ a < 0x0800 ∧ targetAt a = .unmapped)
      ∨ (0x0800 ≤ a ∧ a < 0x1000 ∧ targetAt a = .code ((a - 0x0800) / 8) ((a - 0x0800) % 8))
      ∨ (0x1000 ≤ a ∧ a < 0x1400 ∧ targetAt a = .tree ((a - 0x1000) / 2) ((a - 0x1000) % 2))
      ∨ (0x1400 ≤ a ∧ a < 0x4000 ∧ targetAt a = .unmapped)
      ∨ (0x4000 ≤ a ∧ a < 0x8000 ∧ targetAt a = .symIn)
      ∨ (0x8000 ≤ a ∧ a < 0xC000 ∧ targetAt a = .bitBuf)
      ∨ (0xC000 ≤ a ∧ targetAt a = .symOut) := by
  unfold targetAt
  by_cases h1 : a < 0x0400
  · rw [if_pos h1]; exact .inl ⟨h1, rfl⟩
  rw [if_neg h1]
  by_cases h2 : a < 0x0500
  · rw [if_pos h2]; exact .inr (.inl ⟨by omega, h2, rfl⟩)
  rw [if_neg h2]
  by_cases h3 : a < 0x0600
  · rw [if_pos h3]; exact .inr (.inr (.inl ⟨by omega, h3, rfl⟩))
  rw [if_neg h3]
  by_cases h4 : a < 0x0800
  · rw [if_pos h4]; exact .inr (.inr (.inr (.inl ⟨by omega, h4, rfl⟩)))
  rw [if_neg h4]
  by_cases h5 : a < 0x1000
  · rw [if_pos h5]; exact .inr (.inr (.inr (.inr (.inl ⟨by omega, h5, rfl⟩))))
  rw [if_neg h5]
  by_cases h6 : a < 0x1400
  · rw [if_pos h6]; exact .inr (.inr (.inr (.inr (.inr (.inl ⟨by omega, h6, rfl⟩)))))
  rw [if_neg h6]
  by_cases h7 : a < 0x4000
  · rw [if_pos h7]; exact .inr (.inr (.inr (.inr (.inr (.inr (.inl ⟨by omega, h7, rfl⟩))))))
  rw [if_neg h7]
  by_cases h8 : a < 0x8000
  · rw [if_pos h8]; exact .inr (.inr (.inr (.inr (.inr (.inr (.inr (.inl ⟨by omega, h8, rfl⟩)))))))
  rw [if_neg h8]
  by_cases h9 : a < 0xC000
  · rw [if_pos h9]; exact .inr (.inr (.inr (.inr (.inr (.inr (.inr (.inr (.inl ⟨by omega, h9, rfl⟩))))))))
  rw [if_neg h9]
  exact .inr (.inr (.inr (.inr (.inr (.inr (.inr (.inr (.inr ⟨by omega, rfl⟩))))))))

/-- The register block holds twelve registers. -/
theorem registerAt_cases (a : Nat) :
    (a = 0 ∧ registerAt a = .cmd) ∨ (a = 1 ∧ registerAt a = .status) ∨ (a = 2 ∧ registerAt a = .inLen)
      ∨ (a = 3 ∧ registerAt a = .inBits) ∨ (a = 4 ∧ registerAt a = .origBits)
      ∨ (a = 5 ∧ registerAt a = .compBits) ∨ (a = 6 ∧ registerAt a = .ratio)
      ∨ (a = 7 ∧ registerAt a = .numSyms) ∨ (a = 8 ∧ registerAt a = .nodeCount)
      ∨ (a = 9 ∧ registerAt a = .root) ∨ (a = 10 ∧ registerAt a = .outLen)
      ∨ (a = 11 ∧ registerAt a = .errPos) ∨ (12 ≤ a ∧ registerAt a = .unmapped) := by
  match a with
  | 0 | 1 | 2 | 3 | 4 | 5 | 6 | 7 | 8 | 9 | 10 | 11 => simp [registerAt]
  | n + 12 => simp [registerAt]

theorem target_eq_symIn {w : WordAddr} : target w = .symIn ↔ 0x4000 ≤ w.toNat ∧ w.toNat < 0x8000 := by
  rw [target]
  rcases targetAt_cases w.toNat with ⟨h1, h⟩ | ⟨h1, h2, h⟩ | ⟨h1, h2, h⟩ | ⟨h1, h2, h⟩ | ⟨h1, h2, h⟩ | ⟨h1, h2, h⟩ |
    ⟨h1, h2, h⟩ | ⟨h1, h2, h⟩ | ⟨h1, h2, h⟩ | ⟨h1, h⟩ <;> rw [h]
  · rcases registerAt_cases w.toNat with h' | h' | h' | h' | h' | h' | h' | h' | h' | h' | h' | h' | h' <;>
      (rw [h'.2]; simp; omega)
  all_goals simp; omega

theorem target_eq_bitBuf {w : WordAddr} : target w = .bitBuf ↔ 0x8000 ≤ w.toNat ∧ w.toNat < 0xC000 := by
  rw [target]
  rcases targetAt_cases w.toNat with ⟨h1, h⟩ | ⟨h1, h2, h⟩ | ⟨h1, h2, h⟩ | ⟨h1, h2, h⟩ | ⟨h1, h2, h⟩ | ⟨h1, h2, h⟩ |
    ⟨h1, h2, h⟩ | ⟨h1, h2, h⟩ | ⟨h1, h2, h⟩ | ⟨h1, h⟩ <;> rw [h]
  · rcases registerAt_cases w.toNat with h' | h' | h' | h' | h' | h' | h' | h' | h' | h' | h' | h' | h' <;>
      (rw [h'.2]; simp; omega)
  all_goals simp; omega

theorem target_eq_symOut {w : WordAddr} : target w = .symOut ↔ 0xC000 ≤ w.toNat := by
  rw [target]
  rcases targetAt_cases w.toNat with ⟨h1, h⟩ | ⟨h1, h2, h⟩ | ⟨h1, h2, h⟩ | ⟨h1, h2, h⟩ | ⟨h1, h2, h⟩ | ⟨h1, h2, h⟩ |
    ⟨h1, h2, h⟩ | ⟨h1, h2, h⟩ | ⟨h1, h2, h⟩ | ⟨h1, h⟩ <;> rw [h]
  · rcases registerAt_cases w.toNat with h' | h' | h' | h' | h' | h' | h' | h' | h' | h' | h' | h' | h' <;>
      (rw [h'.2]; simp; omega)
  all_goals simp; omega

theorem target_eq_unmapped {w : WordAddr} : target w = .unmapped ↔
    (0x000C ≤ w.toNat ∧ w.toNat < 0x0400) ∨ (0x0600 ≤ w.toNat ∧ w.toNat < 0x0800)
      ∨ (0x1400 ≤ w.toNat ∧ w.toNat < 0x4000) := by
  rw [target]
  rcases targetAt_cases w.toNat with ⟨h1, h⟩ | ⟨h1, h2, h⟩ | ⟨h1, h2, h⟩ | ⟨h1, h2, h⟩ | ⟨h1, h2, h⟩ | ⟨h1, h2, h⟩ |
    ⟨h1, h2, h⟩ | ⟨h1, h2, h⟩ | ⟨h1, h2, h⟩ | ⟨h1, h⟩ <;> rw [h]
  · rcases registerAt_cases w.toNat with h' | h' | h' | h' | h' | h' | h' | h' | h' | h' | h' | h' | h' <;>
      (rw [h'.2]; simp; omega)
  all_goals simp; omega

/-! ### What a transaction can do -/

/-- Everything one host bus transaction can do to the state. -/
inductive TransactionEffect (s : State) : State → Prop where
  /-- NOP, or a write that is ignored, while idle. -/
  | unchanged : s.busy = false → TransactionEffect s s
  /-- A write while busy. -/
  | dropped : s.busy = true → TransactionEffect s s.dropWrite
  /-- A command refused at issue. -/
  | rejected (c : ErrorCode) : s.busy = false → c ≠ .none → TransactionEffect s (s.reject c)
  /-- ENCODE accepted. -/
  | acceptedEncode (len : BitVec 16) : s.busy = false → s.inLen.toNat = len.toNat →
      TransactionEffect s (s.accept (.encode len))
  /-- DECODE accepted. -/
  | acceptedDecode (bits : BitVec 20) : s.busy = false → s.inBits.toNat = bits.toNat →
      bits.toNat ≤ Config.bitbufBits → TransactionEffect s (s.accept (.decode bits))
  /-- A read while idle. -/
  | readIdle (v : Word) : s.busy = false → TransactionEffect s (s.returnData v)
  /-- A read while busy. -/
  | readBusy (v : Word) : s.busy = true → TransactionEffect s (s.returnData v).nextDraw
  /-- A write to IN_LEN. -/
  | wroteInLen (v : Word) : s.busy = false → TransactionEffect s (s.setInLen v)
  /-- A write to IN_BITS. -/
  | wroteInBits (v : Word) : s.busy = false → TransactionEffect s (s.setInBits v)
  /-- A write to SYMBUF_IN or BITBUF. -/
  | stored (w : WordAddr) (v : Word) : s.busy = false → 0x4000 ≤ w.toNat → w.toNat < 0xC000 →
      TransactionEffect s (s.storeBytes (byteAddr w) (bytesOfWord v))

theorem execNop_effect {s t : State} (h : execNop s = .next t) : TransactionEffect s t := by
  rw [execNop] at h
  split at h
  · obtain rfl := Host.Outcome.next.inj h
    exact .dropped ‹_›
  · obtain rfl := Host.Outcome.next.inj h
    exact .unchanged (by simpa using ‹¬ s.busy = true›)

theorem execEncode_effect {s t : State} (h : execEncode s = .next t) : TransactionEffect s t := by
  rw [execEncode] at h
  split at h
  · obtain rfl := Host.Outcome.next.inj h
    exact .dropped ‹_›
  · rename_i hb
    have hb : s.busy = false := by simpa using hb
    split at h
    · obtain rfl := Host.Outcome.next.inj h
      exact .rejected _ hb (by simp)
    · rename_i hl
      obtain rfl := Host.Outcome.next.inj h
      refine .acceptedEncode _ hb ?_
      rw [Config.maxLen] at hl
      rw [BitVec.extractLsb'_toNat]
      omega

theorem execDecode_effect {s t : State} (h : execDecode s = .next t) : TransactionEffect s t := by
  rw [execDecode] at h
  split at h
  · obtain rfl := Host.Outcome.next.inj h
    exact .dropped ‹_›
  · rename_i hb
    have hb : s.busy = false := by simpa using hb
    split at h
    · obtain rfl := Host.Outcome.next.inj h
      exact .rejected _ hb (by simp)
    · rename_i hl
      obtain rfl := Host.Outcome.next.inj h
      rw [Config.bitbufBits] at hl
      have e : (s.inBits.extractLsb' 0 20).toNat = s.inBits.toNat := by
        rw [BitVec.extractLsb'_toNat]
        omega
      refine .acceptedDecode _ hb e.symm ?_
      rw [e, Config.bitbufBits]
      omega

theorem issueCmd_effect {v : Word} {s t : State} (h : issueCmd v s = .next t) : TransactionEffect s t := by
  rw [issueCmd] at h
  split at h
  · exact execNop_effect h
  · exact execEncode_effect h
  · exact execDecode_effect h
  · rw [issueIllegal] at h
    split at h
    · obtain rfl := Host.Outcome.next.inj h
      exact .dropped ‹_›
    · obtain rfl := Host.Outcome.next.inj h
      exact .rejected _ (by simpa using ‹¬ s.busy = true›) (by simp)

theorem writeTarget_effect {w : WordAddr} {v : Word} {s : State} (hb : s.busy = false) :
    TransactionEffect s (writeTarget w v s) := by
  rw [writeTarget]
  split
  · exact .wroteInLen v hb
  · exact .wroteInBits v hb
  · rename_i h
    have := target_eq_symIn.1 h
    exact .stored w v hb this.1 (by omega)
  · rename_i h
    have := target_eq_bitBuf.1 h
    exact .stored w v hb (by omega) this.2
  all_goals exact .unchanged hb

theorem execBusWr_effect {w : WordAddr} {v : Word} {s t : State} (h : execBusWr w v s = .next t) :
    TransactionEffect s t := by
  rw [execBusWr] at h
  split at h
  · exact issueCmd_effect h
  · split at h
    · obtain rfl := Host.Outcome.next.inj h
      exact .dropped ‹_›
    · obtain rfl := Host.Outcome.next.inj h
      exact writeTarget_effect (Bool.not_eq_true _ ▸ ‹¬ s.busy = true›)

theorem readView_next {w : WordAddr} {s t : State} (h : readView w s = .next t) :
    ∃ v, view w s = .ok v ∧ t = s.returnData v := by
  rw [readView] at h
  split at h
  · exact nomatch h
  · exact ⟨_, ‹_›, (Host.Outcome.next.inj h).symm⟩

/-- BUS_RD changes nothing but the model's own fields. -/
theorem execBusRd_next {w : WordAddr} {d : Word} {s t : State} (h : execBusRd w d s = .next t) :
    ∃ v, t = if s.busy then (s.returnData v).nextDraw else s.returnData v := by
  rw [execBusRd] at h
  split at h
  · have := Host.Outcome.next.inj h
    exact ⟨_, this.symm⟩
  · cases hr : readView w s with
    | next u =>
      obtain ⟨v, -, rfl⟩ := readView_next hr
      rw [hr] at h
      exact ⟨v, (Host.Outcome.next.inj h).symm⟩
    | fault r => rw [hr] at h; exact nomatch h
    | refused r => rw [hr] at h; exact nomatch h

theorem execBusRd_effect {w : WordAddr} {d : Word} {s t : State} (h : execBusRd w d s = .next t) :
    TransactionEffect s t := by
  obtain ⟨v, rfl⟩ := execBusRd_next h
  cases hb : s.busy
  · exact .readIdle v hb
  · exact .readBusy v hb

/-- A transaction that is answered has one of the listed effects. -/
theorem exec_effect {i : Instr} {s t : State} (h : exec i s = .next t) : TransactionEffect s t := by
  cases i with
  | nop => exact execNop_effect h
  | encode => exact execEncode_effect h
  | decode => exact execDecode_effect h
  | busRd w d => exact execBusRd_effect (d := d) h
  | busWr w v => exact execBusWr_effect h

/-! ### When a transaction stops -/

theorem issueCmd_answers (v : Word) (s : State) : ∃ t, issueCmd v s = .next t := by
  rw [issueCmd]
  split
  · rw [execNop]; split <;> exact ⟨_, rfl⟩
  · rw [execEncode]; split_ifs <;> exact ⟨_, rfl⟩
  · rw [execDecode]; split_ifs <;> exact ⟨_, rfl⟩
  · rw [issueIllegal]; split <;> exact ⟨_, rfl⟩

/-- Only a read stops, and only while idle, at an unwritten byte of the buffer word it reads. -/
theorem exec_cases (i : Instr) (s : State) :
    (∃ t, exec i s = .next t) ∨
      ∃ w d a, i = .busRd w d ∧ s.busy = false ∧ s.mem.readWord (byteAddr w) = .error a
        ∧ 0x4000 ≤ w.toNat ∧ exec i s = .fault (.unwrittenRead a) := by
  cases i with
  | nop => left; simp only [exec, execNop]; split <;> exact ⟨_, rfl⟩
  | encode => left; simp only [exec, execEncode]; split_ifs <;> exact ⟨_, rfl⟩
  | decode => left; simp only [exec, execDecode]; split_ifs <;> exact ⟨_, rfl⟩
  | busWr w v =>
    left
    simp only [exec, execBusWr]
    split_ifs
    · exact issueCmd_answers v s
    · exact ⟨_, rfl⟩
    · exact ⟨_, rfl⟩
  | busRd w d =>
    simp only [exec, execBusRd]
    split_ifs with hc
    · exact .inl ⟨_, rfl⟩
    · cases hv : view w s with
      | ok v => left; simp only [readView, hv, countDraw]; exact ⟨_, rfl⟩
      | error a =>
        right
        have hmem : 0x4000 ≤ w.toNat ∧ s.mem.readWord (byteAddr w) = .error a := by
          rw [view] at hv
          split at hv
          case h_17 h => exact ⟨(target_eq_symIn.1 h).1, hv⟩
          case h_18 h => exact ⟨by have := (target_eq_bitBuf.1 h).1; omega, hv⟩
          case h_19 h => exact ⟨by have := target_eq_symOut.1 h; omega, hv⟩
          all_goals exact nomatch hv
        refine ⟨w, d, a, rfl, ?_, hmem.2, hmem.1, ?_⟩
        · cases hb : s.busy
          · rfl
          · have : exactWhileBusy w = false := by
              simp [exactWhileBusy]; omega
            simp [hb, this] at hc
        · simp [readView, hv, countDraw]

/-! ### What the engine can do -/

theorem retired_next {r : Except Nat State} {t : State} (h : retired r = .next t) : ∃ u, r = .ok u ∧ t = u.retire := by
  cases r with
  | error a => exact nomatch h
  | ok u => exact ⟨u, rfl, (Host.Outcome.next.inj h).symm⟩

/-- `EncodeCommit(L)` is the empty commit, or the commit of the text that stands in SYMBUF_IN. -/
theorem encodeCommit_ok {keep : Bool} {len : BitVec 16} {s u : State} (h : encodeCommit keep len s = .ok u) :
    (len = 0 ∧ u = s.emptyCommit keep) ∨
      ∃ text, text.length = len.toNat ∧ 0 < text.length ∧ TextAt s.mem text ∧ u = s.commitText text := by
  rw [encodeCommit] at h
  split at h
  · exact .inl ⟨‹_›, (Except.ok.inj h).symm⟩
  · rename_i hlen
    split at h
    · exact nomatch h
    · rename_i text ht
      have hl := (Memory.readBytes_eq_ok.1 ht).1
      have hpos : 0 < len.toNat := by
        rcases Nat.eq_zero_or_pos len.toNat with h0 | h0
        · exact absurd (BitVec.eq_of_toNat_eq (by simpa using h0)) hlen
        · exact h0
      refine .inr ⟨text, hl, by omega, ?_, (Except.ok.inj h).symm⟩
      rw [← readBytes_text, hl]
      exact ht

/-- A text that stands in SYMBUF_IN is committed. -/
theorem encodeCommit_text {keep : Bool} {len : BitVec 16} {s : State} {text : List Symbol}
    (hl : text.length = len.toNat) (hpos : 0 < text.length) (ht : TextAt s.mem text) :
    encodeCommit keep len s = .ok (s.commitText text) := by
  have hlen : len ≠ 0 := by
    rintro rfl
    simp at hl
    simp [hl] at hpos
  rw [encodeCommit, if_neg hlen, ← hl, readBytes_text.2 ht]

/-- `DecodeCommit(B)` is the empty output, or the end of a walk. -/
theorem decodeCommit_ok {bits : BitVec 20} {s u : State} (h : decodeCommit bits s = .ok u) :
    ((s.ready = false ∨ bits = 0) ∧ u = s.setOutLen 0) ∨
      ∃ r, s.ready = true ∧ bits ≠ 0 ∧ walk s.tree s.root s.mem bits.toNat 0 s.root 0 = .ok r ∧ u = s.endWalk r := by
  rw [decodeCommit] at h
  split at h
  · exact .inl ⟨‹_›, (Except.ok.inj h).symm⟩
  · rename_i hc
    split at h
    · exact nomatch h
    · rename_i r hr
      rw [not_or] at hc
      exact .inr ⟨r, by simpa using hc.1, hc.2, hr, (Except.ok.inj h).symm⟩

/-- Everything one completion step can do to the state. -/
inductive CompletionEffect (s : State) : State → Prop where
  /-- The engine has no command: nothing happens. -/
  | idle : s.pend = none → CompletionEffect s s
  /-- An empty ENCODE. -/
  | emptied : s.pend = some (.encode 0) → CompletionEffect s (s.emptyCommit Config.keepTreeOnEmpty).retire
  /-- A non-empty ENCODE. -/
  | encoded (len : BitVec 16) (text : List Symbol) : s.pend = some (.encode len) → text.length = len.toNat →
      0 < text.length → TextAt s.mem text → CompletionEffect s (s.commitText text).retire
  /-- A DECODE with no tree or no bits. -/
  | nothing (bits : BitVec 20) : s.pend = some (.decode bits) → s.ready = false ∨ bits = 0 →
      CompletionEffect s (s.setOutLen 0).retire
  /-- A DECODE that walks the tree. -/
  | walked (bits : BitVec 20) (r : WalkEnd) : s.pend = some (.decode bits) → s.ready = true → bits ≠ 0 →
      walk s.tree s.root s.mem bits.toNat 0 s.root 0 = .ok r → CompletionEffect s (s.endWalk r).retire

/-- A completion step that is answered has one of the listed effects. -/
theorem complete_effect {s t : State} (h : complete s = .next t) : CompletionEffect s t := by
  rw [complete] at h
  split at h
  · obtain rfl := Host.Outcome.next.inj h
    exact .idle ‹_›
  · rename_i len hp
    obtain ⟨u, hu, rfl⟩ := retired_next h
    rcases encodeCommit_ok hu with ⟨rfl, rfl⟩ | ⟨text, hl, hpos, ht, rfl⟩
    · exact .emptied hp
    · exact .encoded len text hp hl hpos ht
  · rename_i bits hp
    obtain ⟨u, hu, rfl⟩ := retired_next h
    rcases decodeCommit_ok hu with ⟨hc, rfl⟩ | ⟨r, hr, hb, hw, rfl⟩
    · exact .nothing bits hp hc
    · exact .walked bits r hp hr hb hw

/-- A completion step answers, or stops at an unwritten byte. -/
theorem complete_cases (s : State) :
    (∃ t, complete s = .next t) ∨ ∃ a, complete s = .fault (.unwrittenRead a) := by
  rw [complete]
  split
  · exact .inl ⟨_, rfl⟩
  · cases encodeCommit Config.keepTreeOnEmpty _ s with
    | ok u => exact .inl ⟨_, rfl⟩
    | error a => exact .inr ⟨a, rfl⟩
  · cases decodeCommit _ s with
    | ok u => exact .inl ⟨_, rfl⟩
    | error a => exact .inr ⟨a, rfl⟩

/-! ### What a step can do -/

/-- Everything one step can do: whose turn it is, with the effect that turn can have. -/
inductive StepEffect (s : State) : State → Prop where
  /-- A host transaction. -/
  | transaction (w : HbusWord) (rest : List Input) (t : State) : s.inputs = .transaction w :: rest →
      exec (decodeHbus w) (s.withInputs rest) = .next t → TransactionEffect (s.withInputs rest) t → StepEffect s t
  /-- The engine's turn, given by the inputs. -/
  | engine (rest : List Input) (t : State) : s.inputs = .engine :: rest →
      complete (s.withInputs rest) = .next t → CompletionEffect (s.withInputs rest) t → StepEffect s t
  /-- The engine's turn, nothing else being left. -/
  | last (t : State) : s.inputs = [] → complete s = .next t → CompletionEffect s t → StepEffect s t
  /-- A reset edge. -/
  | reset (p : Option HbusWord) (rest : List Input) : s.inputs = .resetEdge p :: rest →
      StepEffect s ((s.withInputs rest).resetEdge p)

/-- A step that is answered has one of the listed effects. -/
theorem step_effect {s t : State} (h : step s = .next t) : StepEffect s t := by
  rw [step] at h
  split at h
  · exact .last t ‹_› h (complete_effect h)
  · exact .transaction _ _ t ‹_› h (exec_effect h)
  · exact .engine _ t ‹_› h (complete_effect h)
  · obtain rfl := Host.Outcome.next.inj h
    exact .reset _ _ ‹_›

/-- A run that is over stays over, and every step of it answers (70_reset_and_hazards.md R208, R219). -/
theorem runOver_step {s : State} (h : RunOver s) : ∃ t, step s = .next t ∧ RunOver t := by
  obtain ⟨hb, hw⟩ := h
  have hp : s.pend = none := Option.isSome_eq_false_iff.1 hb |> Option.isNone_iff_eq_none.1
  rw [step]
  split
  · exact ⟨s, by rw [complete, hp], hb, hw⟩
  · rename_i w rest he
    exact absurd (by rw [he]; exact List.mem_cons_self) (hw w)
  · rename_i rest he
    refine ⟨s.withInputs rest, by rw [complete, State.withInputs_pend, hp], hb, fun w hm => hw w ?_⟩
    rw [he]
    exact List.mem_cons_of_mem _ hm
  · rename_i p rest he
    refine ⟨_, rfl, rfl, fun w hm => hw w ?_⟩
    rw [he]
    exact List.mem_cons_of_mem _ hm

end Sys2Proof.Machine
end

