-- ==== Sys2Proof/Laws/Greedy.lean ====
section
/-! SUPPORT. The cost of merging least first (41_encode.md R125), on multisets of frequencies: `2^k` nodes or fewer cost at
most `k` times their total. With `k` = 8 this is the bound that 41_encode.md R139 rests on, proved here rather than taken
from general knowledge (93_implementation_defined.md G1). -/

namespace Sys2Proof.Machine

/-- `k` merges, each of the two least members, lead from frequencies `Q` to `Q'` and make nodes of total frequency `c`. -/
inductive Greedy (Q : Multiset Nat) : Nat → Multiset Nat → Nat → Prop where
  | refl : Greedy Q 0 Q 0
  | step {k : Nat} {R : Multiset Nat} {a b c : Nat} : Greedy Q k (a ::ₘ b ::ₘ R) c → a ≤ b → (∀ x ∈ R, b ≤ x) →
      Greedy Q (k + 1) ((a + b) ::ₘ R) (c + (a + b))

theorem Greedy.sum_eq {Q Q' : Multiset Nat} {k c : Nat} (h : Greedy Q k Q' c) : Q'.sum = Q.sum := by
  induction h with
  | refl => rfl
  | step _ _ _ ih => rw [← ih]; simp [Nat.add_assoc]

theorem Greedy.card_eq {Q Q' : Multiset Nat} {k c : Nat} (h : Greedy Q k Q' c) : Q'.card + k = Q.card := by
  induction h with
  | refl => rfl
  | step _ _ _ ih => rw [← ih]; simp; omega

/-- A run of merges may be cut anywhere. -/
theorem Greedy.split {Q Q' : Multiset Nat} {j k c : Nat} (h : Greedy Q (j + k) Q' c) :
    ∃ Q1 c1 c2, Greedy Q j Q1 c1 ∧ Greedy Q1 k Q' c2 ∧ c = c1 + c2 := by
  induction k generalizing Q' c with
  | zero => exact ⟨Q', c, 0, h, .refl, rfl⟩
  | succ k ih =>
    cases h with
    | @step _ R a b c' h hab hR =>
      obtain ⟨Q1, c1, c2, h1, h2, rfl⟩ := ih h
      exact ⟨Q1, c1, c2 + (a + b), h1, .step h2 hab hR, by omega⟩

/-- Two members of a sub-multiset weigh at least as much as the two least members of the whole. -/
theorem take_two {a b : Nat} {R O : Multiset Nat} (hab : a ≤ b) (hR : ∀ x ∈ R, b ≤ x)
    (hO : O ≤ a ::ₘ b ::ₘ R) (hc : 2 ≤ O.card) :
    ∃ O', O' ≤ R ∧ O'.card + 2 = O.card ∧ a + b + O'.sum ≤ O.sum := by
  have drop : ∀ {P : Multiset Nat}, P ≤ R → 0 < P.card → ∃ y P', P = y ::ₘ P' ∧ P' ≤ R ∧ b ≤ y := by
    intro P hP hpos
    obtain ⟨y, hy⟩ := Multiset.card_pos_iff_exists_mem.1 hpos
    obtain ⟨P', rfl⟩ := Multiset.exists_cons_of_mem hy
    exact ⟨y, P', rfl, (Multiset.le_cons_self _ _).trans hP, hR y (Multiset.mem_of_le hP hy)⟩
  have drop' : ∀ {P : Multiset Nat}, P ≤ b ::ₘ R → 0 < P.card →
      ∃ y P', P = y ::ₘ P' ∧ P' ≤ R ∧ b ≤ y := by
    intro P hP hpos
    by_cases hb : b ∈ P
    · obtain ⟨P', rfl⟩ := Multiset.exists_cons_of_mem hb
      exact ⟨b, P', rfl, (Multiset.cons_le_cons_iff b).1 hP, Nat.le_refl b⟩
    · exact drop ((Multiset.le_cons_of_notMem hb).1 hP) hpos
  by_cases ha : a ∈ O
  · obtain ⟨O1, rfl⟩ := Multiset.exists_cons_of_mem ha
    rw [Multiset.card_cons] at hc
    obtain ⟨y, O2, rfl, hle, hy⟩ := drop' ((Multiset.cons_le_cons_iff a).1 hO) (by omega)
    refine ⟨O2, hle, by simp, ?_⟩
    simp only [Multiset.sum_cons]
    omega
  · obtain ⟨y, O1, rfl, hle, hy⟩ := drop' ((Multiset.le_cons_of_notMem ha).1 hO) (by omega)
    rw [Multiset.card_cons] at hc
    obtain ⟨z, O2, rfl, hle', hz⟩ := drop hle (by omega)
    refine ⟨O2, hle', by simp, ?_⟩
    simp only [Multiset.sum_cons]
    omega

/-- `k` merges cost at most any `2k` of the first members, and what is left of those still pays for the rest. -/
theorem Greedy.paid {Q Q' O : Multiset Nat} {k c : Nat} (h : Greedy Q k Q' c) (hO : O ≤ Q) (hk : 2 * k ≤ O.card) :
    ∃ O', O' ≤ Q' ∧ O'.card + 2 * k = O.card ∧ c + O'.sum ≤ O.sum := by
  induction h with
  | refl => exact ⟨O, hO, by omega, by omega⟩
  | step _ hab hR ih =>
    obtain ⟨O1, hO1, hc1, hs1⟩ := ih (by omega)
    obtain ⟨O2, hO2, hc2, hs2⟩ := take_two hab hR hO1 (by omega)
    exact ⟨O2, hO2.trans (Multiset.le_cons_self _ _), by omega, by omega⟩

/-- Merging at most `2^k` members down to one costs at most `k` times their total. -/
theorem Greedy.cost_le {Q Q' : Multiset Nat} {n c : Nat} (k : Nat) (h : Greedy Q n Q' c) (hQ' : 1 ≤ Q'.card)
    (hQ : Q.card ≤ 2 ^ k) : c ≤ k * Q.sum := by
  induction k generalizing Q n c with
  | zero =>
    have hcard := h.card_eq
    obtain rfl : n = 0 := by
      rw [Nat.pow_zero] at hQ
      omega
    cases h
    omega
  | succ k ih =>
    by_cases hsmall : Q.card ≤ 2 ^ k
    · have := ih h hsmall
      rw [Nat.add_mul]
      omega
    · have hcard := h.card_eq
      rw [Nat.pow_succ] at hQ
      by_cases hn : n ≤ Q.card - 2 ^ k
      · obtain ⟨O', -, -, hs⟩ := h.paid (le_refl Q) (by omega)
        rw [Nat.add_mul]
        omega
      · obtain ⟨j, rfl⟩ : ∃ j, n = (Q.card - 2 ^ k) + j := ⟨n - (Q.card - 2 ^ k), by omega⟩
        obtain ⟨Q1, c1, c2, h1, h2, rfl⟩ := h.split
        obtain ⟨O', -, -, hs⟩ := h1.paid (le_refl Q) (by omega)
        have hc1 := h1.card_eq
        have := ih h2 (by omega)
        rw [h1.sum_eq] at this
        rw [Nat.add_mul]
        omega

end Sys2Proof.Machine
end

