-- ==== Sys2Proof/Laws/Merge.lean ====
section
/-! SUPPORT. The tree builder and the code-table generator against an inductive tree: what `removeLeast`, `mergeStep` and
`mergeAll` do, said once, and how the arena of records stands for a tree (41_encode.md R122-R131). -/

namespace Sys2Proof.Machine

/-! ### The priority queue -/

theorem removeLeast_eq_none {q : List QItem} : removeLeast q = none ↔ q = [] := by
  cases q with
  | nil => simp [removeLeast]
  | cons x xs =>
    simp only [removeLeast, reduceCtorEq, iff_false]
    cases removeLeast xs with
    | none => simp
    | some p => obtain ⟨m, rest⟩ := p; dsimp only; split <;> simp

theorem QItem.before_iff {a b : QItem} :
    a.before b = true ↔ a.freq < b.freq ∨ (a.freq = b.freq ∧ a.handle < b.handle) := by
  simp [QItem.before]

/-- `removeLeast` takes out one member, and no other member's key is less (41_encode.md R124). -/
theorem removeLeast_eq_some {q rest : List QItem} {m : QItem} (h : removeLeast q = some (m, rest)) :
    q.Perm (m :: rest) ∧ ∀ x ∈ rest, x.before m = false := by
  induction q generalizing m rest with
  | nil => simp [removeLeast] at h
  | cons x xs ih =>
    rw [removeLeast] at h
    cases hxs : removeLeast xs with
    | none =>
      rw [hxs] at h
      obtain ⟨rfl, rfl⟩ : x = m ∧ [] = rest := by simpa using h
      rw [removeLeast_eq_none.1 hxs]
      simp
    | some p =>
      obtain ⟨m', rest'⟩ := p
      obtain ⟨hp, hl⟩ := ih hxs
      rw [hxs] at h
      dsimp only at h
      split at h
      · rename_i hb
        obtain ⟨rfl, rfl⟩ : x = m ∧ xs = rest := by simpa using h
        refine ⟨List.Perm.refl _, fun y hy => ?_⟩
        rcases List.mem_cons.1 (hp.mem_iff.1 hy) with rfl | hy'
        · rw [QItem.before_iff] at hb
          rw [← Bool.not_eq_true, QItem.before_iff]
          omega
        · have := hl y hy'
          rw [QItem.before_iff] at hb
          rw [← Bool.not_eq_true, QItem.before_iff] at this ⊢
          omega
      · rename_i hb
        obtain ⟨rfl, rfl⟩ : m' = m ∧ x :: rest' = rest := by simpa using h
        refine ⟨(hp.cons x).trans (List.Perm.swap _ _ _), fun y hy => ?_⟩
        rcases List.mem_cons.1 hy with rfl | hy'
        · simpa using hb
        · exact hl y hy'

/-- The least of a queue that has a member. -/
theorem removeLeast_of_length {q : List QItem} (h : 0 < q.length) : ∃ m rest, removeLeast q = some (m, rest) := by
  cases hq : removeLeast q with
  | none => rw [removeLeast_eq_none.1 hq] at h; simp at h
  | some p => exact ⟨p.1, p.2, rfl⟩

/-! ### One merge -/

/-- One merge joins the two least members, the least LEFT, in a new node at the next handle (41_encode.md R125). -/
theorem mergeStep_eq_some {nodes nodes' : List NodeRec} {q q' : List QItem}
    (h : mergeStep nodes q = some (nodes', q')) :
    ∃ a b rest, q.Perm (a :: b :: rest) ∧ (∀ x ∈ b :: rest, x.before a = false) ∧ (∀ x ∈ rest, x.before b = false)
      ∧ nodes' = nodes ++ [internalRec a b] ∧ q' = rest ++ [⟨a.freq + b.freq, nodes.length⟩] := by
  rw [mergeStep] at h
  cases h1 : removeLeast q with
  | none => simp [h1] at h
  | some p =>
    obtain ⟨a, q1⟩ := p
    rw [h1] at h
    dsimp only at h
    cases h2 : removeLeast q1 with
    | none => simp [h2] at h
    | some p2 =>
      obtain ⟨b, rest⟩ := p2
      rw [h2] at h
      obtain ⟨rfl, rfl⟩ := Prod.mk.inj (Option.some.inj h)
      obtain ⟨hp1, hl1⟩ := removeLeast_eq_some h1
      obtain ⟨hp2, hl2⟩ := removeLeast_eq_some h2
      exact ⟨a, b, rest, hp1.trans (hp2.cons a), fun x hx => hl1 x (hp2.mem_iff.2 hx), hl2, rfl, rfl⟩

/-- Two members are enough for a merge. -/
theorem mergeStep_of_length {nodes : List NodeRec} {q : List QItem} (h : 2 ≤ q.length) :
    ∃ r, mergeStep nodes q = some r := by
  obtain ⟨a, q1, h1⟩ := removeLeast_of_length (q := q) (by omega)
  have hl := (removeLeast_eq_some h1).1.length_eq
  rw [List.length_cons] at hl
  obtain ⟨b, q2, h2⟩ := removeLeast_of_length (q := q1) (by omega)
  exact ⟨_, by rw [mergeStep, h1]; dsimp only; rw [h2]⟩

theorem mergeStep_length {nodes nodes' : List NodeRec} {q q' : List QItem}
    (h : mergeStep nodes q = some (nodes', q')) :
    q'.length + 1 = q.length ∧ nodes'.length = nodes.length + 1 := by
  obtain ⟨a, b, rest, hp, -, -, rfl, rfl⟩ := mergeStep_eq_some h
  have := hp.length_eq
  simp only [List.length_cons] at this
  simp
  omega

/-- Whatever one merge keeps, the whole merge keeps. -/
theorem mergeAll_invariant {P : List NodeRec → List QItem → Prop}
    (hstep : ∀ nodes q nodes' q', mergeStep nodes q = some (nodes', q') → P nodes q → P nodes' q')
    (fuel : Nat) (nodes : List NodeRec) (q : List QItem) (h : P nodes q) :
    P (mergeAll fuel nodes q).1 (mergeAll fuel nodes q).2 := by
  induction fuel generalizing nodes q with
  | zero => exact h
  | succ fuel ih =>
    rw [mergeAll]
    cases hm : mergeStep nodes q with
    | none => exact h
    | some r => exact ih r.1 r.2 (hstep nodes q r.1 r.2 hm h)

/-- The merge leaves one member of a queue that has any (41_encode.md R126). -/
theorem mergeAll_queue_length (fuel : Nat) (nodes : List NodeRec) (q : List QItem) (hq : 0 < q.length)
    (hf : q.length ≤ fuel + 1) : (mergeAll fuel nodes q).2.length = 1 := by
  induction fuel generalizing nodes q with
  | zero => simp only [mergeAll]; omega
  | succ fuel ih =>
    rw [mergeAll]
    cases hm : mergeStep nodes q with
    | none =>
      by_contra hne
      obtain ⟨r, hr⟩ := mergeStep_of_length (nodes := nodes) (q := q) (by
        dsimp only at hne; omega)
      rw [hm] at hr
      exact nomatch hr
    | some r =>
      have := (mergeStep_length hm).1
      exact ih r.1 r.2 (by
        by_contra h0
        have h1 : q.length = 1 := by omega
        obtain ⟨a, b, rest, hp, -⟩ := mergeStep_eq_some hm
        have := hp.length_eq
        simp only [List.length_cons] at this
        omega) (by omega)

/-! ### The tree a record stands for -/

/-- A Huffman tree: leaves with a symbol and its frequency, internal nodes with two children. -/
inductive HTree where
  | leaf (s : Symbol) (f : Nat)
  | node (l r : HTree)
  deriving DecidableEq, Repr

/-- The summed frequency of a tree's leaves (41_encode.md R128). -/
def HTree.weight : HTree → Nat
  | .leaf _ f => f
  | .node l r => l.weight + r.weight

/-- The leaves, left to right. -/
def HTree.leaves : HTree → List (Symbol × Nat)
  | .leaf s f => [(s, f)]
  | .node l r => l.leaves ++ r.leaves

/-- The leaves' paths, left to right, after a path `p` (41_encode.md R130). -/
def HTree.paths : HTree → List Bool → List (Symbol × List Bool)
  | .leaf s _, p => [(s, p)]
  | .node l r, p => l.paths (p ++ [false]) ++ r.paths (p ++ [true])

/-- The total frequency of the internal nodes. -/
def HTree.cost : HTree → Nat
  | .leaf _ _ => 0
  | .node l r => l.cost + r.cost + (l.weight + r.weight)

/-- The number of steps to the deepest leaf. -/
def HTree.depth : HTree → Nat
  | .leaf _ _ => 0
  | .node l r => max l.depth r.depth + 1

/-- Record `h` of an arena stands for a tree: a leaf record for a leaf, an internal record whose children were made
before it and stand for the subtrees. -/
def Rep (nodes : List NodeRec) : HTree → Nat → Prop
  | .leaf s f, h => nodes[h]? = some (leafRec s f)
  | .node l r, h => ∃ a b : QItem, nodes[h]? = some (internalRec a b) ∧ a.handle < h ∧ b.handle < h
      ∧ a.freq = l.weight ∧ b.freq = r.weight ∧ Rep nodes l a.handle ∧ Rep nodes r b.handle

theorem Rep.append {nodes : List NodeRec} {t : HTree} {h : Nat} (hr : Rep nodes t h) (more : List NodeRec) :
    Rep (nodes ++ more) t h := by
  induction t generalizing h with
  | leaf s f =>
    have hlt : h < nodes.length := (List.getElem?_eq_some_iff.1 hr).1
    rw [Rep, List.getElem?_append_left hlt]
    exact hr
  | node l r ihl ihr =>
    obtain ⟨a, b, hn, ha, hb, hfa, hfb, hl, hr'⟩ := hr
    have hlt : h < nodes.length := (List.getElem?_eq_some_iff.1 hn).1
    exact ⟨a, b, by rw [List.getElem?_append_left hlt]; exact hn, ha, hb, hfa, hfb, ihl hl, ihr hr'⟩

theorem HTree.weight_eq_sum (t : HTree) : t.weight = (t.leaves.map Prod.snd).sum := by
  induction t with
  | leaf s f => simp [weight, leaves]
  | node l r ihl ihr => simp [weight, leaves, ihl, ihr]

theorem HTree.leaves_length_pos (t : HTree) : 0 < t.leaves.length := by
  induction t with
  | leaf s f => simp [leaves]
  | node l r ihl ihr => simp only [leaves, List.length_append]; omega

theorem HTree.depth_lt_leaves (t : HTree) : t.depth < t.leaves.length := by
  induction t with
  | leaf s f => simp [depth, leaves]
  | node l r ihl ihr =>
    have hl := l.leaves_length_pos
    have hr := r.leaves_length_pos
    simp only [depth, leaves, List.length_append]
    omega

theorem HTree.paths_symbols (t : HTree) (p : List Bool) : (t.paths p).map Prod.fst = t.leaves.map Prod.fst := by
  induction t generalizing p with
  | leaf s f => simp [paths, leaves]
  | node l r ihl ihr => simp [paths, leaves, ihl, ihr]

theorem HTree.paths_eq_map (t : HTree) (p : List Bool) :
    t.paths p = (t.paths []).map fun c => (c.1, p ++ c.2) := by
  induction t generalizing p with
  | leaf s f => simp [paths]
  | node l r ihl ihr =>
    simp only [paths, List.map_append, List.nil_append]
    rw [ihl (p ++ [false]), ihr (p ++ [true]), ihl [false], ihr [true]]
    simp [List.map_map, Function.comp_def, List.append_assoc]

/-- The total code length, each leaf counted with its frequency, is the cost (41_encode.md R139). -/
theorem HTree.sum_paths (t : HTree) (count : Symbol → Nat) (p : List Bool)
    (hc : ∀ c ∈ t.leaves, count c.1 = c.2) :
    ((t.paths p).map fun c => count c.1 * c.2.length).sum = t.cost + p.length * t.weight := by
  induction t generalizing p with
  | leaf s f =>
    have : count s = f := hc (s, f) (by simp [leaves])
    simp [paths, cost, weight, this, Nat.mul_comm]
  | node l r ihl ihr =>
    have hl := ihl (p ++ [false]) fun c h => hc c (by simp [leaves, h])
    have hr := ihr (p ++ [true]) fun c h => hc c (by simp [leaves, h])
    simp only [paths, List.map_append, List.sum_append, hl, hr, cost, weight, List.length_append, List.length_singleton]
    ring

/-! ### The arena while it grows -/

/-- The state of the merge: the queue's members stand for trees of their frequencies, whose leaves are together the
leaf list, and the merges so far were greedy and cost what the trees cost. -/
structure MergeInv (leaves : List (Symbol × Nat)) (nodes : List NodeRec) (q : List QItem) : Prop where
  /-- The records: as many as leaves and merges. -/
  count : nodes.length + q.length = 2 * leaves.length
  /-- The members' handles are distinct. -/
  nodup : (q.map QItem.handle).Nodup
  /-- The trees. -/
  trees : ∃ (τ : Nat → HTree) (k : Nat),
    (∀ it ∈ q, it.handle < nodes.length ∧ it.freq = (τ it.handle).weight ∧ Rep nodes (τ it.handle) it.handle)
      ∧ (q.flatMap fun it => (τ it.handle).leaves).Perm leaves
      ∧ Greedy (leaves.map Prod.snd : List Nat) k (q.map QItem.freq : List Nat) (q.map fun it => (τ it.handle).cost).sum

theorem mergeStep_inv {leaves : List (Symbol × Nat)} {nodes nodes' : List NodeRec} {q q' : List QItem}
    (h : mergeStep nodes q = some (nodes', q')) (hi : MergeInv leaves nodes q) : MergeInv leaves nodes' q' := by
  have hlen := mergeStep_length h
  obtain ⟨a, b, rest, hp, ha, hb, rfl, rfl⟩ := mergeStep_eq_some h
  obtain ⟨hcount, hnd, τ, k, ht, hlv, hg⟩ := hi
  have hnd' : ((a :: b :: rest).map QItem.handle).Nodup := (hp.map QItem.handle).nodup_iff.1 hnd
  have hmem : ∀ it ∈ a :: b :: rest, it ∈ q := fun it hit => hp.mem_iff.2 hit
  have hta := ht a (hmem a (by simp))
  have htb := ht b (hmem b (by simp))
  have hfresh : ∀ it ∈ rest, it.handle ≠ nodes.length := fun it hit =>
    Nat.ne_of_lt (ht it (hmem it (by simp [hit]))).1
  refine ⟨by omega, ?_, Function.update τ nodes.length (.node (τ a.handle) (τ b.handle)), k + 1, ?_, ?_, ?_⟩
  · simp only [List.map_append, List.map_cons, List.map_nil]
    rw [List.nodup_append]
    simp only [List.map_cons, List.nodup_cons] at hnd'
    refine ⟨hnd'.2.2, by simp, ?_⟩
    intro x hx y hy
    obtain ⟨it, hit, rfl⟩ := List.mem_map.1 hx
    rw [List.mem_singleton] at hy
    subst hy
    exact hfresh it hit
  · intro it hit
    rcases List.mem_append.1 hit with hit | hit
    · have := ht it (hmem it (by simp [hit]))
      rw [Function.update_of_ne (hfresh it hit)]
      exact ⟨by simp; omega, this.2.1, this.2.2.append _⟩
    · rw [List.mem_singleton] at hit
      subst hit
      simp only [Function.update_self, HTree.weight, List.length_append, List.length_singleton]
      refine ⟨by omega, by rw [hta.2.1, htb.2.1], a, b, ?_, hta.1, htb.1, hta.2.1, htb.2.1, hta.2.2.append _,
        htb.2.2.append _⟩
      simp
  · have e : (rest.flatMap fun it => (Function.update τ nodes.length (.node (τ a.handle) (τ b.handle)) it.handle).leaves)
        = rest.flatMap fun it => (τ it.handle).leaves := by
      apply List.flatMap_congr
      intro it hit
      rw [Function.update_of_ne (hfresh it hit)]
    rw [List.flatMap_append, e]
    simp only [List.flatMap_cons, List.flatMap_nil, Function.update_self, HTree.leaves, List.append_nil]
    refine List.Perm.trans ?_ hlv
    refine List.Perm.trans ?_ (hp.symm.flatMap_right _)
    simp only [List.flatMap_cons]
    exact List.perm_append_comm.trans (by rw [List.append_assoc])
  · have e : (rest.map fun it => (Function.update τ nodes.length (.node (τ a.handle) (τ b.handle)) it.handle).cost)
        = rest.map fun it => (τ it.handle).cost := by
      apply List.map_congr_left
      intro it hit
      rw [Function.update_of_ne (hfresh it hit)]
    have hq : ((q.map QItem.freq : List Nat) : Multiset Nat)
        = a.freq ::ₘ b.freq ::ₘ ((rest.map QItem.freq : List Nat) : Multiset Nat) := by
      rw [Multiset.cons_coe, Multiset.cons_coe, Multiset.coe_eq_coe]
      exact hp.map QItem.freq
    have hc : (q.map fun it => (τ it.handle).cost).sum
        = (τ a.handle).cost + ((τ b.handle).cost + (rest.map fun it => (τ it.handle).cost).sum) := by
      rw [(hp.map fun it => (τ it.handle).cost).sum_eq]
      simp
    rw [hq, hc] at hg
    have hab : a.freq ≤ b.freq := by
      have := ha b (by simp)
      rw [← Bool.not_eq_true, QItem.before_iff] at this
      omega
    have hbr : ∀ x ∈ ((rest.map QItem.freq : List Nat) : Multiset Nat), b.freq ≤ x := by
      intro x hx
      rw [Multiset.mem_coe] at hx
      obtain ⟨it, hit, rfl⟩ := List.mem_map.1 hx
      have := hb it hit
      rw [← Bool.not_eq_true, QItem.before_iff] at this
      omega
    have hfin := Greedy.step hg hab hbr
    have hq' : (((rest ++ [(⟨a.freq + b.freq, nodes.length⟩ : QItem)]).map QItem.freq : List Nat) : Multiset Nat)
        = (a.freq + b.freq) ::ₘ ((rest.map QItem.freq : List Nat) : Multiset Nat) := by
      rw [Multiset.cons_coe, Multiset.coe_eq_coe, List.map_append]
      exact List.perm_append_comm
    rw [hq']
    refine cast (congrArg _ ?_) hfin
    rw [List.map_append, e]
    simp only [List.map_cons, List.map_nil, List.sum_append, List.sum_cons, List.sum_nil, Function.update_self,
      HTree.cost, hta.2.1, htb.2.1]
    omega

end Sys2Proof.Machine
end

