-- ==== Sys2Proof/Laws/Huffman.lean ====
section
/-! SUPPORT. What a text encodes to: the tree its records stand for, its codes as that tree's paths, and the bound on its
bit-string (41_encode.md R122-R139). -/

namespace Sys2Proof.Machine

/-! ### The leaf list -/

theorem mem_allSymbols (s : Symbol) : s ∈ allSymbols := by
  rw [allSymbols, List.mem_map]
  exact ⟨s.toNat, List.mem_range.2 s.isLt, by simp⟩

theorem nodup_allSymbols : allSymbols.Nodup := by
  rw [allSymbols]
  refine List.Nodup.map_on ?_ List.nodup_range
  intro x hx y hy h
  have := congrArg BitVec.toNat h
  simp only [BitVec.toNat_ofNat] at this
  rw [List.mem_range] at hx hy
  omega

@[simp] theorem length_allSymbols : allSymbols.length = 256 := by
  simp [allSymbols]

theorem mem_leafSymbols {text : List Symbol} {s : Symbol} : s ∈ leafSymbols text ↔ s ∈ text := by
  simp [leafSymbols, mem_allSymbols, countOf, List.count_pos_iff]

theorem nodup_leafSymbols (text : List Symbol) : (leafSymbols text).Nodup := nodup_allSymbols.filter _

theorem numSymsOf_le (text : List Symbol) : numSymsOf text ≤ 256 := by
  have := List.length_filter_le (fun s => decide (0 < countOf text s)) allSymbols
  rw [length_allSymbols] at this
  exact this

theorem numSymsOf_pos {text : List Symbol} (h : 0 < text.length) : 0 < numSymsOf text := by
  rw [numSymsOf, List.length_pos_iff_exists_mem]
  obtain ⟨s, hs⟩ := List.length_pos_iff_exists_mem.1 h
  exact ⟨s, mem_leafSymbols.2 hs⟩

/-- The leaf list: the distinct symbols in ascending order, with their counts (41_encode.md R122). -/
def leafList (text : List Symbol) : List (Symbol × Nat) :=
  (leafSymbols text).map fun s => (s, countOf text s)

@[simp] theorem length_leafList (text : List Symbol) : (leafList text).length = numSymsOf text := by
  simp [leafList, numSymsOf]

/-- A sum over a text is a sum over its distinct symbols, each counted (41_encode.md R120). -/
theorem sum_text (text : List Symbol) (g : Symbol → Nat) :
    (text.map g).sum = ((leafSymbols text).map fun s => countOf text s * g s).sum := by
  rw [Finset.sum_list_map_count, ← List.sum_toFinset _ (nodup_leafSymbols text)]
  refine Finset.sum_congr ?_ fun s _ => by simp [countOf]
  ext s
  simp [mem_leafSymbols]

theorem sum_leafList (text : List Symbol) : ((leafList text).map Prod.snd).sum = text.length := by
  have := sum_text text fun _ => 1
  simp only [Nat.mul_one] at this
  rw [leafList, List.map_map]
  simpa [Function.comp_def] using this.symm

/-- No count exceeds the text's length (41_encode.md R121). -/
theorem countOf_le (text : List Symbol) (s : Symbol) : countOf text s ≤ text.length := List.count_le_length

/-! ### The merge of a text -/

theorem leafQueue_length (text : List Symbol) : (leafQueue text).length = numSymsOf text := by
  simp [leafQueue, numSymsOf]

/-- The queue and the records before the first merge. -/
theorem mergeInv_leaves (text : List Symbol) :
    MergeInv (leafList text) (leafRecs text) (leafQueue text) := by
  have hget : ∀ it ∈ leafQueue text, ∃ h : it.handle < (leafSymbols text).length,
      it.freq = countOf text (leafSymbols text)[it.handle] := by
    intro it hit
    rw [leafQueue, List.mem_mapIdx] at hit
    obtain ⟨k, hk, rfl⟩ := hit
    exact ⟨hk, rfl⟩
  let τ : Nat → HTree := fun h => .leaf ((leafSymbols text).getD h 0) (countOf text ((leafSymbols text).getD h 0))
  have hfree : ∀ f : HTree → Nat, (leafQueue text).map (fun it => f (τ it.handle))
      = (leafSymbols text).map fun s => f (.leaf s (countOf text s)) := by
    intro f
    apply List.ext_getElem
    · simp [leafQueue]
    · intro k h1 h2
      have hk : k < (leafSymbols text).length := by simpa [leafQueue] using h1
      simp [leafQueue, τ, List.getElem?_eq_getElem hk]
  refine ⟨by simp [leafRecs, leafQueue, leafList]; omega, ?_, τ, 0, ?_, ?_, ?_⟩
  · have : (leafQueue text).map QItem.handle = List.range (leafSymbols text).length := by
      apply List.ext_getElem
      · simp [leafQueue]
      · intro k h1 h2
        simp [leafQueue]
    rw [this]
    exact List.nodup_range
  · intro it hit
    obtain ⟨h, hf⟩ := hget it hit
    refine ⟨by simpa [leafRecs] using h, ?_, ?_⟩
    · simp [τ, HTree.weight, hf, List.getElem?_eq_getElem h]
    · simp [τ, Rep, leafRecs, List.getElem?_eq_getElem h]
  · have : (leafQueue text).flatMap (fun it => (τ it.handle).leaves) = leafList text := by
      have e : ∀ it : QItem, (τ it.handle).leaves
          = [((leafSymbols text).getD it.handle 0, countOf text ((leafSymbols text).getD it.handle 0))] :=
        fun it => rfl
      simp only [e]
      rw [← List.map_eq_flatMap, leafList]
      apply List.ext_getElem
      · simp [leafQueue]
      · intro k h1 h2
        have hk : k < (leafSymbols text).length := by simpa [leafQueue] using h1
        simp [leafQueue, List.getElem?_eq_getElem hk]
    rw [this]
  · have hc : ((leafQueue text).map fun it => (τ it.handle).cost).sum = 0 := by
      rw [hfree HTree.cost]
      simp [HTree.cost]
    have hq : (leafQueue text).map QItem.freq = (leafList text).map Prod.snd := by
      apply List.ext_getElem
      · simp [leafQueue, leafList]
      · intro k h1 h2
        simp [leafQueue, leafList]
    rw [hc, hq]
    exact .refl

/-- The tree a text's records stand for, rooted at the root; its leaves are the leaf list, and it is the result of
greedy merges (41_encode.md R122-R127). -/
theorem exists_tree {text : List Symbol} (hpos : 0 < text.length) :
    ∃ (T : HTree) (r : Nat), rootOf text = BitVec.ofNat 9 r ∧ r < (merged text).1.length
      ∧ (merged text).1.length = 2 * numSymsOf text - 1 ∧ Rep (merged text).1 T r ∧ T.leaves.Perm (leafList text)
      ∧ ∃ k, Greedy ((leafList text).map Prod.snd : List Nat) k {T.weight} T.cost := by
  have hN := numSymsOf_pos hpos
  have hinv : MergeInv (leafList text) (merged text).1 (merged text).2 :=
    mergeAll_invariant (P := MergeInv (leafList text)) (fun _ _ _ _ => mergeStep_inv) _ _ _ (mergeInv_leaves text)
  have hone : (merged text).2.length = 1 :=
    mergeAll_queue_length _ _ _ (by rw [leafQueue_length]; exact hN) (by omega)
  obtain ⟨it, hit⟩ := List.length_eq_one_iff.1 hone
  obtain ⟨hcount, -, τ, k, ht, hlv, hg⟩ := hinv
  rw [hit] at ht hlv hg hcount
  obtain ⟨hlt, hf, hr⟩ := ht it (by simp)
  refine ⟨τ it.handle, it.handle, by rw [rootOf, hit, rootOfQueue], hlt, ?_, hr, by simpa using hlv, k, ?_⟩
  · simp only [List.length_singleton, length_leafList] at hcount
    omega
  · simpa [hf] using hg

/-! ### The arena as a tree of handles -/

theorem node_treeOfNodes (nodes : List NodeRec) (h : Handle) :
    (treeOfNodes nodes).node h = nodes.getD h.toNat NodeRec.zero := by
  simp only [Tree.node, treeOfNodes]
  exact getElem_tabulate _ _ _ _

theorem node_of_getElem? {nodes : List NodeRec} {h : Nat} {n : NodeRec} (hn : nodes[h]? = some n)
    (hlen : nodes.length ≤ 512) : (treeOfNodes nodes).node (BitVec.ofNat 9 h) = n := by
  have hlt : h < nodes.length := (List.getElem?_eq_some_iff.1 hn).1
  rw [node_treeOfNodes, BitVec.toNat_ofNat, Nat.mod_eq_of_lt (by omega), List.getD_eq_getElem?_getD, hn]
  rfl

/-- `Visit` lists the paths of the tree that the records stand for (41_encode.md R130). -/
theorem visit_eq_paths {nodes : List NodeRec} (hlen : nodes.length ≤ 512) {T : HTree} {h fuel : Nat}
    (hr : Rep nodes T h) (hf : T.depth < fuel) (p : List Bool) :
    visit (treeOfNodes nodes) fuel (BitVec.ofNat 9 h) p = T.paths p := by
  induction T generalizing h fuel p with
  | leaf s f =>
    obtain ⟨fuel, rfl⟩ : ∃ k, fuel = k + 1 := ⟨fuel - 1, by omega⟩
    rw [visit, node_of_getElem? hr hlen]
    simp [leafRec, HTree.paths]
  | node l r ihl ihr =>
    obtain ⟨fuel, rfl⟩ : ∃ k, fuel = k + 1 := ⟨fuel - 1, by omega⟩
    obtain ⟨a, b, hn, -, -, -, -, hl, hr'⟩ := hr
    rw [HTree.depth] at hf
    rw [visit, node_of_getElem? hn hlen]
    simp only [internalRec, Bool.false_eq_true, if_false, HTree.paths]
    rw [ihl hl (by omega), ihr hr' (by omega)]

/-- A path of the tree leads through the arena from its handle to a leaf that carries the symbol (41_encode.md R130). -/
theorem reaches_of_mem_paths {nodes : List NodeRec} (hlen : nodes.length ≤ 512) {T : HTree} {h : Nat}
    (hr : Rep nodes T h) {c : Symbol × List Bool} (hc : c ∈ T.paths []) :
    IsCode (treeOfNodes nodes) (BitVec.ofNat 9 h) c.2 c.1 := by
  induction T generalizing h c with
  | leaf s f =>
    simp only [HTree.paths, List.mem_singleton] at hc
    subst hc
    refine ⟨BitVec.ofNat 9 h, rfl, ?_⟩
    rw [node_of_getElem? hr hlen]
    exact ⟨rfl, rfl⟩
  | node l r ihl ihr =>
    obtain ⟨a, b, hn, -, -, -, -, hl, hr'⟩ := hr
    have hnode := node_of_getElem? hn hlen
    simp only [HTree.paths, List.nil_append, List.mem_append] at hc
    rw [l.paths_eq_map, r.paths_eq_map] at hc
    rcases hc with hc | hc
    · obtain ⟨d, hd, rfl⟩ := List.mem_map.1 hc
      obtain ⟨g, hg⟩ := ihl hl hd
      refine ⟨g, ⟨by rw [hnode]; rfl, ?_⟩, hg.2⟩
      simpa [Tree.child, hnode, internalRec] using hg.1
    · obtain ⟨d, hd, rfl⟩ := List.mem_map.1 hc
      obtain ⟨g, hg⟩ := ihr hr' hd
      refine ⟨g, ⟨by rw [hnode]; rfl, ?_⟩, hg.2⟩
      simpa [Tree.child, hnode, internalRec] using hg.1

/-! ### The codes of a text -/

theorem merged_length_le {text : List Symbol} (hpos : 0 < text.length) : (merged text).1.length ≤ 511 := by
  obtain ⟨-, -, -, -, hl, -⟩ := exists_tree hpos
  have := numSymsOf_le text
  omega

/-- The codes of a text with two symbols or more are its tree's paths; a lone symbol's code is "0" (41_encode.md R130,
R131). -/
theorem exists_codes {text : List Symbol} (hpos : 0 < text.length) :
    ∃ (T : HTree) (r : Nat), rootOf text = BitVec.ofNat 9 r ∧ Rep (merged text).1 T r
      ∧ T.leaves.Perm (leafList text)
      ∧ (∃ k, Greedy ((leafList text).map Prod.snd : List Nat) k {T.weight} T.cost)
      ∧ codesOf text = if numSymsOf text = 1 then (T.paths []).map (fun c => (c.1, [false])) else T.paths [] := by
  obtain ⟨T, r, hroot, -, hlen, hr, hlv, hg⟩ := exists_tree hpos
  have hle := merged_length_le hpos
  refine ⟨T, r, hroot, hr, hlv, hg, ?_⟩
  have hll := hlv.length_eq
  rw [length_leafList] at hll
  rw [codesOf, codeGen]
  by_cases h1 : numSymsOf text = 1
  · rw [if_pos h1, if_pos h1]
    cases T with
    | leaf s f =>
      rw [treeOf, hroot, node_of_getElem? hr (by omega)]
      simp [HTree.paths, leafRec]
    | node l r' =>
      have h2 := l.leaves_length_pos
      have h3 := r'.leaves_length_pos
      simp only [HTree.leaves, List.length_append] at hll
      omega
  · rw [if_neg h1, if_neg h1, treeOf, hroot]
    refine visit_eq_paths (by omega) hr ?_ []
    have := T.depth_lt_leaves
    have := numSymsOf_le text
    omega

/-- The symbols that have a code are the text's distinct symbols, each with one code (41_encode.md R134). -/
theorem codesOf_symbols {text : List Symbol} (hpos : 0 < text.length) :
    ((codesOf text).map Prod.fst).Perm (leafSymbols text) := by
  obtain ⟨T, r, -, -, hlv, -, hc⟩ := exists_codes hpos
  have h1 : ((T.paths []).map Prod.fst).Perm (leafSymbols text) := by
    rw [T.paths_symbols]
    have := hlv.map Prod.fst
    rwa [leafList, List.map_map, show (Prod.fst ∘ fun s => (s, countOf text s)) = id from rfl, List.map_id] at this
  rw [hc]
  split
  · rwa [List.map_map]
  · exact h1

theorem lookup_of_mem {codes : List (Symbol × List Bool)} (hn : (codes.map Prod.fst).Nodup)
    {c : Symbol × List Bool} (hc : c ∈ codes) : codes.lookup c.1 = some c.2 := by
  induction codes with
  | nil => simp at hc
  | cons d ds ih =>
    simp only [List.map_cons, List.nodup_cons] at hn
    rcases List.mem_cons.1 hc with rfl | hc'
    · rw [List.lookup_cons, beq_self_eq_true]
    · have hne : c.1 ≠ d.1 := fun h => hn.1 (h ▸ List.mem_map.2 ⟨c, hc', rfl⟩)
      have hb : (c.1 == d.1) = false := by simpa using hne
      obtain ⟨s, p⟩ := d
      rw [List.lookup_cons, hb]
      exact ih hn.2 hc'

theorem lookup_of_not_mem {codes : List (Symbol × List Bool)} {s : Symbol} (hs : s ∉ codes.map Prod.fst) :
    codes.lookup s = none := by
  induction codes with
  | nil => rfl
  | cons d ds ih =>
    simp only [List.map_cons, List.mem_cons, not_or] at hs
    have hb : (s == d.1) = false := by simpa using hs.1
    obtain ⟨s', p⟩ := d
    rw [List.lookup_cons, hb]
    exact ih hs.2

/-- The code of each listed symbol. -/
theorem codeOf_of_mem {text : List Symbol} (hpos : 0 < text.length) {c : Symbol × List Bool}
    (hc : c ∈ codesOf text) : codeOf (codesOf text) c.1 = c.2 := by
  have hn : ((codesOf text).map Prod.fst).Nodup := (codesOf_symbols hpos).nodup_iff.2 (nodup_leafSymbols text)
  rw [codeOf, lookup_of_mem hn hc]
  rfl

/-- Each symbol of the text has its code listed. -/
theorem mem_codesOf {text : List Symbol} (hpos : 0 < text.length) {s : Symbol} (hs : s ∈ text) :
    (s, codeOf (codesOf text) s) ∈ codesOf text := by
  have : s ∈ (codesOf text).map Prod.fst := (codesOf_symbols hpos).mem_iff.2 (mem_leafSymbols.2 hs)
  obtain ⟨c, hc, rfl⟩ := List.mem_map.1 this
  rw [codeOf_of_mem hpos hc]
  exact hc

/-- A symbol that the text does not hold has no code (41_encode.md R134). -/
theorem codeOf_of_not_mem {text : List Symbol} (hpos : 0 < text.length) {s : Symbol} (hs : s ∉ text) :
    codeOf (codesOf text) s = [] := by
  rw [codeOf, lookup_of_not_mem]
  · rfl
  · rw [(codesOf_symbols hpos).mem_iff, mem_leafSymbols]
    exact hs

/-! ### The length of the bit-string -/

theorem length_streamOf (codes : List (Symbol × List Bool)) (text : List Symbol) :
    (streamOf codes text).length = (text.map fun s => (codeOf codes s).length).sum := by
  rw [streamOf, List.length_flatMap]

/-- COMP_BITS is the sum over the codes of count times length (43_host_access.md R181). -/
theorem length_stream_eq {text : List Symbol} (hpos : 0 < text.length) :
    (streamOf (codesOf text) text).length = ((codesOf text).map fun c => countOf text c.1 * c.2.length).sum := by
  rw [length_streamOf, sum_text text fun s => (codeOf (codesOf text) s).length]
  rw [← ((codesOf_symbols hpos).map fun s => countOf text s * (codeOf (codesOf text) s).length).sum_eq, List.map_map]
  congr 1
  apply List.map_congr_left
  intro c hc
  rw [Function.comp_apply, codeOf_of_mem hpos hc]

/-- "COMP_BITS <= ORIG_BITS = 8L": the bit-string of a text is no longer than eight bits a symbol (41_encode.md R139). -/
theorem length_stream_le {text : List Symbol} (hpos : 0 < text.length) :
    (streamOf (codesOf text) text).length ≤ 8 * text.length := by
  obtain ⟨T, r, -, -, hlv, ⟨k, hg⟩, hc⟩ := exists_codes hpos
  have hcount : ∀ c ∈ T.leaves, countOf text c.1 = c.2 := by
    intro c hcm
    have := hlv.mem_iff.1 hcm
    rw [leafList, List.mem_map] at this
    obtain ⟨s, -, rfl⟩ := this
    rfl
  have hsum : ((leafList text).map Prod.snd).sum = text.length := sum_leafList text
  have hw : T.weight = text.length := by rw [T.weight_eq_sum, (hlv.map Prod.snd).sum_eq, hsum]
  rw [length_stream_eq hpos, hc]
  split
  · have h1 : (((T.paths []).map fun c => (c.1, [false])).map fun c => countOf text c.1 * c.2.length)
        = ((T.paths []).map Prod.fst).map (countOf text) := by
      simp [List.map_map, Function.comp_def]
    have h2 : (T.leaves.map Prod.fst).map (countOf text) = T.leaves.map Prod.snd := by
      rw [List.map_map]
      apply List.map_congr_left
      intro c hcm
      exact hcount c hcm
    rw [h1, T.paths_symbols, h2, ← T.weight_eq_sum]
    omega
  · rw [T.sum_paths (countOf text) [] hcount]
    have hN := numSymsOf_le text
    have hcost := hg.cost_le 8 (by simp) (by simpa using hN)
    rw [Multiset.sum_coe, hsum] at hcost
    simpa using hcost

/-- The bit-string of a text that ENCODE accepts fits COMP_BITS and BITBUF (41_encode.md R137, R139). -/
theorem length_stream_fits {text : List Symbol} (hpos : 0 < text.length) (hlen : text.length ≤ 65535) :
    (streamOf (codesOf text) text).length ≤ 524280 := by
  have := length_stream_le hpos
  omega

end Sys2Proof.Machine
end

