-- ==== Sys2Proof/Laws/PerInstr.lean ====
section
/-! SUPPORT. Statements about every operation, one lemma a constructor. -/

namespace Sys2Proof.Laws

/-- The family: an operation is encoded in as many bytes as its format has (30_encoding.md R88). -/
def EncodedLength.Statement (i : Instr) : Prop := (encodeBytes i).length = i.format.byteLength

theorem EncodedLength.nop : EncodedLength.Statement .nop := length_bytesOfNat 4 _

theorem EncodedLength.encode : EncodedLength.Statement .encode := length_bytesOfNat 4 _

theorem EncodedLength.decode : EncodedLength.Statement .decode := length_bytesOfNat 4 _

theorem EncodedLength.busRd (waddr : WordAddr) (wdata : Word) : EncodedLength.Statement (.busRd waddr wdata) :=
  length_bytesOfNat 7 _

theorem EncodedLength.busWr (waddr : WordAddr) (wdata : Word) : EncodedLength.Statement (.busWr waddr wdata) :=
  length_bytesOfNat 7 _

end Sys2Proof.Laws
end

