-- ==== Sys2Proof/Laws/Walk.lean ====
section
/-! SUPPORT. The walker: what one bit and one walk can answer, said once (42_decode.md R149-R156). -/

namespace Sys2Proof.Machine

/-- The walker faults on a bit in one of two ways. -/
theorem walkBit_error {t : Tree} {root cur : Handle} {n : Nat} {b : Bool} {c : ErrorCode}
    (h : walkBit t root cur n b = .error c) :
    (c = .decAbsentChild ∧ (t.node cur).leaf = true ∧ b = true) ∨ (c = .decOverflow ∧ n = Config.decOutCap) := by
  rw [walkBit] at h
  split at h
  · split at h
    · exact .inl ⟨by simpa using h.symm, ‹_›, by simpa using ‹b = true›⟩
    · split at h
      · exact .inr ⟨by simpa using h.symm, ‹_›⟩
      · exact nomatch h
  · split at h
    · split at h
      · exact .inr ⟨by simpa using h.symm, ‹_›⟩
      · exact nomatch h
    · exact nomatch h

/-- A symbol is emitted only below the capacity (42_decode.md R154). -/
theorem walkBit_emits {t : Tree} {root cur cur' : Handle} {n : Nat} {b : Bool} {sym : Symbol}
    (h : walkBit t root cur n b = .ok (cur', some sym)) : n ≠ Config.decOutCap := by
  rw [walkBit] at h
  split at h
  · split at h
    · exact nomatch h
    · split at h
      · exact nomatch h
      · assumption
  · split at h
    · split at h
      · exact nomatch h
      · assumption
    · simp at h

/-- A walk writes at most 65536 symbols, and its fault, if any, is a DECODE fault at a bit it was given or at their end
(42_decode.md R153-R155). -/
theorem walk_ok {t : Tree} {root : Handle} {m : Memory} {k i n : Nat} {cur : Handle} {r : WalkEnd}
    (h : walk t root m k i cur n = .ok r) (hn : n ≤ Config.decOutCap) :
    n + r.out.length ≤ Config.decOutCap ∧
      ∀ c pos, r.fault = some (c, pos) →
        i ≤ pos ∧ pos ≤ i + k ∧ (c = .decAbsentChild ∨ c = .decOverflow ∨ c = .decPartial) := by
  induction k generalizing i cur n r with
  | zero =>
    rw [walk] at h
    obtain rfl := Except.ok.inj h
    refine ⟨by simpa using hn, fun c pos hf => ?_⟩
    dsimp only at hf
    split at hf
    · exact nomatch hf
    · obtain ⟨rfl, rfl⟩ : ErrorCode.decPartial = c ∧ i = pos := by simpa using hf
      simp
  | succ k ih =>
    rw [walk] at h
    split at h
    · exact nomatch h
    · split at h
      · rename_i c hw
        obtain rfl := Except.ok.inj h
        refine ⟨by simpa using hn, fun c' pos hf => ?_⟩
        obtain ⟨rfl, rfl⟩ : c = c' ∧ i = pos := by simpa using hf
        refine ⟨Nat.le_refl _, by omega, ?_⟩
        rcases walkBit_error hw with h' | h'
        · exact .inl h'.1
        · exact .inr (.inl h'.1)
      · obtain ⟨h1, h2⟩ := ih h hn
        refine ⟨h1, fun c pos hf => ?_⟩
        obtain ⟨h3, h4, h5⟩ := h2 c pos hf
        exact ⟨by omega, by omega, h5⟩
      · rename_i hw
        split at h
        · exact nomatch h
        · rename_i r' hr'
          obtain rfl := Except.ok.inj h
          have hne := walkBit_emits hw
          obtain ⟨h1, h2⟩ := ih hr' (by omega)
          refine ⟨by simp only [WalkEnd.cons, List.length_cons]; omega, fun c pos hf => ?_⟩
          obtain ⟨h3, h4, h5⟩ := h2 c pos hf
          exact ⟨by omega, by omega, h5⟩

/-- A walk stops only at an unwritten bit among those it was given (70_reset_and_hazards.md R207). -/
theorem walk_error {t : Tree} {root : Handle} {m : Memory} {k i n a : Nat} {cur : Handle}
    (h : walk t root m k i cur n = .error a) :
    ∃ j, i ≤ j ∧ j < i + k ∧ a = bitAddr j ∧ m.readBit j = none := by
  induction k generalizing i cur n with
  | zero => rw [walk] at h; exact nomatch h
  | succ k ih =>
    have deeper : ∀ {cur' n'}, walk t root m k (i + 1) cur' n' = .error a →
        ∃ j, i ≤ j ∧ j < i + (k + 1) ∧ a = bitAddr j ∧ m.readBit j = none := by
      intro cur' n' h'
      obtain ⟨j, h1, h2, h3⟩ := ih h'
      exact ⟨j, by omega, by omega, h3⟩
    rw [walk] at h
    split at h
    · exact ⟨i, Nat.le_refl _, by omega, (Except.error.inj h).symm, ‹_›⟩
    · split at h
      · exact nomatch h
      · exact deeper h
      · split at h
        · rename_i a' hr'
          obtain rfl := Except.error.inj h
          exact deeper hr'
        · exact nomatch h

/-- A walk of more than `j` bits stops at bit `i + j` when that bit is unwritten and the walk of the `j` bits before it
answers with no fault, or with DEC_PARTIAL only, which those bits' end alone causes (70_reset_and_hazards.md R207). -/
theorem walk_unwritten {t : Tree} {root : Handle} {m : Memory} {j k i n : Nat} {cur : Handle} {r : WalkEnd}
    (h : walk t root m j i cur n = .ok r) (hf : ∀ c pos, r.fault = some (c, pos) → c = .decPartial)
    (hu : m.readBit (i + j) = none) : walk t root m (j + (k + 1)) i cur n = .error (bitAddr (i + j)) := by
  induction j generalizing i cur n r with
  | zero =>
    rw [Nat.zero_add, walk]
    simp only [Nat.add_zero] at hu ⊢
    rw [hu]
  | succ j ih =>
    have hu' : m.readBit (i + 1 + j) = none := by rwa [show i + 1 + j = i + (j + 1) by omega]
    rw [show j + 1 + (k + 1) = (j + (k + 1)) + 1 by omega, show i + (j + 1) = i + 1 + j by omega]
    rw [walk] at h ⊢
    cases hb : m.readBit i with
    | none => simp [hb] at h
    | some b =>
      simp only [hb] at h ⊢
      cases hw : walkBit t root cur n b with
      | error c =>
        simp only [hw] at h
        obtain rfl := Except.ok.inj h
        have hc := hf c i rfl
        rcases walkBit_error hw with ⟨e, -⟩ | ⟨e, -⟩ <;> rw [hc] at e <;> cases e
      | ok p =>
        obtain ⟨cur', _ | sym⟩ := p
        · simp only [hw] at h ⊢
          exact ih h hf hu'
        · simp only [hw] at h ⊢
          cases hr : walk t root m j (i + 1) cur' (n + 1) with
          | error a => simp [hr] at h
          | ok r' =>
            simp only [hr] at h
            obtain rfl := Except.ok.inj h
            rw [ih hr hf hu']

/-- A walk reads only the bits it is given (42_decode.md R148). -/
theorem walk_congr {t : Tree} {root : Handle} {m m' : Memory} {k i n : Nat} {cur : Handle}
    (h : ∀ j, i ≤ j → j < i + k → m'.readBit j = m.readBit j) :
    walk t root m' k i cur n = walk t root m k i cur n := by
  induction k generalizing i cur n with
  | zero => rfl
  | succ k ih =>
    have ih' : ∀ cur' n', walk t root m' k (i + 1) cur' n' = walk t root m k (i + 1) cur' n' := fun cur' n' =>
      ih fun j h1 h2 => h j (by omega) (by omega)
    simp only [walk, h i (Nat.le_refl _) (by omega), ih']

/-- A walk over written bits answers. -/
theorem walk_answers {t : Tree} {root : Handle} {m : Memory} {k i n : Nat} {cur : Handle}
    (h : ∀ j, i ≤ j → j < i + k → (m.readBit j).isSome) : ∃ r, walk t root m k i cur n = .ok r := by
  cases hw : walk t root m k i cur n with
  | ok r => exact ⟨r, rfl⟩
  | error a =>
    obtain ⟨j, h1, h2, -, h4⟩ := walk_error hw
    have := h j h1 h2
    rw [h4] at this
    exact nomatch this

end Sys2Proof.Machine
end

