-- ==== Sys2Proof/Tests/Slice0.lean ====
section
/-! SUPPORT. The model's own tests: one step each, on values taken from the spec (95_test_vectors.md, named beside each
test), and for every statement with hypotheses a witness that meets them. -/

namespace Sys2Proof.Tests

open Sys2Proof Sys2Proof.Machine

set_option maxRecDepth 10000

/-! ### Small states -/

/-- The state an outcome answers, if any. -/
def after (o : Outcome) : Option State :=
  match o with
  | .next s => some s
  | .fault _ => none
  | .refused _ => none

/-- The address a fault names, if any. -/
def faultAt (o : Outcome) : Option Nat :=
  match o with
  | .next _ => none
  | .fault (.unwrittenRead a) => some a
  | .refused _ => none

theorem next_of_after {o : Outcome} (h : (after o).isSome = true) : ∃ t, o = .next t := by
  cases o with
  | next s => exact ⟨s, rfl⟩
  | fault r => cases h
  | refused r => cases h

/-- The word a BUS_RD shows. -/
def see (s : State) (w : WordAddr) : Option Word := (after (exec (.busRd w 0) s)).map fun t => t.rdata

/-- An HCB with an ENCODE of a text pending. -/
def texted (text : List Symbol) : State :=
  { State.reset with
    pend := some (.encode (BitVec.ofNat 16 text.length)), inLen := BitVec.ofNat 32 text.length,
    mem := Memory.cells symInBase text }

/-- "ab" (TE3), "aab" (TE4), "aaaa" (TE2) and "abracadabra" (TE6). -/
def ab : List Symbol := [0x61, 0x62]
def aab : List Symbol := [0x61, 0x61, 0x62]
def aaaa : List Symbol := [0x61, 0x61, 0x61, 0x61]
def abra : List Symbol := [0x61, 0x62, 0x72, 0x61, 0x63, 0x61, 0x64, 0x61, 0x62, 0x72, 0x61]

/-- A tree given by its first records. -/
def treeWith (nodes : List NodeRec) : Tree := tabulate 512 fun h => nodes.getD h NodeRec.zero

/-- The tree of "ab" (TE3): codes a = "0", b = "1". -/
def treeAb : Tree := treeWith [⟨true, 0x61, 1, 0, 0⟩, ⟨true, 0x62, 1, 0, 0⟩, ⟨false, 0, 2, 0, 1⟩]

/-- The tree of "abcd" (TE5): codes a = "00", b = "01", c = "10", d = "11". -/
def treeAbcd : Tree :=
  treeWith [⟨true, 0x61, 1, 0, 0⟩, ⟨true, 0x62, 1, 0, 0⟩, ⟨true, 0x63, 1, 0, 0⟩, ⟨true, 0x64, 1, 0, 0⟩,
    ⟨false, 0, 2, 0, 1⟩, ⟨false, 0, 2, 2, 3⟩, ⟨false, 0, 4, 4, 5⟩]

/-- The tree of "aaaa" (TE2): a root that is a leaf. -/
def treeA : Tree := treeWith [⟨true, 0x61, 4, 0, 0⟩]

/-- READY with a tree, and bytes at the start of BITBUF. -/
def readied (t : Tree) (root : Handle) (bytes : List Byte) : State :=
  { State.reset with ready := true, tree := t, root := root, mem := Memory.cells bitBase bytes }

/-- The state after ENCODE "ab" as TE3 gives it. -/
def readyAb : State :=
  { readied treeAb 2 [0x02, 0x00, 0x00, 0x00] with
    numSyms := 2, nodeCount := 3, origBits := 16, compBits := 2, ratio := 0xC8000,
    freq := tabulate 256 fun i => if i = 0x61 ∨ i = 0x62 then 1 else 0
    codeLen := tabulate 256 fun i => if i = 0x61 ∨ i = 0x62 then 1 else 0
    code := tabulate 256 fun i => if i = 0x62 then 1 else 0 }

/-- An idle HCB with buffer words written at the first and the last word of each buffer. -/
def written : State :=
  { State.reset with
    mem := Memory.cells 0x10000 [1, 2, 3, 4] ++ Memory.cells 0x1FFFC [5, 6, 7, 8]
      ++ Memory.cells 0x20000 [1, 2, 3, 4] ++ Memory.cells 0x2FFFC [5, 6, 7, 8]
      ++ Memory.cells 0x30000 [1, 2, 3, 4] ++ Memory.cells 0x3FFFC [5, 6, 7, 8] }

/-- Busy with an ENCODE of four symbols. -/
def busyEncode : State := { State.reset with pend := some (.encode 4), inLen := 4 }

/-- Busy with a DECODE of two bits. -/
def busyDecode : State := { State.reset with pend := some (.decode 2), inBits := 2 }

/-! ### Well-formed terms (30_encoding.md R82: a read's WDATA is written as 0) -/

theorem test_wellFormed_refuses_read_with_data : (Instr.busRd 0x0001 0x00000005).wellFormed = false := by decide
theorem test_wellFormed_accepts :
    [Instr.nop, .encode, .decode, .busRd 0x0001 0, .busWr 0x4000 0x61616161].all Instr.wellFormed = true := by decide

/-! ### Decoding words written out from the encodings (30_encoding.md R81-R86, R82's layout bit by bit) -/

theorem test_decode_cmd_words :
    decodeCmd 0b00000000000000000000000000000000#32 = some .nop
      ∧ decodeCmd 0b00000000000000000000000000000001#32 = some .encode
      ∧ decodeCmd 0b00000000000000000000000000000010#32 = some .decode := by decide

/-- R86, TX1-TX3, TN5: OP 0x03, all ones, and MBZ not 0 are illegal. -/
theorem test_decode_illegal_words :
    [0x00000003#32, 0xFFFFFFFF#32, 0x00000101#32, 0x00000100#32, 0x80000002#32].map decodeCmd
      = [none, none, none, none, none] := by decide

/-- P1's `wr SYMIN.w[0], 0x61616161` is 0x1_4000_61616161. -/
theorem test_decode_bus_wr :
    decodeHbus 0b1_0100000000000000_01100001011000010110000101100001#49 = .busWr 0x4000 0x61616161 := by decide

/-- P1's `rd STATUS` is 0x0_0001_00000000; a read with a WDATA keeps it, and is a read. -/
theorem test_decode_bus_rd :
    decodeHbus 0b0_0000000000000001_00000000000000000000000000000000#49 = .busRd 0x0001 0
      ∧ decodeHbus 0x0FFFF00000007#49 = .busRd 0xFFFF 7 := by decide

theorem test_decodeTableWord :
    decodeTableWord 32 0 = some .nop ∧ decodeTableWord 32 1 = some .encode ∧ decodeTableWord 32 2 = some .decode
      ∧ decodeTableWord 32 3 = none ∧ decodeTableWord 56 0x1800000000004 = some (.busWr 0x8000 4)
      ∧ decodeTableWord 56 0x0000A00000000 = some (.busRd 0x000A 0) ∧ decodeTableWord 56 (2 ^ 49) = none := by decide

/-- Each table row's word, put in place on the reset state, runs as the next step. -/
theorem test_step_runs_placed_word :
    (after (step (State.reset.withFetchWord 32 1))).map (·.pend) = some (some (.encode 0))
      ∧ (after (step (State.reset.withFetchWord 32 2))).map (·.pend) = some (some (.decode 0))
      ∧ (after (step (State.reset.withFetchWord 56 0x100020000000B))).map (·.inLen) = some 0x0000000B := by decide

/-! ### NOP -/

/-- TN3: NOP does not clear ERR. -/
theorem test_nop_keeps_error :
    (after (exec .nop (State.reset.reject .badCmd))).bind (see · 0x0001) = some 0x00000104 := by decide

/-- TN4: while BUSY = 1 NOP is dropped; after an ENCODE of "ab" completes, STATUS is 0x0000000A. -/
theorem test_nop_busy_is_dropped :
    ((after (exec .nop (texted ab))).bind fun u => (after (complete u)).bind (see · 0x0001)) = some 0x0000000A := by
  decide +kernel

/-! ### ENCODE -/

/-- TX4: IN_LEN = 0x00010000 is LEN_RANGE. TX5, TX11: 0x0000FFFF is accepted, and acceptance clears the errors. -/
theorem test_encode_issue :
    (after (exec .encode { State.reset with inLen := 0x00010000 })).bind (see · 0x0001) = some 0x00000204
      ∧ (after (exec .encode { State.reset.reject .badCmd with inLen := 0x0000FFFF })).map
        (fun u => (u.pend, u.err, u.errCode)) = some (some (.encode 0xFFFF), false, .none) := by decide

/-- TE6: "abracadabra": the counters, the bit-string, records 5, 7 and 8, and CODE of b and r. -/
theorem test_encode_abracadabra :
    (after (complete (texted abra))).map
        (fun t => [0x0004, 0x0005, 0x0006, 0x0007, 0x0008, 0x0009, 0x8000, 0x100B, 0x100F, 0x1010, 0x1011, 0x0B10,
          0x0B90].map (see t))
      = some ([88, 23, 0x001A22E8, 5, 9, 8, 0x003B5176, 0x00030002, 0x00060005, 0x0000000B, 0x00070000, 3,
          7].map some) := by decide +kernel

/-! ### DECODE -/

/-- TX6: IN_BITS = 0x00080001 is BITS_RANGE, also with READY = 0. TX7: 0x00080000 is accepted. -/
theorem test_decode_issue :
    (after (exec .decode { State.reset with inBits := 0x00080001 })).bind (see · 0x0001) = some 0x00000304
      ∧ (after (exec .decode { State.reset with inBits := 0x00080000 })).map (·.pend)
        = some (some (.decode 0x80000)) := by decide

/-- P3: "0010" at a leaf root is DEC_ABSENT_CHILD at bit 2, with two symbols out. R155 with TE5's tree: "001" decodes
'a' and ends inside a code, at B = 3. -/
theorem test_decode_faults :
    (after (complete { readied treeA 0 [0x04, 0, 0, 0] with pend := some (.decode 4) })).map
        (fun t => [0x0001, 0x000A, 0x000B, 0xC000].map (see t)) = some ([0x00000406, 2, 2, 0x00006161].map some)
      ∧ (after (complete { readied treeAbcd 6 [0x04, 0, 0, 0] with pend := some (.decode 3) })).map
        (fun t => [0x0001, 0x000A, 0x000B, 0xC000].map (see t)) = some ([0x00000506, 1, 3, 0x00000061].map some) := by
  decide +kernel

/-! ### The completion step -/

/-- TE4: the rarer symbol gets "0": the stream of "aab" is "110". -/
theorem test_complete_aab :
    (after (complete (texted aab))).map (fun t => [0x8000, 0x1005, 0x1004].map (see t))
      = some ([0x00000003, 0x00000001, 0x00000003].map some) := by decide +kernel

/-- TE12, P4: an empty ENCODE drops the tree and leaves BITBUF. -/
theorem test_complete_empty :
    (after (complete { readyAb with pend := some (.encode 0) })).map
        (fun t => [0x0001, 0x0008, 0x0461, 0x1005, 0x8000].map (see t)) = some ([0, 0, 0, 0, 2].map some) := by
  decide +kernel

/-! ### BUS_RD and BUS_WR -/

/-- R175: the words of a node record with every field at its largest. -/
theorem test_busRd_node_words :
    let s := { State.reset with tree := treeWith [⟨true, 0xFF, 0xFFFF, 0x1FF, 0x1FF⟩] }
    see s 0x1000 = some 0x80FFFFFF ∧ see s 0x1001 = some 0x01FF01FF ∧ see s 0x1002 = some 0 := by decide

/-- R25: STATUS while a DECODE runs, with READY and DROP: 0x5B (95_test_vectors.md, Notation: DROP adds 8). -/
theorem test_busRd_status_busy :
    see { readied treeAb 2 [] with pend := some (.decode 2), drop := true } 0x0001 = some 0x0000005B := by decide

/-- R62, R63: a stored word reads back whole, its first byte and its first bit the lowest. -/
theorem test_busWr_byte_order :
    (after (exec (.busWr 0x7FFF 0x61726263) State.reset)).map (fun t => (t.mem.read 0x1FFFC, see t 0x7FFF))
        = some (some 0x63, some 0x61726263)
      ∧ (after (exec (.busWr 0x8001 0x80000002) State.reset)).map
        (fun t => (t.mem.readBit 32, t.mem.readBit 33, t.mem.readBit 63)) = some (some false, some true, some true) := by
  decide

/-- P3, line 8: a write while BUSY = 1 is dropped. -/
theorem test_busWr_dropped :
    (after (exec (.busWr 0x0002 8) busyEncode)).map (fun t => (t.inLen, t.drop)) = some (4, true) := by decide

/-! ### Reset and unwritten cells (70_reset_and_hazards.md R206, R207) -/

theorem test_reset_abandons_encode :
    (after (step { texted ab with
        mem := Memory.cells symInBase ab ++ Memory.cells bitBase [1], inputs := [.resetEdge none] })).map
      (fun t => (t.pend, t.mem)) = some (none, Memory.cells symInBase ab) := by decide

/-- R219: an idle HCB with only a turn of the engine and a reset edge left is at the end of its run; with a transaction
left it is not. -/
theorem test_runOver :
    RunOver (State.reset.withInputs [.engine, .resetEdge none]) ∧ ¬ RunOver (State.reset.withFetchWord 32 0) := by
  refine ⟨⟨rfl, fun w h => ?_⟩, fun h => h.2 _ List.mem_cons_self⟩
  simp [State.withInputs] at h

theorem test_unwritten_read : faultAt (exec (.busRd 0x4001 0) State.reset) = some 0x10004 := by decide

/-! ### Witnesses: every statement's hypotheses are met, by each clause's inputs at the ends of their ranges -/

/-- The hypotheses of ByteDecoderRefusesByName. -/
theorem test_witness_ByteDecoder :
    ([] : List Byte).length < Format.cmd.byteLength ∧ (List.replicate 3 (0 : Byte)).length < Format.cmd.byteLength
      ∧ (List.replicate 6 (0 : Byte)).length < Format.hbus.byteLength
      ∧ (0x00000003 : Word) ≠ 0 ∧ (0x00000003 : Word) ≠ 1 ∧ (0x00000003 : Word) ≠ 2
      ∧ 2 ^ 49 ≤ 2 ^ 49 ∧ 2 ^ 49 < 2 ^ 56 ∧ 2 ^ 49 ≤ 2 ^ 56 - 1 ∧ 2 ^ 56 - 1 < 2 ^ 56 := by decide

/-- Of StepRunsTheDecodedTransaction. -/
theorem test_witness_StepRuns :
    (State.reset.withFetchWord 56 0).inputs = .transaction 0 :: []
      ∧ (State.reset.withFetchWord 32 2).inputs = .transaction Instr.decode.transaction :: [] := by decide

/-- Of StepGivesTheEngineItsTurn. -/
theorem test_witness_EngineTurn :
    State.reset.inputs = [] ∧ (busyDecode.withInputs [.engine]).inputs = .engine :: [] ∧ State.reset.busy = false := by
  decide

/-- Of CommandIssueFollowsTheCheckOrder, its first two clauses. -/
theorem test_witness_CommandIssue :
    (0x0001 : WordAddr) ≠ 0x0000 ∧ (∃ t, exec (.busWr 0x0001 0) State.reset = .next t)
      ∧ (∃ t, exec (.busRd 0xFFFF 0) written = .next t) ∧ ∃ t, exec (.busRd 0x0000 0) State.reset = .next t := by
  refine ⟨by decide, next_of_after ?_, next_of_after ?_, next_of_after ?_⟩ <;> decide

/-- Of NopChangesNothing and WritesWhileBusyAreDropped, and of every statement whose one premise is BUSY. -/
theorem test_witness_Busy :
    State.reset.busy = false ∧ busyEncode.busy = true ∧ busyDecode.busy = true := by decide

/-- Of CommandsAreAccepted and CommandsAreRejectedPrecisely, where their clauses meet. -/
theorem test_witness_Issue :
    ({ State.reset with inLen := 65535 } : State).busy = false
      ∧ ({ State.reset with inLen := 65535 } : State).inLen.toNat ≤ 65535
      ∧ 65535 < ({ State.reset with inLen := 65536 } : State).inLen.toNat
      ∧ ({ State.reset with inBits := 524288 } : State).inBits.toNat ≤ 524288
      ∧ 524288 < ({ State.reset with inBits := 524289 } : State).inBits.toNat := by decide

/-- Of LengthRegistersHoldAllBits, its last two clauses. -/
theorem test_witness_Length :
    (∃ t, exec .encode { State.reset with inLen := 65535 } = .next t ∧ t.pend = some (.encode 65535))
      ∧ ∃ t, exec .decode { State.reset with inBits := 524288 } = .next t ∧ t.pend = some (.decode 524288) :=
  ⟨⟨_, rfl, rfl⟩, ⟨_, rfl, rfl⟩⟩

/-- Of the three buffers' statements, at the first and the last word of each. -/
theorem test_witness_Buffers :
    written.busy = false
      ∧ ([(0x4000, 0x4000, 0x8000), (0x7FFF, 0x4000, 0x8000), (0x8000, 0x8000, 0xC000), (0xBFFF, 0x8000, 0xC000),
          (0xC000, 0xC000, 0x10000), (0xFFFF, 0xC000, 0x10000)] : List (WordAddr × Nat × Nat)).all
        (fun e => decide (e.2.1 ≤ e.1.toNat ∧ e.1.toNat < e.2.2)
          && (written.mem.readBytes (4 * e.1.toNat) 4).toOption.isSome) = true
      ∧ (∀ k, (h : k < 4) → written.mem.read (symInBase + (4 * 0x3FFF + k)) = some ([5, 6, 7, 8] : List Byte)[k])
      ∧ (∀ k, (h : k < 4) → written.mem.read (symOutBase + (4 * 0x3FFF + k)) = some ([5, 6, 7, 8] : List Byte)[k])
      ∧ ∀ j, (h : j < 32) → written.mem.readBit (32 * 0x3FFF + j)
          = some ((List.range 32).map fun i => (0x08070605#32).getLsbD i)[j] := by
  refine ⟨by decide, by decide, by decide, by decide, by decide⟩

/-- Of ReadOnlyAndUnmappedWritesAreIgnored and UnmappedReadsReturnZero, at the ends of every range. -/
theorem test_witness_Ranges :
    (([0x0001, 0x0004, 0x3FFF, 0xC000, 0xFFFF] : List WordAddr).all fun w =>
        decide (w.toNat = 0x0001 ∨ (0x0004 ≤ w.toNat ∧ w.toNat < 0x4000) ∨ 0xC000 ≤ w.toNat)) = true
      ∧ (([0x000C, 0x03FF, 0x0600, 0x07FF, 0x1400, 0x3FFF] : List WordAddr).all fun w =>
        decide ((0x000C ≤ w.toNat ∧ w.toNat < 0x0400) ∨ (0x0600 ≤ w.toNat ∧ w.toNat < 0x0800)
          ∨ (0x1400 ≤ w.toNat ∧ w.toNat < 0x4000))) = true := by decide

/-- Of StatusReadsExactlyWhileBusy and ReadsWhileBusyAnswer. -/
theorem test_witness_BusyReads :
    busyEncode.busy = true ∧ (∃ len, busyEncode.pend = some (.encode len)) ∧ busyDecode.busy = true
      ∧ (∃ bits, busyDecode.pend = some (.decode bits)) ∧ 4 ≤ (0x0004 : WordAddr).toNat
      ∧ 4 ≤ (0xFFFF : WordAddr).toNat := by
  refine ⟨rfl, ⟨_, rfl⟩, rfl, ⟨_, rfl⟩, ?_, ?_⟩ <;> decide

/-- Of ReadsChangeNoState, idle and busy. -/
theorem test_witness_Reads :
    (∃ t, exec (.busRd 0xFFFF 0) written = .next t) ∧ ∃ t, exec (.busRd 0xFFFF 0) busyDecode = .next t :=
  ⟨next_of_after (by decide), next_of_after (by decide)⟩

theorem textAt_cells (text : List Symbol) : TextAt (Memory.cells symInBase text) text := by
  intro k h
  rw [Memory.read_cells, if_pos (by omega), show symInBase + k - symInBase = k by omega, List.getElem?_eq_getElem h]

/-- Of EncodeRunsToItsResult: a text of one symbol, and the longest text. -/
theorem test_witness_EncodeRuns :
    (∃ (s : State) (text : List Symbol), s.busy = false ∧ text.length = s.inLen.toNat ∧ 0 < text.length
        ∧ text.length ≤ 65535 ∧ TextAt s.mem text ∧ text.length = 1)
      ∧ ∃ (s : State) (text : List Symbol), s.busy = false ∧ text.length = s.inLen.toNat ∧ 0 < text.length
        ∧ text.length ≤ 65535 ∧ TextAt s.mem text ∧ text.length = 65535 := by
  refine ⟨⟨{ texted [0x61] with pend := none }, [0x61], rfl, rfl, by decide, by decide, textAt_cells _, rfl⟩,
    ⟨{ State.reset with inLen := 65535, mem := Memory.cells symInBase (List.replicate 65535 0x61) },
      List.replicate 65535 0x61, rfl, ?_, ?_, ?_, textAt_cells _, ?_⟩⟩ <;> rw [List.length_replicate]
  · rfl
  · omega

theorem commits {text : List Symbol} (hpos : 0 < text.length) (hle : text.length ≤ 65535)
    (h : (after (complete (texted text))).isSome = true) : ∃ t, EncodeCommits (texted text) text t :=
  (next_of_after h).imp fun _ ht => ⟨rfl, hpos, hle, textAt_cells _, ht⟩

/-- Of the statements about an ENCODE of a non-empty text: one symbol, and two or more. In the second a symbol is in
the text, and another is not. -/
theorem test_witness_EncodeCommits :
    (∃ t, EncodeCommits (texted aaaa) aaaa t) ∧ (∃ t, EncodeCommits (texted abra) abra t)
      ∧ (0x61 : Symbol) ∈ abra ∧ (0x65 : Symbol) ∉ abra :=
  ⟨commits (by decide) (by decide) (by decide +kernel), commits (by decide) (by decide) (by decide +kernel), by decide,
    by decide⟩

/-- Of EncodeCodesAreTreePaths, its clauses on N. -/
theorem test_witness_EncodeCodes :
    (after (complete (texted aaaa))).map (fun t => decide (t.numSyms.toNat = 1)) = some true
      ∧ (after (complete (texted abra))).map (fun t => decide (2 ≤ t.numSyms.toNat ∧ t.codeLenOf 0x61 ≤ 7)) = some true
      := by decide +kernel

/-- Of EmptyEncodeClears, and of EncodeAccountsForSizes's second clause. -/
theorem test_witness_EmptyEncode :
    ({ readyAb with pend := some (.encode 0) } : State).pend = some (.encode 0)
      ∧ ∃ t, complete { readyAb with pend := some (.encode 0) } = .next t := ⟨rfl, ⟨_, rfl⟩⟩

/-- Of EncodeDependsOnTheTextAlone, with states that differ. -/
theorem test_witness_EncodeDepends :
    (∃ t, EncodeCommits (texted ab) ab t) ∧ texted ab ≠ { texted ab with ready := true, tree := treeA }
      ∧ ∃ t, EncodeCommits { texted ab with ready := true, tree := treeA } ab t := by
  refine ⟨commits (by decide) (by decide) (by decide +kernel), by decide, ?_⟩
  exact (next_of_after (o := complete { texted ab with ready := true, tree := treeA }) (by decide +kernel)).imp
    fun _ ht => ⟨rfl, by decide, by decide, textAt_cells _, ht⟩

/-- Of DecodeOfNothingIsEmpty: no tree, and no bits. -/
theorem test_witness_DecodeOfNothing :
    (busyDecode.pend = some (.decode 2) ∧ busyDecode.ready = false)
      ∧ ({ readyAb with pend := some (.decode 0) } : State).pend = some (.decode 0) ∧ readyAb.ready = true :=
  ⟨⟨rfl, rfl⟩, rfl, rfl⟩

/-! #### DECODE over codes -/

theorem isCode_a : IsCode treeAbcd 6 [false, false] 0x61 :=
  ⟨0, ⟨by decide, by decide, show treeAbcd.child (treeAbcd.child 6 false) false = 0 by decide⟩, by decide, by decide⟩

theorem isCode_d : IsCode treeAbcd 6 [true, true] 0x64 :=
  ⟨3, ⟨by decide, by decide, show treeAbcd.child (treeAbcd.child 6 true) true = 3 by decide⟩, by decide, by decide⟩

theorem bitsAt_of_all {m : Memory} {bits : List Bool}
    (h : ((List.range bits.length).all fun i => decide (m.readBit i = bits[i]?)) = true) : BitsAt m bits := by
  intro i hi
  have := List.all_eq_true.1 h i (List.mem_range.2 hi)
  rw [← List.getElem?_eq_getElem hi]
  exact of_decide_eq_true this

/-- Of DecodeFollowsTheTree: "ad" whole, and followed by half a code; and no bits at all. -/
theorem test_witness_DecodeFollows :
    ∃ s₁ s₂ s₃ : State, s₁.busy = false ∧ s₁.ready = true ∧ (s₁.tree.node s₁.root).leaf = false
      ∧ List.Forall₂ (IsCode s₁.tree s₁.root) [[false, false], [true, true]] [0x61, 0x64]
      ∧ Reaches s₁.tree s₁.root [] s₁.root ∧ ([[false, false], [true, true]].flatten ++ []).length = s₁.inBits.toNat
      ∧ s₁.inBits.toNat ≤ 524288 ∧ BitsAt s₁.mem ([[false, false], [true, true]].flatten ++ [])
      ∧ s₂ = { s₁ with inBits := 5 } ∧ Reaches s₂.tree s₂.root [false] 4 ∧ (s₂.tree.node 4).leaf = false
      ∧ (4 : Handle) ≠ s₂.root ∧ ([[false, false], [true, true]].flatten ++ [false]).length = s₂.inBits.toNat
      ∧ BitsAt s₂.mem ([[false, false], [true, true]].flatten ++ [false])
      ∧ s₃ = { s₁ with inBits := 0 } ∧ (([] : List (List Bool)).flatten ++ []).length = s₃.inBits.toNat := by
  refine ⟨{ readied treeAbcd 6 [0x0C, 0, 0, 0] with inBits := 4 }, _, _, rfl, rfl, by decide,
    .cons isCode_a (.cons isCode_d .nil), rfl, rfl, by decide, bitsAt_of_all (by decide), rfl, ⟨by decide, ?_⟩, by decide,
    by decide, rfl, bitsAt_of_all (by decide), rfl, rfl⟩
  show treeAbcd.child 6 false = 4
  decide

/-- BITBUF with its first 65560 bits 0. -/
def zeroBits : Memory := Memory.cells bitBase (List.replicate 8195 0)

theorem bitsAt_zeroBits {n : Nat} (h : n ≤ 65560) : BitsAt zeroBits (List.replicate n false) := by
  intro i hi
  rw [List.length_replicate] at hi
  rw [Memory.readBit, bitAddr, zeroBits, Memory.read_cells, if_pos ⟨by omega, by rw [List.length_replicate]; omega⟩,
    show bitBase + i / 8 - bitBase = i / 8 by omega,
    List.getElem?_eq_getElem (by rw [List.length_replicate]; omega), List.getElem_replicate, List.getElem_replicate,
    Option.map_some]
  show some ((0#8).getLsbD (i % 8)) = some false
  rw [BitVec.getLsbD_zero]

theorem codes_zeros (n : Nat) {t : Tree} {r : Handle} {sym : Symbol} (h : IsCode t r [false] sym) :
    List.Forall₂ (IsCode t r) (List.replicate n [false]) (List.replicate n sym) := by
  induction n with
  | zero => exact .nil
  | succ n ih => exact .cons h ih

theorem flatten_zeros (n : Nat) : (List.replicate n [false]).flatten = List.replicate n false := by
  induction n with
  | zero => rfl
  | succ n ih => rw [List.replicate_succ, List.flatten_cons, ih]; rfl

/-- Of DecodeAtALeafRoot: n = 0, n = 2 and n = 65536 zero bits, alone; and two zero bits and a 1. -/
theorem test_witness_DecodeAtALeafRoot :
    ∃ s : State, s.busy = false ∧ s.ready = true ∧ (s.tree.node s.root).leaf = true
      ∧ ({ s with inBits := 0 } : State).inBits.toNat = 0
      ∧ (({ s with inBits := 65536 } : State).inBits.toNat = 65536 ∧ BitsAt s.mem (List.replicate 65536 false))
      ∧ (2 < ({ s with inBits := 524288 } : State).inBits.toNat
        ∧ BitsAt (Memory.cells bitBase [4]) (List.replicate 2 false ++ [true])) :=
  ⟨{ readied treeA 0 [] with mem := zeroBits }, rfl, rfl, by decide, rfl, ⟨rfl, bitsAt_zeroBits (by omega)⟩, by decide,
    bitsAt_of_all (by decide)⟩

theorem isCode_zero : IsCode treeAb 2 [false] 0x61 :=
  ⟨0, ⟨by decide, show treeAb.child 2 false = 0 by decide⟩, by decide, by decide⟩

/-- Of DecodeOverflowsAtItsCapacity: 65537 codes "0" at an internal root, and 65537 zero bits at a leaf root. -/
theorem test_witness_DecodeOverflows :
    (∃ (s : State) (codes : List (List Bool)) (syms : List Symbol), s.busy = false ∧ s.ready = true
        ∧ s.inBits.toNat ≤ 524288 ∧ (s.tree.node s.root).leaf = false
        ∧ List.Forall₂ (IsCode s.tree s.root) codes syms ∧ syms.length = 65537
        ∧ codes.flatten.length ≤ s.inBits.toNat ∧ BitsAt s.mem codes.flatten)
      ∧ ∃ s : State, s.busy = false ∧ s.ready = true ∧ s.inBits.toNat ≤ 524288 ∧ (s.tree.node s.root).leaf = true
        ∧ 65537 ≤ s.inBits.toNat ∧ BitsAt s.mem (List.replicate 65537 false) := by
  refine ⟨⟨{ readied treeAb 2 [] with mem := zeroBits, inBits := 65537 }, List.replicate 65537 [false],
    List.replicate 65537 0x61, rfl, rfl, by decide, by decide, codes_zeros _ isCode_zero, List.length_replicate, ?_, ?_⟩,
    ⟨{ readied treeA 0 [] with mem := zeroBits, inBits := 65537 }, rfl, rfl, by decide, by decide, by decide,
      bitsAt_zeroBits (by omega)⟩⟩
  · rw [flatten_zeros, List.length_replicate]
    decide
  · rw [flatten_zeros]
    exact bitsAt_zeroBits (by omega)

/-- Of DecodeTouchesOnlyItsOutput and DecodeDependsOnTreeAndBitsAlone: "01" at the tree of "ab", in two states. -/
theorem test_witness_DecodeCompletes :
    (∃ t, complete { readyAb with pend := some (.decode 2) } = .next t)
      ∧ ∀ i, i < (2 : BitVec 20).toNat →
        ({ readyAb with mem := Memory.cells bitBase [0xF2] } : State).mem.readBit i = readyAb.mem.readBit i :=
  ⟨next_of_after (by decide +kernel), by decide⟩

/-! #### A state with a retained tree -/

theorem handle_lt_three {h : Handle} (hh : h.toNat < 3) : h = 0 ∨ h = 1 ∨ h = 2 := by
  rcases (show h.toNat = 0 ∨ h.toNat = 1 ∨ h.toNat = 2 by omega) with e | e | e
  · exact .inl (BitVec.eq_of_toNat_eq e)
  · exact .inr (.inl (BitVec.eq_of_toNat_eq e))
  · exact .inr (.inr (BitVec.eq_of_toNat_eq e))

theorem strictTree_ab : StrictTree treeAb 2 3 where
  root_node := by
    refine ⟨by decide, ?_⟩
    rintro h ⟨hh, hl, hc⟩
    rcases handle_lt_three hh with rfl | rfl | rfl <;> revert hl hc <;> decide
  internal := by
    intro h hh hl
    rcases handle_lt_three hh with rfl | rfl | rfl <;> revert hl <;> decide
  leaf := by
    intro h hh hl
    rcases handle_lt_three hh with rfl | rfl | rfl <;> revert hl <;> decide
  one_parent := by
    intro g hg hne
    refine ⟨2, ⟨by decide, by decide, ?_⟩, ?_⟩
    · rcases handle_lt_three hg with rfl | rfl | rfl
      · exact .inl (by decide)
      · exact .inr (by decide)
      · exact absurd rfl hne
    · rintro h ⟨hh, hl, -⟩
      rcases handle_lt_three hh with rfl | rfl | rfl
      · exact absurd hl (by decide)
      · exact absurd hl (by decide)
      · rfl
  unused := by
    intro h hh
    simp only [Machine.Tree.node, treeAb, treeWith, getElem_tabulate, List.getD_eq_getElem?_getD]
    rw [List.getElem?_eq_none hh]
    rfl

theorem toNat_ne {x : Symbol} {n : Nat} (c : Symbol) (h : ¬ x = c) (hn : c.toNat = n) : ¬ x.toNat = n :=
  fun e => h (BitVec.eq_of_toNat_eq (e.trans hn.symm))

theorem not_toNat {x : Symbol} (h : ¬ (x = 0x61 ∨ x = 0x62)) : ¬ (x.toNat = 0x61 ∨ x.toNat = 0x62) :=
  not_or.2 ⟨toNat_ne 0x61 (not_or.1 h).1 rfl, toNat_ne 0x62 (not_or.1 h).2 rfl⟩

theorem freqOf_ab : readyAb.freqOf = fun x => if x = 0x61 ∨ x = 0x62 then 1 else 0 := by
  funext x
  simp only [State.freqOf, readyAb, getElem_tabulate]
  by_cases h : x = 0x61 ∨ x = 0x62
  · rw [if_pos h]
    rcases h with rfl | rfl <;> rfl
  · rw [if_neg h, if_neg (show ¬ (x.toNat = 0x61 ∨ x.toNat = 0x62) from not_toNat h)]
    rfl

theorem codeLenOf_ab : readyAb.codeLenOf = fun x => if x = 0x61 ∨ x = 0x62 then 1 else 0 := by
  funext x
  simp only [State.codeLenOf, readyAb, getElem_tabulate]
  by_cases h : x = 0x61 ∨ x = 0x62
  · rw [if_pos h]
    rcases h with rfl | rfl <;> rfl
  · rw [if_neg h, if_neg (show ¬ (x.toNat = 0x61 ∨ x.toNat = 0x62) from not_toNat h)]
    rfl

theorem code_ab (x : Symbol) : readyAb.code[x.toNat]'(x.isLt) = if x = 0x62 then 1 else 0 := by
  simp only [readyAb, getElem_tabulate]
  by_cases h : x = 0x62
  · rw [if_pos h]
    subst h
    rfl
  · rw [if_neg h, if_neg (show ¬ x.toNat = 0x62 from toNat_ne 0x62 h rfl)]

theorem seen_ab {x : Symbol} (h : 0 < if x = 0x61 ∨ x = 0x62 then 1 else 0) : x = 0x61 ∨ x = 0x62 := by
  by_contra hn
  rw [if_neg hn] at h
  exact absurd h (by decide)

theorem retained_ab : Retained readyAb where
  tree := strictTree_ab
  leaves := by
    refine ⟨?_, ?_⟩
    · intro h hh hl
      rcases handle_lt_three hh with rfl | rfl | rfl <;> revert hl <;> decide
    · intro sym hs
      rw [freqOf_ab] at hs
      rcases seen_ab hs with rfl | rfl
      · refine ⟨0, ⟨by decide, by decide, by decide⟩, ?_⟩
        intro h hh hl hsym
        rcases handle_lt_three hh with rfl | rfl | rfl <;> revert hl hsym <;> decide
      · refine ⟨1, ⟨by decide, by decide, by decide⟩, ?_⟩
        intro h hh hl hsym
        rcases handle_lt_three hh with rfl | rfl | rfl <;> revert hl hsym <;> decide
  leaf_freq := by
    intro h hh hl
    rcases handle_lt_three hh with rfl | rfl | rfl <;> revert hl <;> decide
  sums := by
    intro h hh hl
    rcases handle_lt_three hh with rfl | rfl | rfl <;> revert hl <;> decide
  codes := by
    intro h hh hl
    rcases handle_lt_three hh with rfl | rfl | rfl
    · rw [if_neg (by decide), show readyAb.codeBits (readyAb.tree.node 0).sym = [false] by decide]
      exact ⟨by decide, show treeAb.child 2 false = 0 by decide⟩
    · rw [if_neg (by decide), show readyAb.codeBits (readyAb.tree.node 1).sym = [true] by decide]
      exact ⟨by decide, show treeAb.child 2 true = 1 by decide⟩
    · exact absurd hl (by decide)
  prefix_free := by
    intro a b hab ha hb
    rw [codeLenOf_ab] at ha hb
    rcases seen_ab ha with rfl | rfl <;> rcases seen_ab hb with rfl | rfl
    · exact absurd rfl hab
    · decide
    · decide
    · exact absurd rfl hab
  coded := by rw [codeLenOf_ab, freqOf_ab]; exact fun _ => Iff.rfl
  high_bits := by
    intro sym j hj
    rw [code_ab]
    by_cases h : sym = 0x62
    · subst h
      have : 1 ≤ j := hj
      simp [show j ≠ 0 by omega]
    · rw [if_neg h]
      exact BitVec.getLsbD_zero
  counts := by rw [State.seen, freqOf_ab]; decide +kernel
  orig := by rw [freqOf_ab]; decide +kernel

/-- Of TwoSymbolTreesHaveNoAbsentChild, and of the two statements that steps keep RetainedInv and SizeInv. -/
theorem test_witness_Retained :
    Retained readyAb ∧ 2 ≤ readyAb.numSyms.toNat ∧ RetainedInv readyAb ∧ SizeInv readyAb
      ∧ (∃ t, complete { readyAb with pend := some (.decode 2) } = .next t) ∧ ∃ t, step readyAb = .next t :=
  ⟨retained_ab, by decide, ⟨fun _ => retained_ab, fun h => absurd h (by decide)⟩,
    ⟨by rw [freqOf_ab, codeLenOf_ab]; decide +kernel, by decide, by decide, by decide⟩, next_of_after (by decide +kernel), ⟨_, rfl⟩⟩

/-- Of RoundTrip: the ENCODE of "ab" and, with other registers changed since, a DECODE of its bits. -/
theorem test_witness_RoundTrip :
    ∃ t s' : State, EncodeCommits (texted ab) ab t ∧ s'.tree = t.tree ∧ s'.root = t.root ∧ s'.ready = t.ready
      ∧ (∀ a, bitBase ≤ a → a < symOutBase → s'.mem.read a = t.mem.read a) ∧ s'.pend = some (.decode t.compBits)
      ∧ s' ≠ t := by
  obtain ⟨t, ht⟩ := commits (text := ab) (by decide) (by decide) (by decide +kernel)
  refine ⟨t, { t with pend := some (.decode t.compBits) }, ht, rfl, rfl, rfl, fun _ _ _ => rfl, rfl, ?_⟩
  have hp : (after (complete (texted ab))).map (fun t => t.pend) = some none := by decide +kernel
  rw [ht.2.2.2.2] at hp
  intro h
  have h2 : some (Pending.decode t.compBits) = t.pend := congrArg State.pend h
  rw [show t.pend = none from Option.some.inj hp] at h2
  cases h2

/-! #### The whole machine -/

/-- Of ResetEdgeRestoresResetValues, and its clauses on PEND. -/
theorem test_witness_ResetEdge :
    (State.reset.withInputs [.resetEdge none]).inputs = .resetEdge none :: [] ∧ State.reset.pend = none
      ∧ (busyEncode.withInputs [.resetEdge (some 0)]).inputs = .resetEdge (some 0) :: []
      ∧ busyEncode.pend = some (.encode 4) ∧ busyDecode.pend = some (.decode 2) := by decide

/-- Of UnwrittenReadsFault, in each of its clauses, at the first and the last byte. -/
theorem test_witness_Unwritten :
    (State.reset.mem.read 0x10000 = none ∧ 0x4000 ≤ (0x4000 : WordAddr).toNat ∧ 4 * (0x4000 : WordAddr).toNat ≤ 0x10000)
      ∧ (({ State.reset with mem := Memory.cells 0x3FFFC [1, 2, 3] } : State).mem.read 0x3FFFF = none
        ∧ 0x3FFFF < 4 * (0xFFFF : WordAddr).toNat + 4
        ∧ [0x3FFFC, 0x3FFFD, 0x3FFFE].all (fun b => (Memory.read (Memory.cells 0x3FFFC [1, 2, 3]) b).isSome) = true)
      ∧ (busyEncode.mem.read symInBase = none ∧ busyEncode.pend = some (.encode 4) ∧ symInBase < symInBase + 4)
      ∧ (({ readied treeAb 2 [] with pend := some (.decode 2) } : State).mem.read (bitAddr 0) = none
        ∧ (readied treeAb 2 []).ready = true ∧ 0 < (2 : BitVec 20).toNat
        ∧ (walk treeAb 2 (readied treeAb 2 []).mem 0 0 2 0).toOption = some ⟨[], none⟩)
      ∧ (({ readied treeA 0 [0] with pend := some (.decode 9) } : State).mem.read (bitAddr 8) = none
        ∧ (readied treeA 0 [0]).ready = true ∧ 8 < (9 : BitVec 20).toNat
        ∧ (walk treeA 0 (readied treeA 0 [0]).mem 8 0 0 0).toOption = some ⟨List.replicate 8 0x61, none⟩) := by decide

/-- Of OnlyUnwrittenReadsStop. -/
theorem test_witness_Stops : step (State.reset.withFetchWord 56 0x0400000000000) = .fault (.unwrittenRead 0x10000) := rfl

/-- Of StepKeepsControlInvariant, in an idle state with a value in a register, and in a busy one. -/
theorem test_witness_Control :
    ControlInv { State.reset with inLen := 4 } ∧ ControlInv busyEncode
      ∧ ∃ t, step (busyEncode.withFetchWord 32 0) = .next t := by
  refine ⟨⟨List.Pairwise.nil, fun _ _ _ => rfl, by decide, fun h => absurd h (by decide), trivial, by decide⟩,
    ⟨List.Pairwise.nil, fun _ _ _ => rfl, by decide, fun _ => by decide, rfl, by decide⟩, ⟨_, rfl⟩⟩

/-- Of the statements on what changes only by whose turn: a reset edge, the engine's turn with an ENCODE, and a step
that is none of them. -/
theorem test_witness_Turns :
    (ResetTurn (State.reset.withInputs [.resetEdge none]) ∧ ∃ t, step (State.reset.withInputs [.resetEdge none]) = .next t)
      ∧ (EngineTurn (texted ab) ∧ (∃ len, (texted ab).pend = some (.encode len)) ∧ ∃ t, step (texted ab) = .next t)
      ∧ (¬ ResetTurn (State.reset.withFetchWord 32 0) ∧ ¬ EncodeTurn (State.reset.withFetchWord 32 0)
        ∧ ¬ DecodeTurn (State.reset.withFetchWord 32 0) ∧ ∃ t, step (State.reset.withFetchWord 32 0) = .next t) := by
  refine ⟨⟨⟨_, _, rfl⟩, ⟨_, rfl⟩⟩, ⟨.inl rfl, ⟨_, rfl⟩, next_of_after (by decide +kernel)⟩, ?_, ?_, ?_, ⟨_, rfl⟩⟩
  · rintro ⟨p, rest, h⟩
    cases h
  · rintro ⟨-, len, h⟩
    cases h
  · rintro ⟨-, bits, h⟩
    cases h

/-- Of SymbolInputChangesOnlyByHostWrites: a write that changes a byte. -/
theorem test_witness_SymbolInput :
    ∃ t, step (State.reset.withFetchWord 56 0x17FFF00000061) = .next t ∧ symInBase ≤ 0x1FFFC ∧ 0x1FFFC < bitBase
      ∧ t.mem.read 0x1FFFC ≠ (State.reset.withFetchWord 56 0x17FFF00000061).mem.read 0x1FFFC :=
  ⟨_, rfl, by decide, by decide, by decide⟩

/-- Of DropFollowsBusyWrites: DROP set by a write while BUSY = 1, and cleared by an acceptance. -/
theorem test_witness_Drop :
    (∃ t, step (busyEncode.withFetchWord 32 0) = .next t ∧ busyEncode.drop = false ∧ t.drop = true)
      ∧ ∃ t, step (({ State.reset with drop := true } : State).withFetchWord 32 1) = .next t ∧ t.drop = false :=
  ⟨⟨_, rfl, rfl, rfl⟩, ⟨_, rfl, rfl⟩⟩

/-- Of ErrorReportsStayUntilAcceptance: a rejection changes ERR_CODE, and a DECODE's fault ERR_POS. -/
theorem test_witness_ErrorReports :
    (∃ t, step (State.reset.withFetchWord 32 3) = .next t ∧ t.errCode ≠ State.reset.errCode
        ∧ ¬ ResetTurn (State.reset.withFetchWord 32 3) ∧ t.busy = false)
      ∧ (after (step { readied treeAbcd 6 [0x04] with pend := some (.decode 3) })).map
        (fun t => decide (t.errPos ≠ 0 ∧ t.busy = false)) = some true := by
  refine ⟨⟨_, rfl, by decide, ?_, rfl⟩, by decide +kernel⟩
  rintro ⟨p, rest, h⟩
  cases h

/-- Of TransactionsDoNotDisturbARunningCommand: a read and a write come before a DECODE completes. -/
theorem test_witness_Transactions :
    (busyDecode.withInputs ([0, 0x1000200000008].map .transaction)).busy = true
      ∧ (busyDecode.withInputs ([0, 0x1000200000008].map .transaction)).inputs
        = ([0, 0x1000200000008] : List HbusWord).map .transaction
      ∧ ∃ u, complete { busyDecode.withInputs ([0, 0x1000200000008].map .transaction) with inputs := [] } = .next u :=
  ⟨rfl, rfl, ⟨_, rfl⟩⟩

end Sys2Proof.Tests
end

section
/-! PROOFS. The records of a text as a forest, and at the end a strict binary tree (41_encode.md R122-R129). -/

namespace Sys2Proof.Machine

/-! ### The records as a forest: what every merge keeps (41_encode.md R123-R128)

`merged` grows a list of records. `Forest` says, in the predicates that `StrictTree` is made of, that the records made so
far are a forest whose roots are the queue's members; when one member is left it is a strict tree. -/

/-- Handles at or above the number of records made hold the zero record (41_encode.md R126). -/
theorem node_treeOfNodes_unused {nodes : List NodeRec} {h : Handle} (hh : nodes.length ≤ h.toNat) :
    (treeOfNodes nodes).node h = NodeRec.zero := by
  rw [node_treeOfNodes, List.getD_eq_default _ _ hh]

/-- A record already made stays where it is. -/
theorem node_treeOfNodes_append_old {nodes : List NodeRec} {r : NodeRec} {h : Handle} (hh : h.toNat < nodes.length) :
    (treeOfNodes (nodes ++ [r])).node h = (treeOfNodes nodes).node h := by
  rw [node_treeOfNodes, node_treeOfNodes, List.getD_append _ _ _ _ hh]

/-- The record made last stands at the next handle. -/
theorem node_treeOfNodes_append_new {nodes : List NodeRec} {r : NodeRec} {h : Handle} (hh : h.toNat = nodes.length) :
    (treeOfNodes (nodes ++ [r])).node h = r := by
  rw [node_treeOfNodes, hh, List.getD_append_right _ _ _ _ (Nat.le_refl _)]
  simp

/-- A merge makes the two members it takes children of the new node, and no other node's. -/
theorem isParent_append {nodes : List NodeRec} {a b : QItem} {h g : Handle} :
    IsParent (treeOfNodes (nodes ++ [internalRec a b])) (nodes.length + 1) h g ↔
      IsParent (treeOfNodes nodes) nodes.length h g
        ∨ (h.toNat = nodes.length ∧ (BitVec.ofNat 9 a.handle = g ∨ BitVec.ofNat 9 b.handle = g)) := by
  rcases Nat.lt_trichotomy h.toNat nodes.length with hlt | heq | hgt
  · simp only [IsParent, node_treeOfNodes_append_old hlt]
    constructor
    · rintro ⟨-, h2⟩
      exact .inl ⟨hlt, h2⟩
    · rintro (⟨-, h2⟩ | ⟨h2, -⟩)
      · exact ⟨by omega, h2⟩
      · omega
  · simp [IsParent, node_treeOfNodes_append_new heq, internalRec, heq]
  · simp only [IsParent]
    omega

/-- The records made so far are a forest whose roots are the queue's members, of which `total` is the summed
frequency. -/
structure Forest (total : Nat) (nodes : List NodeRec) (q : List QItem) : Prop where
  /-- The members are distinct. -/
  nodup : (q.map QItem.handle).Nodup
  /-- The members share the frequency of all the leaves (41_encode.md R128). -/
  total : (q.map QItem.freq).sum = total
  /-- A member is a node made, no node's child, and its record holds its frequency. -/
  member : ∀ it ∈ q, it.handle < nodes.length
    ∧ (∀ h, ¬ IsParent (treeOfNodes nodes) nodes.length h (BitVec.ofNat 9 it.handle))
    ∧ ((treeOfNodes nodes).node (BitVec.ofNat 9 it.handle)).freq.toNat = it.freq
  /-- A leaf has no children. -/
  leaf : ∀ h : Handle, h.toNat < nodes.length → ((treeOfNodes nodes).node h).leaf = true →
    ((treeOfNodes nodes).node h).left = 0 ∧ ((treeOfNodes nodes).node h).right = 0
  /-- An internal node has two distinct children, both made before it, and SYM = 0. -/
  internal : ∀ h : Handle, h.toNat < nodes.length → ((treeOfNodes nodes).node h).leaf = false →
    ((treeOfNodes nodes).node h).left.toNat < h.toNat ∧ ((treeOfNodes nodes).node h).right.toNat < h.toNat
      ∧ ((treeOfNodes nodes).node h).left ≠ ((treeOfNodes nodes).node h).right
      ∧ ((treeOfNodes nodes).node h).sym = 0
  /-- An internal node's frequency is the sum of its children's. -/
  sums : FreqSums (treeOfNodes nodes) nodes.length
  /-- Every node that is no member of the queue is the child of exactly one node. -/
  one_parent : ∀ g : Handle, g.toNat < nodes.length → g.toNat ∉ q.map QItem.handle →
    ∃ h, IsParent (treeOfNodes nodes) nodes.length h g
      ∧ ∀ h', IsParent (treeOfNodes nodes) nodes.length h' g → h' = h

/-- The queue's order does not matter to the forest. -/
theorem Forest.perm {total : Nat} {nodes : List NodeRec} {q q' : List QItem} (hf : Forest total nodes q)
    (hp : q.Perm q') : Forest total nodes q' where
  nodup := (hp.map _).nodup_iff.1 hf.nodup
  total := (hp.map QItem.freq).sum_eq ▸ hf.total
  member it hit := hf.member it (hp.mem_iff.2 hit)
  leaf := hf.leaf
  internal := hf.internal
  sums := hf.sums
  one_parent g hg hnot := hf.one_parent g hg fun hm => hnot ((hp.map _).mem_iff.1 hm)

/-- A node's children are made before it. -/
theorem Forest.child_lt {total : Nat} {nodes : List NodeRec} {q : List QItem} (hf : Forest total nodes q)
    {h g : Handle} (hp : IsParent (treeOfNodes nodes) nodes.length h g) : g.toNat < h.toNat := by
  obtain ⟨hh, hleaf, hg⟩ := hp
  obtain ⟨hl, hr, -, -⟩ := hf.internal h hh hleaf
  rcases hg with rfl | rfl
  · exact hl
  · exact hr

/-- A member's handle as a node's. -/
theorem Forest.member_toNat {total : Nat} {nodes : List NodeRec} {q : List QItem} (hf : Forest total nodes q)
    (hlen : nodes.length < 512) {it : QItem} (hit : it ∈ q) : (BitVec.ofNat 9 it.handle).toNat = it.handle := by
  have := (hf.member it hit).1
  rw [BitVec.toNat_ofNat, Nat.mod_eq_of_lt (by omega)]

section Merge

variable {total : Nat} {nodes : List NodeRec} {a b : QItem} {rest : List QItem}
  (hf : Forest total nodes (a :: b :: rest)) (hlen : nodes.length < 512)

include hf

/-- The two members a merge takes differ from one another and from those left. -/
theorem Forest.taken_ne : a.handle ≠ b.handle ∧ ∀ it ∈ rest, it.handle ≠ a.handle ∧ it.handle ≠ b.handle := by
  have hnd := hf.nodup
  simp only [List.map_cons, List.nodup_cons, List.mem_cons, List.mem_map, not_or, not_exists, not_and] at hnd
  exact ⟨hnd.1.1, fun it hit => ⟨hnd.1.2 it hit, hnd.2.1 it hit⟩⟩

/-- A node the merge took has the new node as its one parent. -/
theorem Forest.isParent_merge_of_taken {it : QItem} (hit : it = a ∨ it = b) {h : Handle} :
    IsParent (treeOfNodes (nodes ++ [internalRec a b])) (nodes.length + 1) h (BitVec.ofNat 9 it.handle) ↔
      h.toNat = nodes.length := by
  have hmem : it ∈ a :: b :: rest := by rcases hit with rfl | rfl <;> simp
  rw [isParent_append, or_iff_right ((hf.member it hmem).2.1 h)]
  rcases hit with rfl | rfl <;> simp

include hlen

/-- A node the merge did not take has the parents it had. -/
theorem Forest.isParent_merge_of_not_taken {g h : Handle} (hga : g.toNat ≠ a.handle) (hgb : g.toNat ≠ b.handle) :
    IsParent (treeOfNodes (nodes ++ [internalRec a b])) (nodes.length + 1) h g ↔
      IsParent (treeOfNodes nodes) nodes.length h g := by
  have ha := hf.member_toNat hlen (it := a) (by simp)
  have hb := hf.member_toNat hlen (it := b) (by simp)
  rw [isParent_append, or_iff_left]
  rintro ⟨-, rfl | rfl⟩ <;> contradiction

/-- The members after a merge: those left, and the new node. -/
theorem Forest.member_merge (htotal : total < 2 ^ 16) :
    ∀ it ∈ rest ++ [⟨a.freq + b.freq, nodes.length⟩], it.handle < (nodes ++ [internalRec a b]).length
      ∧ (∀ h, ¬ IsParent (treeOfNodes (nodes ++ [internalRec a b])) (nodes ++ [internalRec a b]).length h
        (BitVec.ofNat 9 it.handle))
      ∧ ((treeOfNodes (nodes ++ [internalRec a b])).node (BitVec.ofNat 9 it.handle)).freq.toNat = it.freq := by
  intro it hit
  rw [List.length_append, List.length_singleton]
  rcases List.mem_append.1 hit with hit | hit
  · have hmem : it ∈ a :: b :: rest := by simp [hit]
    have hnat := hf.member_toNat hlen hmem
    obtain ⟨hlt, hno, hfreq⟩ := hf.member it hmem
    obtain ⟨hna, hnb⟩ := hf.taken_ne.2 it hit
    refine ⟨by omega, fun h => ?_, ?_⟩
    · rw [hf.isParent_merge_of_not_taken hlen (by rwa [hnat]) (by rwa [hnat])]
      exact hno h
    · rw [node_treeOfNodes_append_old (by rwa [hnat])]
      exact hfreq
  · obtain rfl := List.mem_singleton.1 hit
    have hnat : (BitVec.ofNat 9 nodes.length).toNat = nodes.length := by
      rw [BitVec.toNat_ofNat, Nat.mod_eq_of_lt hlen]
    have ha := (hf.member a (by simp)).1
    have hb := (hf.member b (by simp)).1
    have hsum := hf.total
    simp only [List.map_cons, List.sum_cons] at hsum
    refine ⟨by simp, fun h => ?_, ?_⟩
    · rw [hf.isParent_merge_of_not_taken hlen (by rw [hnat]; omega) (by rw [hnat]; omega)]
      intro hp
      have hlt : nodes.length < h.toNat := by rw [← hnat]; exact hf.child_lt hp
      have := hp.1
      omega
    · rw [node_treeOfNodes_append_new hnat]
      simp only [internalRec, BitVec.toNat_ofNat]
      omega

/-- The new node's frequency is the sum of its children's, and the older sums stay (41_encode.md R128). -/
theorem Forest.sums_merge (htotal : total < 2 ^ 16) :
    FreqSums (treeOfNodes (nodes ++ [internalRec a b])) (nodes.length + 1) := by
  intro h hh
  rcases Nat.lt_succ_iff_lt_or_eq.1 hh with hlt | heq
  · rw [node_treeOfNodes_append_old hlt]
    intro hleaf
    obtain ⟨hcl, hcr, -, -⟩ := hf.internal h hlt hleaf
    rw [node_treeOfNodes_append_old (by omega), node_treeOfNodes_append_old (by omega)]
    exact hf.sums h hlt hleaf
  · intro _
    obtain ⟨ha, -, hfa⟩ := hf.member a (by simp)
    obtain ⟨hb, -, hfb⟩ := hf.member b (by simp)
    have hna := hf.member_toNat hlen (it := a) (by simp)
    have hnb := hf.member_toNat hlen (it := b) (by simp)
    obtain ⟨-, -, hnew⟩ := hf.member_merge hlen htotal _ (List.mem_append_right _ (List.mem_singleton_self _))
    rw [← heq, BitVec.ofNat_toNat, BitVec.setWidth_eq] at hnew
    rw [hnew, node_treeOfNodes_append_new heq]
    simp only [internalRec]
    rw [node_treeOfNodes_append_old (by omega), node_treeOfNodes_append_old (by omega), hfa, hfb]

/-- After a merge an older node that is no member of the queue has one parent: the new node, or the one it had. -/
theorem Forest.one_parent_merge {g : Handle} (hg : g.toNat < nodes.length) (hnot : g.toNat ∉ rest.map QItem.handle) :
    ∃ h, IsParent (treeOfNodes (nodes ++ [internalRec a b])) (nodes.length + 1) h g
      ∧ ∀ h', IsParent (treeOfNodes (nodes ++ [internalRec a b])) (nodes.length + 1) h' g → h' = h := by
  by_cases htaken : ∃ it, (it = a ∨ it = b) ∧ g.toNat = it.handle
  · obtain ⟨it, hit, heq⟩ := htaken
    obtain rfl : BitVec.ofNat 9 it.handle = g := by rw [← heq, BitVec.ofNat_toNat, BitVec.setWidth_eq]
    simp only [hf.isParent_merge_of_taken hit]
    have hnat : (BitVec.ofNat 9 nodes.length).toNat = nodes.length := by
      rw [BitVec.toNat_ofNat, Nat.mod_eq_of_lt hlen]
    exact ⟨BitVec.ofNat 9 nodes.length, hnat, fun h' hh' => BitVec.eq_of_toNat_eq (hh'.trans hnat.symm)⟩
  · have hga : g.toNat ≠ a.handle := fun he => htaken ⟨a, .inl rfl, he⟩
    have hgb : g.toNat ≠ b.handle := fun he => htaken ⟨b, .inr rfl, he⟩
    simp only [hf.isParent_merge_of_not_taken hlen hga hgb]
    exact hf.one_parent g hg (by simp [hga, hgb, hnot])

/-- One merge keeps the forest (41_encode.md R125). -/
theorem Forest.merge (htotal : total < 2 ^ 16) :
    Forest total (nodes ++ [internalRec a b]) (rest ++ [⟨a.freq + b.freq, nodes.length⟩]) := by
  have ha := (hf.member a (by simp)).1
  have hb := (hf.member b (by simp)).1
  have hna := hf.member_toNat hlen (it := a) (by simp)
  have hnb := hf.member_toNat hlen (it := b) (by simp)
  have hmem := hf.member_merge hlen htotal
  have hl : (nodes ++ [internalRec a b]).length = nodes.length + 1 := by simp
  rw [hl] at hmem
  refine ⟨?nodup, ?total, by rwa [hl], ?leaf, ?internal, ?sums, ?one_parent⟩
  case nodup =>
    have hnd := hf.nodup
    simp only [List.map_cons, List.nodup_cons] at hnd
    rw [List.map_append, List.nodup_append]
    refine ⟨hnd.2.2, by simp, ?_⟩
    rintro x hx y hy rfl
    obtain ⟨it, hit, rfl⟩ := List.mem_map.1 hx
    have := (hf.member it (by simp [hit])).1
    simp only [List.map_cons, List.map_nil, List.mem_singleton] at hy
    omega
  case total =>
    have := hf.total
    simp only [List.map_cons, List.sum_cons] at this
    simp only [List.map_append, List.map_cons, List.map_nil, List.sum_append, List.sum_cons, List.sum_nil]
    omega
  case leaf =>
    intro h hh
    rw [hl] at hh
    rcases Nat.lt_succ_iff_lt_or_eq.1 hh with hlt | heq
    · rw [node_treeOfNodes_append_old hlt]
      exact hf.leaf h hlt
    · rw [node_treeOfNodes_append_new heq]
      exact fun hleaf => nomatch hleaf
  case internal =>
    intro h hh
    rw [hl] at hh
    rcases Nat.lt_succ_iff_lt_or_eq.1 hh with hlt | heq
    · rw [node_treeOfNodes_append_old hlt]
      exact hf.internal h hlt
    · rw [node_treeOfNodes_append_new heq]
      refine fun _ => ⟨?_, ?_, fun he => hf.taken_ne.1 ?_, rfl⟩
      · simp only [internalRec, hna]; omega
      · simp only [internalRec, hnb]; omega
      · rw [← hna, ← hnb]
        exact congrArg BitVec.toNat he
  case sums => rw [hl]; exact hf.sums_merge hlen htotal
  case one_parent =>
    intro g hg hnot
    rw [hl] at hg ⊢
    simp only [List.map_append, List.map_cons, List.map_nil, List.mem_append, List.mem_singleton, not_or] at hnot
    exact hf.one_parent_merge hlen (by omega) hnot.1

end Merge

/-! ### The records of a text -/

/-- The leaf records come first, and every record after them is internal (41_encode.md R123, R125). -/
def LeavesFirst (text : List Symbol) (nodes : List NodeRec) : Prop :=
  ∃ inner, nodes = leafRecs text ++ inner ∧ ∀ r ∈ inner, r.leaf = false

theorem mergeStep_leavesFirst {text : List Symbol} {nodes nodes' : List NodeRec} {q q' : List QItem}
    (h : mergeStep nodes q = some (nodes', q')) (hi : LeavesFirst text nodes) : LeavesFirst text nodes' := by
  obtain ⟨a, b, rest, -, -, -, rfl, -⟩ := mergeStep_eq_some h
  obtain ⟨inner, rfl, hinner⟩ := hi
  refine ⟨inner ++ [internalRec a b], by rw [List.append_assoc], fun r hr => ?_⟩
  rcases List.mem_append.1 hr with hr | hr
  · exact hinner r hr
  · rw [List.mem_singleton.1 hr]
    rfl

theorem merged_leavesFirst (text : List Symbol) : LeavesFirst text (merged text).1 :=
  mergeAll_invariant (P := fun nodes _ => LeavesFirst text nodes) (fun _ _ _ _ => mergeStep_leavesFirst) _ _ _
    ⟨[], by simp, by simp⟩

@[simp] theorem length_leafRecs (text : List Symbol) : (leafRecs text).length = numSymsOf text := by
  simp [leafRecs, numSymsOf]

/-- The leaf of the `k`th distinct symbol is record `k` (41_encode.md R123). -/
theorem node_treeOf_of_lt {text : List Symbol} {h : Handle} (hh : h.toNat < (leafSymbols text).length) :
    (treeOf text).node h = leafRec (leafSymbols text)[h.toNat] (countOf text (leafSymbols text)[h.toNat]) := by
  obtain ⟨inner, hn, -⟩ := merged_leavesFirst text
  rw [treeOf, node_treeOfNodes, hn, List.getD_append _ _ _ _ (by simpa [leafRecs] using hh)]
  simp [leafRecs, hh]

/-- The leaves are the records below the number of distinct symbols (41_encode.md R123). -/
theorem leaf_treeOf_iff {text : List Symbol} {h : Handle} :
    ((treeOf text).node h).leaf = true ↔ h.toNat < numSymsOf text := by
  constructor
  · intro hleaf
    by_contra hge
    obtain ⟨inner, hn, hinner⟩ := merged_leavesFirst text
    rw [treeOf, node_treeOfNodes, hn, List.getD_append_right _ _ _ _ (by rw [length_leafRecs]; omega)] at hleaf
    rcases Nat.lt_or_ge (h.toNat - (leafRecs text).length) inner.length with hlt | hge'
    · rw [List.getD_eq_getElem _ _ hlt, hinner _ (List.getElem_mem _)] at hleaf
      exact nomatch hleaf
    · rw [List.getD_eq_default _ _ hge'] at hleaf
      exact nomatch hleaf
  · intro hlt
    rw [node_treeOf_of_lt hlt]
    rfl

theorem leafQueue_handles (text : List Symbol) :
    (leafQueue text).map QItem.handle = List.range (numSymsOf text) := by
  apply List.ext_getElem <;> simp [leafQueue, numSymsOf]

theorem leafQueue_freqs (text : List Symbol) :
    (leafQueue text).map QItem.freq = (leafList text).map Prod.snd := by
  apply List.ext_getElem <;> simp [leafQueue, leafList]

/-- Before the first merge each leaf is a tree of its own. -/
theorem forest_leaves {text : List Symbol} (hlen : text.length < 2 ^ 16) :
    Forest text.length (leafRecs text) (leafQueue text) := by
  have hnode : ∀ h : Handle, (hh : h.toNat < (leafRecs text).length) →
      (treeOfNodes (leafRecs text)).node h = leafRec ((leafSymbols text)[h.toNat]'(by simpa [numSymsOf] using hh))
        (countOf text ((leafSymbols text)[h.toNat]'(by simpa [numSymsOf] using hh))) := by
    intro h hh
    rw [node_treeOfNodes, List.getD_eq_getElem _ _ hh]
    simp [leafRecs]
  have hleaf : ∀ h : Handle, h.toNat < (leafRecs text).length → ((treeOfNodes (leafRecs text)).node h).leaf ≠ false := by
    intro h hh
    rw [hnode h hh]
    exact fun hf => nomatch hf
  refine ⟨?_, ?_, fun it hit => ?_, fun h hh _ => ?_, fun h hh hf => absurd hf (hleaf h hh),
    fun h hh hf => absurd hf (hleaf h hh), fun g hg hnot => ?_⟩
  · rw [leafQueue_handles]
    exact List.nodup_range
  · rw [leafQueue_freqs, sum_leafList]
  · rw [leafQueue, List.mem_mapIdx] at hit
    obtain ⟨k, hk, rfl⟩ := hit
    have hN := numSymsOf_le text
    have hk' : k < (leafRecs text).length := by rwa [length_leafRecs]
    have hnat : (BitVec.ofNat 9 k).toNat = k := by
      rw [length_leafRecs] at hk'
      rw [BitVec.toNat_ofNat]
      omega
    have hcount := countOf_le text (leafSymbols text)[k]
    refine ⟨hk', fun h hp => hleaf h hp.1 hp.2.1, ?_⟩
    rw [hnode _ (by rwa [hnat])]
    simp only [leafRec, BitVec.toNat_ofNat, hnat]
    omega
  · rw [hnode h hh]
    exact ⟨rfl, rfl⟩
  · rw [leafQueue_handles, List.mem_range, ← length_leafRecs] at hnot
    exact absurd hg hnot

/-- When the merge stops, the records are a forest with one root, which is the tree's (41_encode.md R125-R127). -/
theorem forest_merged {text : List Symbol} (hpos : 0 < text.length) (hlen : text.length < 2 ^ 16) :
    ∃ it : QItem, rootOf text = BitVec.ofNat 9 it.handle ∧ (merged text).1.length = 2 * numSymsOf text - 1
      ∧ Forest text.length (merged text).1 [it] := by
  have hN := numSymsOf_pos hpos
  have hN' := numSymsOf_le text
  have hinv : (merged text).1.length + (merged text).2.length = 2 * numSymsOf text
      ∧ Forest text.length (merged text).1 (merged text).2 := by
    refine mergeAll_invariant (P := fun nodes q => nodes.length + q.length = 2 * numSymsOf text
      ∧ Forest text.length nodes q) ?_ _ _ _ ⟨?_, forest_leaves hlen⟩
    · rintro nodes q nodes' q' h ⟨hcount, hf⟩
      have hl := mergeStep_length h
      obtain ⟨a, b, rest, hp, -, -, rfl, rfl⟩ := mergeStep_eq_some h
      have hpl := hp.length_eq
      rw [List.length_cons, List.length_cons] at hpl
      exact ⟨by omega, (hf.perm hp).merge (by omega) hlen⟩
    · rw [length_leafRecs, leafQueue_length]
      omega
  have hone : (merged text).2.length = 1 :=
    mergeAll_queue_length _ _ _ (by rw [leafQueue_length]; exact hN) (by omega)
  obtain ⟨it, hit⟩ := List.length_eq_one_iff.1 hone
  rw [hit, List.length_singleton] at hinv
  exact ⟨it, by rw [rootOf, hit, rootOfQueue], by omega, hinv.2⟩

/-- The records of a text are a strict binary tree (41_encode.md R126, R129). -/
theorem strictTree_treeOf {text : List Symbol} (hpos : 0 < text.length) (hlen : text.length < 2 ^ 16) :
    StrictTree (treeOf text) (rootOf text) (2 * numSymsOf text - 1) := by
  have hle := merged_length_le hpos
  obtain ⟨it, hroot, hl, hf⟩ := forest_merged hpos hlen
  obtain ⟨hlt, hno, -⟩ := hf.member it (by simp)
  have hnat := hf.member_toNat (by omega) (it := it) (by simp)
  rw [← hl, hroot]
  refine ⟨⟨by rwa [hnat], hno⟩, hf.internal, hf.leaf, fun g hg hne => hf.one_parent g hg ?_,
    fun h hh => node_treeOfNodes_unused hh⟩
  simp only [List.map_cons, List.map_nil, List.mem_singleton]
  exact fun he => hne (BitVec.eq_of_toNat_eq (he.trans hnat.symm))

/-- An internal record's frequency is the sum of its children's, without wrap (41_encode.md R128). -/
theorem freqSums_treeOf {text : List Symbol} (hpos : 0 < text.length) (hlen : text.length < 2 ^ 16) :
    FreqSums (treeOf text) (2 * numSymsOf text - 1) := by
  obtain ⟨it, -, hl, hf⟩ := forest_merged hpos hlen
  rw [← hl]
  exact hf.sums

end Sys2Proof.Machine
end

section
/-! PROOFS. Paths of a tree, and the codes of a text as its tree's paths (41_encode.md R130-R134). -/

namespace Sys2Proof.Machine

/-! ### Paths and codes (41_encode.md R130, R133) -/

theorem reaches_append {t : Tree} {h g : Handle} {p q : List Bool} :
    Reaches t h (p ++ q) g ↔ ∃ k, Reaches t h p k ∧ Reaches t k q g := by
  induction p generalizing h with
  | nil => simp [Reaches]
  | cons b p ih => simp only [List.cons_append, Reaches, ih, and_assoc, exists_and_left]

/-- A path ends where it begins when it begins at a leaf. -/
theorem reaches_of_leaf {t : Tree} {h g : Handle} {p : List Bool} (hl : (t.node h).leaf = true)
    (hr : Reaches t h p g) : p = [] ∧ g = h := by
  cases p with
  | nil => exact ⟨rfl, Eq.symm hr⟩
  | cons b p =>
    obtain ⟨hi, -⟩ := hr
    rw [hl] at hi
    exact nomatch hi

/-- The bits decide where a path ends. -/
theorem reaches_unique {t : Tree} {h g g' : Handle} {p : List Bool} (hr : Reaches t h p g) (hr' : Reaches t h p g') :
    g = g' := by
  induction p generalizing h with
  | nil => exact (Eq.symm hr).trans hr'
  | cons b p ih => exact ih hr.2 hr'.2

/-- A code of a tree that begins another is that code (41_encode.md R133). -/
theorem isCode_prefix {t : Tree} {root : Handle} {p q : List Bool} {a b : Symbol} (hp : IsCode t root p a)
    (hq : IsCode t root q b) (hpq : p <+: q) : p = q ∧ a = b := by
  obtain ⟨g, hg, hgl, rfl⟩ := hp
  obtain ⟨k, hk, -, rfl⟩ := hq
  obtain ⟨rest, rfl⟩ := hpq
  obtain ⟨m, hm, hmk⟩ := reaches_append.1 hk
  obtain rfl := reaches_unique hg hm
  obtain ⟨rfl, rfl⟩ := reaches_of_leaf hgl hmk
  simp

/-- A path is no longer than the tree is deep. -/
theorem HTree.length_le_of_mem_paths {T : HTree} {c : Symbol × List Bool} {p : List Bool} (hc : c ∈ T.paths p) :
    c.2.length ≤ p.length + T.depth := by
  induction T generalizing p with
  | leaf s f =>
    rw [HTree.paths, List.mem_singleton] at hc
    simp [hc]
  | node l r ihl ihr =>
    rw [HTree.paths, List.mem_append] at hc
    rw [HTree.depth]
    rcases hc with hc | hc
    · have := ihl hc
      rw [List.length_append, List.length_singleton] at this
      omega
    · have := ihr hc
      rw [List.length_append, List.length_singleton] at this
      omega

/-! ### The codes of a text -/

section Codes

variable {text : List Symbol} (hpos : 0 < text.length)

include hpos

/-- Two symbols or more make the root an internal node (41_encode.md R126). -/
theorem root_treeOf_internal (hN : numSymsOf text ≠ 1) : ((treeOf text).node (rootOf text)).leaf = false := by
  obtain ⟨T, r, hroot, hrep, hlv, -, -⟩ := exists_codes hpos
  have hll := hlv.length_eq
  rw [length_leafList] at hll
  have hle := merged_length_le hpos
  cases T with
  | leaf s f => exact absurd hll.symm hN
  | node l r' =>
    obtain ⟨a, b, hn, -⟩ := hrep
    rw [treeOf, hroot, node_of_getElem? hn (by omega)]
    rfl

/-- With two symbols or more a symbol's code is the path to its leaf (41_encode.md R130). -/
theorem isCode_codeOf (hN : numSymsOf text ≠ 1) {sym : Symbol} (hs : sym ∈ text) :
    IsCode (treeOf text) (rootOf text) (codeOf (codesOf text) sym) sym := by
  obtain ⟨T, r, hroot, hrep, -, -, hcodes⟩ := exists_codes hpos
  have hle := merged_length_le hpos
  rw [if_neg hN] at hcodes
  have hmem : (sym, codeOf (codesOf text) sym) ∈ T.paths [] := hcodes ▸ mem_codesOf hpos hs
  rw [treeOf, hroot]
  exact reaches_of_mem_paths (by omega) hrep hmem

/-- A lone symbol's code is "0" (41_encode.md R131). -/
theorem codeOf_lone (hN : numSymsOf text = 1) {sym : Symbol} (hs : sym ∈ text) :
    codeOf (codesOf text) sym = [false] := by
  obtain ⟨T, r, -, -, -, -, hcodes⟩ := exists_codes hpos
  rw [if_pos hN] at hcodes
  have hmem : (sym, codeOf (codesOf text) sym) ∈ (T.paths []).map fun c => (c.1, [false]) :=
    hcodes ▸ mem_codesOf hpos hs
  obtain ⟨c, -, hc⟩ := List.mem_map.1 hmem
  exact (congrArg Prod.snd hc).symm

/-- A symbol of the text has a code of one bit or more (41_encode.md R132). -/
theorem codeOf_ne_nil {sym : Symbol} (hs : sym ∈ text) : codeOf (codesOf text) sym ≠ [] := by
  by_cases hN : numSymsOf text = 1
  · rw [codeOf_lone hpos hN hs]
    simp
  · intro hnil
    obtain ⟨g, hg, hgl, -⟩ := isCode_codeOf hpos hN hs
    rw [hnil] at hg
    obtain rfl : rootOf text = g := hg
    rw [root_treeOf_internal hpos hN] at hgl
    exact nomatch hgl

/-- A symbol has a code exactly when the text holds it (41_encode.md R132, R134). -/
theorem length_codeOf_pos {sym : Symbol} : 0 < (codeOf (codesOf text) sym).length ↔ sym ∈ text := by
  constructor
  · intro h
    by_contra hs
    rw [codeOf_of_not_mem hpos hs] at h
    exact nomatch h
  · exact fun hs => List.length_pos_iff.2 (codeOf_ne_nil hpos hs)

/-- A code is at most 255 bits long (41_encode.md R132). -/
theorem length_codeOf_le (sym : Symbol) : (codeOf (codesOf text) sym).length ≤ 255 := by
  by_cases hs : sym ∈ text
  · by_cases hN : numSymsOf text = 1
    · rw [codeOf_lone hpos hN hs]
      simp
    · obtain ⟨T, r, -, -, hlv, -, hcodes⟩ := exists_codes hpos
      rw [if_neg hN] at hcodes
      have hmem : (sym, codeOf (codesOf text) sym) ∈ T.paths [] := hcodes ▸ mem_codesOf hpos hs
      have hle : (codeOf (codesOf text) sym).length ≤ 0 + T.depth := HTree.length_le_of_mem_paths hmem
      have := T.depth_lt_leaves
      have hll := hlv.length_eq
      rw [length_leafList] at hll
      have := numSymsOf_le text
      omega
  · rw [codeOf_of_not_mem hpos hs]
    simp

end Codes

/-- A sum over all symbols, each counted, is a sum over the text (41_encode.md R121). -/
theorem sum_allSymbols (text : List Symbol) (g : Symbol → Nat) :
    (allSymbols.map fun sym => countOf text sym * g sym).sum = (text.map g).sum := by
  have drop : ∀ l : List Symbol, (l.map fun sym => countOf text sym * g sym).sum
      = ((l.filter fun sym => decide (0 < countOf text sym)).map fun sym => countOf text sym * g sym).sum := by
    intro l
    induction l with
    | nil => rfl
    | cons x l ih =>
      rcases Nat.eq_zero_or_pos (countOf text x) with h0 | hx
      · simp [h0, ih]
      · simp [hx, ih]
  rw [sum_text text, drop, leafSymbols]

end Sys2Proof.Machine
end

section
/-! PROOFS. What a non-empty ENCODE commits meets the invariant of the retained state (10_state.md R46). -/

namespace Sys2Proof.Machine

/-! ### The tables as an ENCODE commits them (10_state.md R42-R46) -/

section Commit

variable {text : List Symbol} (hpos : 0 < text.length) (hlen : text.length < 2 ^ 16) (s : State)

include hlen in
/-- FREQ counts the text, without wrap (41_encode.md R121). -/
theorem freqOf_commitText (sym : Symbol) : (s.commitText text).freqOf sym = countOf text sym := by
  have := countOf_le text sym
  simp only [State.freqOf, State.commitText_freq, getElem_tabulate, BitVec.toNat_ofNat, BitVec.ofNat_toNat,
    BitVec.setWidth_eq]
  omega

include hpos in
/-- CODE_LEN holds the codes' lengths, without wrap (41_encode.md R132). -/
theorem codeLenOf_commitText (sym : Symbol) :
    (s.commitText text).codeLenOf sym = (codeOf (codesOf text) sym).length := by
  have := length_codeOf_le hpos sym
  simp only [State.codeLenOf, State.commitText_codeLen, getElem_tabulate, BitVec.toNat_ofNat, BitVec.ofNat_toNat,
    BitVec.setWidth_eq]
  omega

/-- CODE holds the codes, zero above (10_state.md R44). -/
theorem getLsbD_code_commitText (sym : Symbol) (j : Nat) :
    ((s.commitText text).code[sym.toNat]'(sym.isLt)).getLsbD j
      = (decide (j < 256) && (codeOf (codesOf text) sym).getD j false) := by
  simp only [State.commitText_code, getElem_tabulate, BitVec.ofNat_toNat, BitVec.setWidth_eq, getLsbD_codeEntry]

include hpos in
/-- The table's code of a symbol is the generator's (41_encode.md R134). -/
theorem codeBits_commitText (sym : Symbol) : (s.commitText text).codeBits sym = codeOf (codesOf text) sym := by
  have hle := length_codeOf_le hpos sym
  rw [State.codeBits, codeLenOf_commitText hpos]
  apply List.ext_getElem
  · simp
  · intro j h1 h2
    simp only [List.getElem_map, List.getElem_range, getLsbD_code_commitText]
    rw [List.getD_eq_getElem _ _ h2]
    simp
    omega

include hlen in
/-- The symbols in the table are the text's. -/
theorem seen_commitText : (s.commitText text).seen = leafSymbols text := by
  simp only [State.seen, leafSymbols, freqOf_commitText hlen]

include hlen in
theorem freqOf_commitText_pos {sym : Symbol} : 0 < (s.commitText text).freqOf sym ↔ sym ∈ text := by
  rw [freqOf_commitText hlen, countOf, List.count_pos_iff]

theorem numSyms_commitText : (s.commitText text).numSyms.toNat = numSymsOf text := by
  have := numSymsOf_le text
  rw [State.commitText_numSyms, BitVec.toNat_ofNat]
  omega

theorem nodeCount_commitText : (s.commitText text).nodeCount.toNat = 2 * numSymsOf text - 1 := by
  have := numSymsOf_le text
  rw [State.commitText_nodeCount, BitVec.toNat_ofNat]
  omega

include hlen in
theorem origBits_commitText : (s.commitText text).origBits.toNat = 8 * text.length := by
  rw [State.commitText_origBits, BitVec.toNat_ofNat]
  omega

/-- A leaf carries a symbol of the text with its count (41_encode.md R123). -/
theorem leaf_treeOf {h : Handle} (hleaf : ((treeOf text).node h).leaf = true) :
    ((treeOf text).node h).sym ∈ text
      ∧ ((treeOf text).node h).freq = BitVec.ofNat 16 (countOf text ((treeOf text).node h).sym) := by
  rw [node_treeOf_of_lt (leaf_treeOf_iff.1 hleaf)]
  exact ⟨mem_leafSymbols.1 (List.getElem_mem _), rfl⟩

/-- Each symbol has one leaf (41_encode.md R122, R123). -/
theorem leaf_treeOf_unique {h h' : Handle} (hl : ((treeOf text).node h).leaf = true)
    (hl' : ((treeOf text).node h').leaf = true) (hs : ((treeOf text).node h).sym = ((treeOf text).node h').sym) :
    h = h' := by
  rw [node_treeOf_of_lt (leaf_treeOf_iff.1 hl), node_treeOf_of_lt (leaf_treeOf_iff.1 hl')] at hs
  exact BitVec.eq_of_toNat_eq ((nodup_leafSymbols text).getElem_inj_iff.1 hs)

/-- Each symbol of the text has a leaf (41_encode.md R122, R123). -/
theorem exists_leaf_treeOf {sym : Symbol} (hs : sym ∈ text) :
    ∃ h : Handle, ((treeOf text).node h).leaf = true ∧ ((treeOf text).node h).sym = sym := by
  obtain ⟨k, hk, rfl⟩ := List.getElem_of_mem (mem_leafSymbols.2 hs)
  have hN := numSymsOf_le text
  have hnat : (BitVec.ofNat 9 k).toNat = k := by
    rw [numSymsOf] at hN
    rw [BitVec.toNat_ofNat]
    omega
  refine ⟨BitVec.ofNat 9 k, leaf_treeOf_iff.2 (by rwa [hnat, numSymsOf]), ?_⟩
  rw [node_treeOf_of_lt (by rwa [hnat])]
  simp [leafRec, hnat]

/-- A symbol's code that begins another's is its own (41_encode.md R133). -/
theorem codesOf_prefix_free {a b : Symbol} (ha : a ∈ text) (hb : b ∈ text)
    (hab : codeOf (codesOf text) a <+: codeOf (codesOf text) b) : a = b := by
  have hpos := List.length_pos_of_mem ha
  by_cases hN : numSymsOf text = 1
  · obtain ⟨x, hx⟩ := List.length_eq_one_iff.1 hN
    have hmem : ∀ sym ∈ text, sym = x := fun sym hs => by simpa [hx] using mem_leafSymbols.2 hs
    rw [hmem a ha, hmem b hb]
  · exact (isCode_prefix (isCode_codeOf hpos hN ha) (isCode_codeOf hpos hN hb) hab).2

include hpos hlen in
/-- What a non-empty ENCODE commits meets R46 and R181 (10_state.md, 43_host_access.md). -/
theorem retained_commitText : Retained (s.commitText text) where
  tree := by
    rw [nodeCount_commitText]
    exact strictTree_treeOf hpos hlen
  leaves := by
    refine ⟨fun h _ hleaf => (freqOf_commitText_pos hlen s).2 (leaf_treeOf hleaf).1, fun sym hsym => ?_⟩
    obtain ⟨h, hleaf, hs⟩ := exists_leaf_treeOf ((freqOf_commitText_pos hlen s).1 hsym)
    refine ⟨h, ⟨?_, hleaf, hs⟩, fun h' _ hl' hs' => leaf_treeOf_unique hl' hleaf (hs'.trans hs.symm)⟩
    have := leaf_treeOf_iff.1 hleaf
    rw [nodeCount_commitText]
    omega
  leaf_freq h _ hleaf := by
    have := countOf_le text ((treeOf text).node h).sym
    rw [freqOf_commitText hlen, State.commitText_tree, (leaf_treeOf hleaf).2, BitVec.toNat_ofNat]
    omega
  sums := by
    rw [nodeCount_commitText]
    exact freqSums_treeOf hpos hlen
  codes h hlt hleaf := by
    rw [State.commitText_tree, State.commitText_root] at *
    obtain ⟨hs, -⟩ := leaf_treeOf hleaf
    rw [codeBits_commitText hpos]
    by_cases hN : numSymsOf text = 1
    · have hroot := (strictTree_treeOf hpos hlen).root_node.1
      rw [nodeCount_commitText] at hlt
      rw [if_pos (BitVec.eq_of_toNat_eq (by omega)), codeOf_lone hpos hN hs]
    · have hne : h ≠ rootOf text := by
        rintro rfl
        rw [root_treeOf_internal hpos hN] at hleaf
        exact nomatch hleaf
      obtain ⟨g, hg, hgl, hgs⟩ := isCode_codeOf hpos hN hs
      rw [if_neg hne, leaf_treeOf_unique hleaf hgl hgs.symm]
      rwa [hgs]
  prefix_free a b hab ha hb := by
    rw [codeLenOf_commitText hpos, length_codeOf_pos hpos] at ha hb
    rw [codeBits_commitText hpos, codeBits_commitText hpos]
    exact fun h => hab (codesOf_prefix_free ha hb h)
  coded sym := by
    rw [codeLenOf_commitText hpos, length_codeOf_pos hpos, freqOf_commitText_pos hlen]
  high_bits sym j hj := by
    rw [codeLenOf_commitText hpos] at hj
    rw [getLsbD_code_commitText, List.getD_eq_default _ _ hj, Bool.and_false]
  counts := by
    have := numSymsOf_pos hpos
    rw [numSyms_commitText, nodeCount_commitText, seen_commitText hlen]
    exact ⟨rfl, by omega⟩
  orig := by
    have hfreq : (s.commitText text).freqOf = countOf text := funext (freqOf_commitText hlen s)
    have hsum := sum_allSymbols text fun _ => 1
    simp only [Nat.mul_one, List.map_const', List.sum_replicate, smul_eq_mul] at hsum
    rw [origBits_commitText hlen, hfreq]
    exact congrArg _ hsum.symm

end Commit

end Sys2Proof.Machine
end

section
/-! PROOFS. The three turns of a step, and the invariant of control. -/

namespace Sys2Proof.Machine

/-! ### Whose turn it is (00_scope.md R15, R16) -/

/-- A step that is answered is a host transaction, a completion step, or a reset edge. -/
theorem step_turns {s t : State} (h : step s = .next t) :
    (∃ w rest, s.inputs = .transaction w :: rest ∧ exec (decodeHbus w) (s.withInputs rest) = .next t)
      ∨ (EngineTurn s ∧ ∃ rest, CompletionEffect (s.withInputs rest) t)
      ∨ ∃ p rest, s.inputs = .resetEdge p :: rest ∧ t = (s.withInputs rest).resetEdge p := by
  cases step_effect h with
  | transaction w rest _ hi he _ => exact .inl ⟨w, rest, hi, he⟩
  | engine rest _ hi _ hc => exact .inr (.inl ⟨.inr ⟨rest, hi⟩, rest, hc⟩)
  | last _ hi _ hc => exact .inr (.inl ⟨.inl hi, s.inputs, hc⟩)
  | reset p rest hi => exact .inr (.inr ⟨p, rest, hi, rfl⟩)

theorem EngineTurn.not_resetTurn {s : State} (h : EngineTurn s) : ¬ ResetTurn s := by
  rintro ⟨p, rest, hi⟩
  rcases h with h | ⟨rest', h⟩ <;> exact nomatch h.symm.trans hi

theorem EngineTurn.inputs_ne {s : State} (h : EngineTurn s) (w : HbusWord) (rest : List Input) :
    s.inputs ≠ .transaction w :: rest := by
  intro hi
  rcases h with h | ⟨rest', h⟩ <;> exact nomatch h.symm.trans hi

theorem not_resetTurn_of_transaction {s : State} {w : HbusWord} {rest : List Input}
    (h : s.inputs = .transaction w :: rest) : ¬ ResetTurn s :=
  fun ⟨_, _, hi⟩ => nomatch h.symm.trans hi

/-- What every turn keeps, a step keeps. -/
theorem step_keeps {P : State → Prop} (hinputs : ∀ s l, P s → P (State.withInputs s l))
    (htransaction : ∀ s t, TransactionEffect s t → P s → P t) (hcompletion : ∀ s t, CompletionEffect s t → P s → P t)
    (hreset : ∀ s p, P s → P (State.resetEdge s p)) {s t : State} (hs : P s) (h : step s = .next t) : P t := by
  rcases step_turns h with ⟨w, rest, -, he⟩ | ⟨-, rest, hc⟩ | ⟨p, rest, -, rfl⟩
  · exact htransaction _ _ (exec_effect he) (hinputs s rest hs)
  · exact hcompletion _ _ hc (hinputs s rest hs)
  · exact hreset _ p (hinputs s rest hs)

/-! ### The end of a walk (42_decode.md R156, R157) -/

@[simp] theorem State.endWalk_mem (s : State) (r : WalkEnd) :
    (s.endWalk r).mem = s.mem.store symOutBase (padSymbols r.out) := by
  rw [State.endWalk]
  split <;> rfl

@[simp] theorem State.endWalk_outLen (s : State) (r : WalkEnd) :
    (s.endWalk r).outLen = BitVec.ofNat 17 r.out.length := by
  rw [State.endWalk]
  split <;> rfl

@[simp] theorem State.endWalk_drop (s : State) (r : WalkEnd) : (s.endWalk r).drop = s.drop := by
  rw [State.endWalk]
  split <;> rfl

/-- The error report after a walk: as it was, or the walk's fault. -/
theorem State.endWalk_report (s : State) (r : WalkEnd) :
    (r.fault = none ∧ (s.endWalk r).err = s.err ∧ (s.endWalk r).errCode = s.errCode
        ∧ (s.endWalk r).errPos = s.errPos)
      ∨ ∃ c pos, r.fault = some (c, pos) ∧ (s.endWalk r).err = true ∧ (s.endWalk r).errCode = c
        ∧ (s.endWalk r).errPos = BitVec.ofNat 20 pos := by
  rw [State.endWalk]
  split
  · exact .inl ⟨‹_›, rfl, rfl, rfl⟩
  · exact .inr ⟨_, _, ‹_›, rfl, rfl, rfl⟩

/-! ### The buffers after a reset (70_reset_and_hazards.md R206) -/

@[simp] theorem State.resetEdge_mem (s : State) (p : Option HbusWord) : (s.resetEdge p).mem = memAfterReset s := rfl

/-- A reset erases nothing, or one whole buffer: BITBUF or SYMBUF_OUT. -/
theorem memAfterReset_cases (s : State) :
    memAfterReset s = s.mem ∨ ∃ base, (base = bitBase ∨ base = symOutBase)
      ∧ memAfterReset s = s.mem.erase base Config.symbufBytes := by
  rw [memAfterReset]
  split
  · exact .inl rfl
  · exact .inr ⟨_, .inl rfl, rfl⟩
  · exact .inr ⟨_, .inr rfl, rfl⟩

/-! ### Whole words (20_memory.md R67) -/

/-- Every word of the buffers is written whole or not at all. -/
def Memory.WholeWords (m : Memory) : Prop :=
  ∀ w k, k < 4 → (m.read (4 * w + k)).isSome = (m.read (4 * w)).isSome

/-- A store of whole words keeps words whole. -/
theorem Memory.WholeWords.store {m : Memory} (h : m.WholeWords) {base : Nat} {bs : List Byte} (hbase : 4 ∣ base)
    (hlen : 4 ∣ bs.length) : (m.store base bs).WholeWords := by
  intro w k hk
  rw [read_store, read_store]
  by_cases hin : base ≤ 4 * w ∧ 4 * w < base + bs.length
  · rw [if_pos (by omega), if_pos hin, List.getElem?_eq_getElem (by omega), List.getElem?_eq_getElem (by omega)]
    rfl
  · rw [if_neg (by omega), if_neg hin]
    exact h w k hk

/-- An erasure of whole words keeps words whole. -/
theorem Memory.WholeWords.erase {m : Memory} (h : m.WholeWords) {base n : Nat} (hbase : 4 ∣ base) (hn : 4 ∣ n) :
    (m.erase base n).WholeWords := by
  intro w k hk
  rw [read_erase, read_erase]
  by_cases hin : base ≤ 4 * w ∧ 4 * w < base + n
  · rw [if_pos (by omega), if_pos hin]
  · rw [if_neg (by omega), if_neg hin]
    exact h w k hk

/-! ### The invariant of control -/

theorem pendingInv_of_idle {s : State} (h : s.busy = false) : PendingInv s := by
  rw [PendingInv, s.busy_eq_false.1 h]
  trivial

/-- An idle state meets the invariant when its buffers, its error report and OUT_LEN do. -/
theorem controlInv_of_idle {s : State} (hidle : s.busy = false) (hmem : s.mem.wf) (hwords : s.mem.WholeWords)
    (herr : s.err = true ↔ s.errCode ≠ .none) (hpos : s.errPos.toNat ≤ 524288) (hout : s.outLen.toNat ≤ 65536) :
    ControlInv s :=
  ⟨hmem, hwords, herr, fun hb => absurd (hidle.symm.trans hb) Bool.false_ne_true, pendingInv_of_idle hidle, hpos, hout⟩

/-- The invariant does not speak of the model's own fields nor of DROP. -/
theorem ControlInv.of_same {s t : State} (hc : ControlInv s)
    (h : t = { s with drop := t.drop, rdata := t.rdata, draws := t.draws, inputs := t.inputs }) : ControlInv t := by
  rw [h]
  exact ⟨hc.mem, hc.words, hc.err, hc.running, hc.pending, hc.ranges⟩

/-- An accepted command's length is its register's (40_command.md R104, R108). -/
theorem ControlInv.accept {s : State} (hc : ControlInv s) {p : Pending} (hp : PendingInv (s.accept p)) :
    ControlInv (s.accept p) :=
  ⟨hc.mem, hc.words, by simp, fun _ => ⟨rfl, rfl⟩, hp, by simp, hc.ranges.2⟩

/-- A host transaction keeps the invariant of control. -/
theorem TransactionEffect.keeps_controlInv {s t : State} (h : TransactionEffect s t) (hc : ControlInv s) :
    ControlInv t := by
  obtain ⟨hpos, hout⟩ := hc.ranges
  cases h with
  | unchanged _ => exact hc
  | dropped _ => exact hc.of_same rfl
  | readIdle v _ => exact hc.of_same rfl
  | readBusy v _ => exact hc.of_same rfl
  | rejected c hb hne => exact controlInv_of_idle hb hc.mem hc.words (by simp [hne]) hpos hout
  | acceptedEncode len _ hlen => exact hc.accept hlen
  | acceptedDecode bits _ hbits hle => exact hc.accept ⟨hbits, hle⟩
  | wroteInLen v hb => exact controlInv_of_idle hb hc.mem hc.words hc.err hpos hout
  | wroteInBits v hb => exact controlInv_of_idle hb hc.mem hc.words hc.err hpos hout
  | stored w v hb _ _ =>
    exact controlInv_of_idle hb (Memory.wf_store hc.mem _ _)
      (Memory.WholeWords.store hc.words (Nat.dvd_mul_right 4 _) (Nat.dvd_refl 4)) hc.err hpos hout

/-- A completion step keeps the invariant of control. -/
theorem CompletionEffect.keeps_controlInv {s t : State} (h : CompletionEffect s t) (hc : ControlInv s) :
    ControlInv t := by
  obtain ⟨hpos, hout⟩ := hc.ranges
  cases h with
  | idle _ => exact hc
  | emptied _ => exact controlInv_of_idle rfl hc.mem hc.words hc.err hpos hout
  | encoded len text _ _ _ _ =>
    refine controlInv_of_idle rfl (Memory.wf_store hc.mem _ _)
      (Memory.WholeWords.store hc.words (by decide) ?_) hc.err hpos hout
    rw [length_packBits]
    exact Nat.dvd_mul_right 4 _
  | nothing bits _ _ => exact controlInv_of_idle rfl hc.mem hc.words hc.err hpos (by simp)
  | walked bits r hp _ _ hw =>
    obtain ⟨hcap, hfault⟩ := walk_ok hw (Nat.zero_le _)
    have hpending := hc.pending
    rw [PendingInv, hp] at hpending
    rw [Config.decOutCap] at hcap
    have hlen : (s.endWalk r).outLen.toNat ≤ 65536 := by
      rw [State.endWalk_outLen, BitVec.toNat_ofNat]
      omega
    have hmem : (s.endWalk r).mem.wf := by
      rw [State.endWalk_mem]
      exact Memory.wf_store hc.mem _ _
    have hwords : (s.endWalk r).mem.WholeWords := by
      rw [State.endWalk_mem]
      refine Memory.WholeWords.store hc.words (by decide) ?_
      rw [length_padSymbols]
      exact Nat.dvd_mul_right 4 _
    rcases s.endWalk_report r with ⟨-, he, hcode, hepos⟩ | ⟨c, pos, hf, he, hcode, hepos⟩
    · refine controlInv_of_idle rfl hmem hwords ?_ ?_ hlen
      · rw [State.retire_err, State.retire_errCode, he, hcode]
        exact hc.err
      · rwa [State.retire_errPos, hepos]
    · obtain ⟨-, hle, hkind⟩ := hfault c pos hf
      have hbits := hpending.2
      rw [Config.bitbufBits] at hbits
      refine controlInv_of_idle rfl hmem hwords ?_ ?_ hlen
      · rw [State.retire_err, State.retire_errCode, he, hcode]
        rcases hkind with rfl | rfl | rfl <;> simp
      · rw [State.retire_errPos, hepos, BitVec.toNat_ofNat]
        omega

/-- A reset edge keeps the invariant of control. -/
theorem ControlInv.resetEdge {s : State} (hc : ControlInv s) (p : Option HbusWord) : ControlInv (s.resetEdge p) := by
  have herr : (s.resetEdge p).err = true ↔ (s.resetEdge p).errCode ≠ .none := by simp [State.resetEdge, State.reset]
  rcases memAfterReset_cases s with hm | ⟨base, hbase, hm⟩
  · refine controlInv_of_idle rfl ?_ ?_ herr (Nat.zero_le _) (Nat.zero_le _)
    · rw [State.resetEdge_mem, hm]
      exact hc.mem
    · rw [State.resetEdge_mem, hm]
      exact hc.words
  · refine controlInv_of_idle rfl ?_ ?_ herr (Nat.zero_le _) (Nat.zero_le _)
    · rw [State.resetEdge_mem, hm]
      exact Memory.wf_erase hc.mem _ _
    · rw [State.resetEdge_mem, hm]
      refine Memory.WholeWords.erase hc.words ?_ (by decide)
      rcases hbase with rfl | rfl <;> decide

/-- Settles O49: each of a step's three turns keeps the invariant. -/
theorem stepKeepsControlInvariant : Obligations.StepKeepsControlInvariant := by
  intro s t hs h
  exact step_keeps (fun _ _ hc => hc.of_same rfl) (fun _ _ he => he.keeps_controlInv)
    (fun _ _ he => he.keeps_controlInv) (fun _ p hc => hc.resetEdge p) hs h

/-- Settles O48. -/
theorem resetMeetsControlInvariant : Obligations.ResetMeetsControlInvariant :=
  controlInv_of_idle rfl List.Pairwise.nil (fun _ _ _ => rfl) (by decide) (Nat.zero_le _) (Nat.zero_le _)

end Sys2Proof.Machine
end

section
/-! PROOFS. What leaves READY, the tables and the tree alone, and the invariant of the retained state. -/

namespace Sys2Proof.Machine

/-! ### The retained state: what leaves it alone (10_state.md R46) -/

/-- `t` holds READY, the tables, the tree and the statistics of `s`. -/
def SameTables (s t : State) : Prop :=
  t = { s with
    pend := t.pend, err := t.err, drop := t.drop, errCode := t.errCode, errPos := t.errPos, inLen := t.inLen,
    inBits := t.inBits, outLen := t.outLen, mem := t.mem, rdata := t.rdata, draws := t.draws, inputs := t.inputs }

theorem SameTables.trans {s t u : State} (h : SameTables s t) (h' : SameTables t u) : SameTables s u := by
  refine Eq.trans h' ?_
  rw [h]

theorem SameTables.ready {s t : State} (h : SameTables s t) : t.ready = s.ready := by rw [h]

/-- The invariant speaks of those fields alone. -/
theorem SameTables.retainedInv {s t : State} (h : SameTables s t) (hs : RetainedInv s) : RetainedInv t := by
  rw [h]
  refine ⟨fun hr => ?_, fun hr => ?_⟩
  · have hret := hs.1 hr
    exact ⟨hret.tree, hret.leaves, hret.leaf_freq, hret.sums, hret.codes, hret.prefix_free, hret.coded, hret.high_bits,
      hret.counts, hret.orig⟩
  · have hcl := hs.2 hr
    exact ⟨hcl.tree, hcl.counts, hcl.sizes, hcl.tables⟩

theorem sameTables_withInputs (s : State) (l : List Input) : SameTables s (s.withInputs l) := rfl

theorem sameTables_endWalk (s : State) (r : WalkEnd) : SameTables s (s.endWalk r) := by
  rw [State.endWalk]
  split <;> rfl

/-- No host transaction changes the retained state. -/
theorem TransactionEffect.sameTables {s t : State} (h : TransactionEffect s t) : SameTables s t := by
  cases h <;> rfl

/-- No completion step but an ENCODE's changes the retained state. -/
theorem CompletionEffect.sameTables {s t : State} (h : CompletionEffect s t)
    (hne : ∀ len, s.pend ≠ some (.encode len)) : SameTables s t := by
  cases h with
  | idle _ => rfl
  | emptied hp => exact absurd hp (hne 0)
  | encoded len text hp _ _ _ => exact absurd hp (hne len)
  | nothing bits _ _ => rfl
  | walked bits r _ _ _ _ => exact (sameTables_endWalk s r).trans rfl

/-- A step that is neither a reset edge nor an ENCODE's completion keeps the retained state. -/
theorem sameTables_of_step {s t : State} (h : step s = .next t) (hr : ¬ ResetTurn s) (he : ¬ EncodeTurn s) :
    SameTables s t := by
  rcases step_turns h with ⟨w, rest, -, hx⟩ | ⟨ht, rest, hc⟩ | ⟨p, rest, hi, -⟩
  · exact (sameTables_withInputs s rest).trans (exec_effect hx).sameTables
  · exact (sameTables_withInputs s rest).trans (hc.sameTables fun len hp => he ⟨ht, len, hp⟩)
  · exact absurd ⟨p, rest, hi⟩ hr

/-- An ENCODE's completion sets READY when its text is not empty, and clears it otherwise (10_state.md R26). -/
theorem CompletionEffect.ready_of_encode {s t : State} {len : BitVec 16} (h : CompletionEffect s t)
    (hp : s.pend = some (.encode len)) : t.ready = decide (len ≠ 0) := by
  cases h with
  | idle hp' => exact nomatch hp.symm.trans hp'
  | nothing bits hp' _ => exact nomatch hp.symm.trans hp'
  | walked bits r hp' _ _ _ => exact nomatch hp.symm.trans hp'
  | emptied hp' =>
    obtain rfl : len = 0 := by simpa using hp.symm.trans hp'
    rfl
  | encoded len' text hp' hlen hpos _ =>
    obtain rfl : len = len' := by simpa using hp.symm.trans hp'
    have hne : len ≠ 0 := by
      rintro rfl
      rw [hlen] at hpos
      exact absurd hpos (by decide)
    exact (decide_eq_true hne).symm

/-- Settles O54. -/
theorem tablesChangeOnlyByEncodeOrReset : Obligations.TablesChangeOnlyByEncodeOrReset := by
  intro s t h hr he
  rw [sameTables_of_step h hr he]
  exact ⟨rfl, rfl, rfl, rfl, rfl, rfl, rfl, rfl, rfl, rfl⟩

/-- Settles O53: READY is among the fields that other steps leave alone. -/
theorem readyFollowsEncodeAndReset : Obligations.ReadyFollowsEncodeAndReset := by
  intro s t h
  refine ⟨fun hr => ?_, fun ht len hp => ?_, fun hr he => (sameTables_of_step h hr he).ready⟩
  · rcases step_turns h with ⟨w, rest, hi, -⟩ | ⟨ht, -⟩ | ⟨p, rest, -, rfl⟩
    · exact absurd hr (not_resetTurn_of_transaction hi)
    · exact absurd hr ht.not_resetTurn
    · rfl
  · rcases step_turns h with ⟨w, rest, hi, -⟩ | ⟨-, rest, hc⟩ | ⟨p, rest, hi, -⟩
    · exact absurd hi (ht.inputs_ne w rest)
    · exact hc.ready_of_encode hp
    · exact absurd ⟨p, rest, hi⟩ ht.not_resetTurn

/-! ### The retained state: empty and full (41_encode.md R116, R118) -/

/-- Zero tables, counters and records are what READY = 0 asks for. -/
theorem cleared_of_zero {s : State} (htree : s.tree = tabulate 512 fun _ => NodeRec.zero)
    (hfreq : s.freq = tabulate 256 fun _ => 0) (hlen : s.codeLen = tabulate 256 fun _ => 0)
    (hcode : s.code = tabulate 256 fun _ => 0) (hcounts : s.numSyms = 0 ∧ s.nodeCount = 0 ∧ s.root = 0)
    (hsizes : s.origBits = 0 ∧ s.compBits = 0 ∧ s.ratio = 0) : Cleared s where
  tree h := by simp [Tree.node, htree]
  counts := hcounts
  sizes := hsizes
  tables sym := by simp [State.freqOf, State.codeLenOf, hfreq, hlen, hcode]

theorem retainedInv_of_cleared {s : State} (hr : s.ready = false) (h : Cleared s) : RetainedInv s :=
  ⟨fun ht => absurd (hr.symm.trans ht) Bool.false_ne_true, fun _ => h⟩

theorem cleared_reset : Cleared State.reset :=
  cleared_of_zero rfl rfl rfl rfl ⟨rfl, rfl, rfl⟩ ⟨rfl, rfl, rfl⟩

/-- A completion step keeps the invariant of the retained state. -/
theorem CompletionEffect.keeps_retainedInv {s t : State} (h : CompletionEffect s t) (hs : RetainedInv s) :
    RetainedInv t := by
  by_cases he : ∃ len, s.pend = some (.encode len)
  · obtain ⟨len, hp⟩ := he
    cases h with
    | idle hp' => exact nomatch hp.symm.trans hp'
    | nothing bits hp' _ => exact nomatch hp.symm.trans hp'
    | walked bits r hp' _ _ _ => exact nomatch hp.symm.trans hp'
    | emptied _ =>
      exact retainedInv_of_cleared rfl (cleared_of_zero rfl rfl rfl rfl ⟨rfl, rfl, rfl⟩ ⟨rfl, rfl, rfl⟩)
    | encoded len' text _ hlen hpos _ =>
      have hinv : RetainedInv (s.commitText text) :=
        ⟨fun _ => retained_commitText hpos (hlen ▸ len'.isLt) s, fun hr => nomatch hr⟩
      exact SameTables.retainedInv rfl hinv
  · exact (h.sameTables fun len hp => he ⟨len, hp⟩).retainedInv hs

/-- Settles O51: a transaction leaves the retained state alone, an ENCODE's completion replaces or clears it, and a reset
edge clears it. -/
theorem stepKeepsRetainedInvariant : Obligations.StepKeepsRetainedInvariant := by
  intro s t hs h
  refine step_keeps (fun s l hs => (sameTables_withInputs s l).retainedInv hs)
    (fun _ _ he hs => he.sameTables.retainedInv hs) (fun _ _ he => he.keeps_retainedInv) (fun s p _ => ?_) hs h
  exact retainedInv_of_cleared rfl (cleared_of_zero rfl rfl rfl rfl ⟨rfl, rfl, rfl⟩ ⟨rfl, rfl, rfl⟩)

/-- Settles O50. -/
theorem resetMeetsRetainedInvariant : Obligations.ResetMeetsRetainedInvariant := by
  refine ⟨retainedInv_of_cleared rfl cleared_reset, ?_, Nat.le_refl _, rfl, Nat.zero_le _⟩
  have hzero : ∀ sym, State.reset.freqOf sym * State.reset.codeLenOf sym = 0 := fun sym => by
    rw [(cleared_reset.tables sym).1, Nat.zero_mul]
  simp only [hzero, List.map_const', List.sum_replicate, smul_zero]
  rfl

/-- Settles O45. -/
theorem resetValues : Obligations.ResetValues :=
  ⟨rfl, rfl, rfl, rfl, rfl, rfl, rfl, rfl, rfl, rfl, rfl, rfl, rfl, rfl, rfl, rfl, cleared_reset.tables,
    cleared_reset.tree, fun _ => rfl, rfl⟩

end Sys2Proof.Machine
end

section
/-! PROOFS. What a host reads in the registers (10_state.md R23-R30). -/

namespace Sys2Proof.Machine

/-! ### The STATUS word (10_state.md R25) -/

theorem toNat_append_eq_add {m n : Nat} (x : BitVec m) (y : BitVec n) :
    (x ++ y).toNat = x.toNat * 2 ^ n + y.toNat := by
  rw [BitVec.toNat_append, ← Nat.shiftLeft_add_eq_or_of_lt y.isLt, Nat.shiftLeft_eq]

/-- The fields of STATUS at their bit positions (10_state.md R25). -/
theorem toNat_statusWord (s : State) :
    (statusWord s).toNat = s.busy.toNat + 2 * s.ready.toNat + 4 * s.err.toNat + 8 * s.drop.toNat
      + 16 * (phase s).toNat + 256 * s.errCode.bits.toNat := by
  simp only [statusWord, toNat_append_eq_add, BitVec.toNat_ofBool, BitVec.toNat_ofNat]
  omega

theorem phase_of_idle {s : State} (h : s.busy = false) : phase s = 0 := by
  rw [phase, s.busy_eq_false.1 h]

theorem phase_of_decode {s : State} {bits : BitVec 20} (h : s.pend = some (.decode bits)) : phase s = 5 := by
  rw [phase, h]

/-- The drawn phase of an ENCODE is one of 1 to 4, whatever the draw (10_state.md R29). -/
theorem phase_of_encode {s : State} {len : BitVec 16} (h : s.pend = some (.encode len)) :
    1 ≤ (phase s).toNat ∧ (phase s).toNat ≤ 4 := by
  have := (Config.phaseDraw s.draws).isLt
  rw [phase, h]
  simp only [BitVec.toNat_ofNat]
  omega

/-! ### Reads (43_host_access.md R165, R168) -/

/-- A read while BUSY = 0 shows the address's view, and changes `rdata` alone. -/
theorem exec_busRd_idle {s : State} {w : WordAddr} {d v : Word} (hb : s.busy = false) (hv : view w s = .ok v) :
    exec (.busRd w d) s = .next { s with rdata := v } := by
  simp [exec, execBusRd, readView, countDraw, hb, hv, State.returnData]

/-- A read while BUSY = 1 of an address that reads exactly shows its view, and counts a draw. -/
theorem exec_busRd_exact {s : State} {w : WordAddr} {d v : Word} (hb : s.busy = true) (hw : exactWhileBusy w = true)
    (hv : view w s = .ok v) : exec (.busRd w d) s = .next { s with rdata := v, draws := s.draws + 1 } := by
  simp [exec, execBusRd, readView, countDraw, hb, hw, hv, State.returnData, State.nextDraw]

theorem view_status (s : State) : view 0x0001 s = .ok (statusWord s) := rfl

/-- STATUS while BUSY = 0, field by field (10_state.md R25, R29). -/
theorem statusWord_of_idle {s : State} (hb : s.busy = false) :
    statusWord s = BitVec.ofNat 32
      (2 * s.ready.toNat + 4 * s.err.toNat + 8 * s.drop.toNat + 256 * s.errCode.bits.toNat) := by
  have h := congrArg (BitVec.ofNat 32) (toNat_statusWord s)
  rw [BitVec.ofNat_toNat, BitVec.setWidth_eq] at h
  simpa [phase_of_idle hb, hb] using h

/-- A field read zero-extended (10_state.md R24). -/
theorem view_ok_setWidth {w : WordAddr} {s : State} {n : Nat} {x : BitVec n} (h : view w s = .ok (x.setWidth 32)) :
    view w s = .ok (BitVec.ofNat 32 x.toNat) := by
  rw [h, BitVec.ofNat_toNat]

/-- Settles O18: the view of each register's address is its field. -/
theorem registersReadBackWhileIdle : Obligations.RegistersReadBackWhileIdle := by
  intro s d hb
  have read := fun {w v} => exec_busRd_idle (s := s) (w := w) (d := d) (v := v) hb
  exact ⟨read rfl, read (statusWord_of_idle hb ▸ view_status s), read rfl, read rfl,
    read (view_ok_setWidth rfl), read (view_ok_setWidth rfl), read (view_ok_setWidth rfl), read (view_ok_setWidth rfl),
    read (view_ok_setWidth rfl), read (view_ok_setWidth rfl), read (view_ok_setWidth rfl), read (view_ok_setWidth rfl)⟩

/-- Settles O19: ERR_CODE stands at bits [11:8], and the bits below add up to less than 256. -/
theorem errorCodesReadAsNumbered : Obligations.ErrorCodesReadAsNumbered := by
  intro s d hb
  refine ⟨_, exec_busRd_idle hb (view_status s), ?_⟩
  have hcode : ((statusWord s).toNat / 256) % 16 = s.errCode.bits.toNat := by
    have := s.busy.toNat_lt
    have := s.ready.toNat_lt
    have := s.err.toNat_lt
    have := s.drop.toNat_lt
    have := (phase s).isLt
    have := s.errCode.bits.isLt
    rw [toNat_statusWord]
    omega
  rw [hcode]
  cases s.errCode <;> rfl

/-- Settles O20: PHASE is the one field whose value is drawn. -/
theorem statusReadsExactlyWhileBusy : Obligations.StatusReadsExactlyWhileBusy := by
  intro s d hb
  refine ⟨_, (phase s).toNat, exec_busRd_exact hb rfl (view_status s), rfl, ?_, ?_, ?_⟩
  · rw [toNat_statusWord, hb]
    rfl
  · rintro ⟨len, hp⟩
    exact phase_of_encode hp
  · rintro ⟨bits, hp⟩
    rw [phase_of_decode hp]
    rfl

end Sys2Proof.Machine
end

section
/-! PROOFS. Who changes the output, the symbol input, DROP and the error report. -/

namespace Sys2Proof.Machine

/-! ### The output (10_state.md R39, R49) -/

/-- `t` holds OUT_LEN and SYMBUF_OUT of `s`. -/
def SameOutput (s t : State) : Prop := t.outLen = s.outLen ∧ ∀ a, symOutBase ≤ a → t.mem.read a = s.mem.read a

theorem sameOutput_of_eq {s t : State} (hout : t.outLen = s.outLen) (hmem : t.mem = s.mem) : SameOutput s t :=
  ⟨hout, fun a _ => by rw [hmem]⟩

/-- No host transaction changes the output. -/
theorem TransactionEffect.sameOutput {s t : State} (h : TransactionEffect s t) : SameOutput s t := by
  cases h with
  | stored w v _ _ hw =>
    refine ⟨rfl, fun a ha => ?_⟩
    rw [State.storeBytes_mem, Memory.read_store_outside]
    rw [length_bytesOfWord, byteAddr]
    rw [symOutBase] at ha
    omega
  | _ => exact sameOutput_of_eq rfl rfl

/-- No completion step but a DECODE's changes the output: a bit-string ends within BITBUF (41_encode.md R139). -/
theorem CompletionEffect.sameOutput {s t : State} (h : CompletionEffect s t)
    (hne : ∀ bits, s.pend ≠ some (.decode bits)) : SameOutput s t := by
  cases h with
  | idle _ => exact sameOutput_of_eq rfl rfl
  | emptied _ => exact sameOutput_of_eq rfl rfl
  | encoded len text _ hlen hpos _ =>
    have hfits := length_stream_fits hpos (by have := len.isLt; omega)
    refine ⟨rfl, fun a ha => ?_⟩
    rw [State.retire_mem, State.commitText_mem, Memory.read_store_outside]
    rw [length_packBits, bitWordBytes, bitBase]
    rw [symOutBase] at ha
    omega
  | nothing bits hp _ => exact absurd hp (hne bits)
  | walked bits r hp _ _ _ => exact absurd hp (hne bits)

/-- Settles O55. -/
theorem outputChangesOnlyByDecodeOrReset : Obligations.OutputChangesOnlyByDecodeOrReset := by
  intro s t h hr hd
  rcases step_turns h with ⟨w, rest, -, hx⟩ | ⟨ht, rest, hc⟩ | ⟨p, rest, hi, -⟩
  · exact (exec_effect hx).sameOutput
  · exact hc.sameOutput fun bits hp => hd ⟨ht, bits, hp⟩
  · exact absurd ⟨p, rest, hi⟩ hr

/-! ### The symbol input (10_state.md R47) -/

/-- An address that stores is in SYMBUF_IN or BITBUF; any other write leaves the buffers alone. -/
theorem writeTarget_mem (w : WordAddr) (v : Word) (s : State) :
    (writeTarget w v s).mem = s.mem ∨ (writeTarget w v s).mem = s.mem.store (byteAddr w) (bytesOfWord v) := by
  rw [writeTarget]
  split
  case h_3 => exact .inr rfl
  case h_4 => exact .inr rfl
  all_goals exact .inl rfl

theorem execNop_mem {s t : State} (h : execNop s = .next t) : t.mem = s.mem := by
  rw [execNop] at h
  split at h <;> (obtain rfl := Host.Outcome.next.inj h; rfl)

theorem execEncode_mem {s t : State} (h : execEncode s = .next t) : t.mem = s.mem := by
  rw [execEncode] at h
  split_ifs at h <;> (obtain rfl := Host.Outcome.next.inj h; rfl)

theorem execDecode_mem {s t : State} (h : execDecode s = .next t) : t.mem = s.mem := by
  rw [execDecode] at h
  split_ifs at h <;> (obtain rfl := Host.Outcome.next.inj h; rfl)

/-- A command's issue leaves the buffers alone (40_command.md R100). -/
theorem issueCmd_mem {v : Word} {s t : State} (h : issueCmd v s = .next t) : t.mem = s.mem := by
  rw [issueCmd] at h
  split at h
  · exact execNop_mem h
  · exact execEncode_mem h
  · exact execDecode_mem h
  · rw [issueIllegal] at h
    split at h <;> (obtain rfl := Host.Outcome.next.inj h; rfl)

/-- A transaction leaves the buffers alone, or is a write while idle that stores its word. -/
theorem exec_mem {i : Instr} {s t : State} (h : exec i s = .next t) :
    t.mem = s.mem ∨ ∃ w v, i = .busWr w v ∧ s.busy = false ∧ t.mem = s.mem.store (byteAddr w) (bytesOfWord v) := by
  cases i with
  | nop => exact .inl (execNop_mem h)
  | encode => exact .inl (execEncode_mem h)
  | decode => exact .inl (execDecode_mem h)
  | busRd w d =>
    obtain ⟨v, rfl⟩ := execBusRd_next (d := d) h
    left
    split <;> rfl
  | busWr w v =>
    rw [exec, execBusWr] at h
    split_ifs at h with h0 hb
    · exact .inl (issueCmd_mem h)
    · obtain rfl := Host.Outcome.next.inj h
      exact .inl rfl
    · obtain rfl := Host.Outcome.next.inj h
      exact (writeTarget_mem w v s).imp id fun hm => ⟨w, v, rfl, by simpa using hb, hm⟩

/-- The engine never writes below BITBUF. -/
theorem CompletionEffect.read_below_bitBase {s t : State} (h : CompletionEffect s t) {a : Nat} (ha : a < bitBase) :
    t.mem.read a = s.mem.read a := by
  cases h with
  | idle _ => rfl
  | emptied _ => rfl
  | encoded len text _ _ _ _ => exact Memory.read_store_outside _ _ _ _ (.inl ha)
  | nothing bits _ _ => rfl
  | walked bits r _ _ _ _ =>
    rw [State.retire_mem, State.endWalk_mem, Memory.read_store_outside]
    rw [bitBase] at ha
    rw [symOutBase]
    omega

/-- A reset erases nothing below BITBUF (70_reset_and_hazards.md R206). -/
theorem read_memAfterReset_below_bitBase (s : State) {a : Nat} (ha : a < bitBase) :
    (memAfterReset s).read a = s.mem.read a := by
  rcases memAfterReset_cases s with hm | ⟨base, hbase, hm⟩
  · rw [hm]
  · rw [hm, Memory.read_erase, if_neg]
    rw [bitBase] at ha
    rcases hbase with rfl | rfl
    · rw [bitBase]; omega
    · rw [symOutBase]; omega

/-- Settles O56: of the three turns only a transaction that stores a word reaches SYMBUF_IN. -/
theorem symbolInputChangesOnlyByHostWrites : Obligations.SymbolInputChangesOnlyByHostWrites := by
  intro s t a h _ ha hne
  rcases step_turns h with ⟨w, rest, hi, hx⟩ | ⟨-, rest, hc⟩ | ⟨p, rest, -, rfl⟩
  · rcases exec_mem hx with hm | ⟨waddr, v, hw, hb, hm⟩
    · exact absurd (congrArg (Memory.read · a) hm) hne
    · refine ⟨hb, w, waddr, v, rest, hi, hw, ?_⟩
      by_contra hout
      refine hne ?_
      rw [hm]
      refine Memory.read_store_outside _ _ _ _ ?_
      rw [length_bytesOfWord, byteAddr]
      omega
  · exact absurd (hc.read_below_bitBase ha) hne
  · exact absurd (read_memAfterReset_below_bitBase (s.withInputs rest) ha) hne

/-! ### DROP (10_state.md R28) -/

/-- A transaction while BUSY = 1 leaves the command running, and sets DROP when it is a write (40_command.md R106). -/
theorem exec_decodeHbus_busy {w : HbusWord} {s t : State} (hb : s.busy = true) (h : exec (decodeHbus w) s = .next t) :
    t.busy = true ∧ t.drop = (s.drop || w.getLsbD 48) := by
  rw [decodeHbus, hbusWe] at h
  split at h
  case isTrue hwe =>
    have hdrop : execBusWr (hbusWaddr w) (hbusWdata w) s = .next s.dropWrite := by
      simp only [execBusWr, issueCmd, execNop, execEncode, execDecode, issueIllegal, hb, if_true]
      split
      · split <;> rfl
      · rfl
    obtain rfl := Host.Outcome.next.inj (hdrop.symm.trans h)
    rw [hwe, Bool.or_true]
    exact ⟨hb, rfl⟩
  case isFalse hwe =>
    obtain ⟨v, rfl⟩ := execBusRd_next (d := hbusWdata w) h
    rw [Bool.eq_false_of_not_eq_true hwe, Bool.or_false, if_pos hb]
    exact ⟨hb, rfl⟩

/-- A transaction while BUSY = 0 leaves DROP, or is an acceptance, which clears it (40_command.md R104). -/
theorem TransactionEffect.drop_of_idle {s t : State} (h : TransactionEffect s t) (hb : s.busy = false) :
    (t.busy = false ∧ t.drop = s.drop) ∨ (t.busy = true ∧ t.drop = false) := by
  cases h with
  | dropped hb' => exact absurd (hb.symm.trans hb') Bool.false_ne_true
  | readBusy v hb' => exact absurd (hb.symm.trans hb') Bool.false_ne_true
  | acceptedEncode len _ _ => exact .inr ⟨rfl, rfl⟩
  | acceptedDecode bits _ _ _ => exact .inr ⟨rfl, rfl⟩
  | _ => exact .inl ⟨hb, rfl⟩

/-- A completion step leaves DROP, and no command running. -/
theorem CompletionEffect.drop_eq {s t : State} (h : CompletionEffect s t) : t.busy = false ∧ t.drop = s.drop := by
  cases h with
  | idle hp => exact ⟨s.busy_of_pend_none hp, rfl⟩
  | walked bits r _ _ _ _ => exact ⟨rfl, s.endWalk_drop r⟩
  | _ => exact ⟨rfl, rfl⟩

/-- Settles O57: turn by turn, a transaction while busy, a transaction while idle, a completion step and a reset edge. -/
theorem dropFollowsBusyWrites : Obligations.DropFollowsBusyWrites := by
  intro s t h
  rcases step_turns h with ⟨w, rest, hi, hx⟩ | ⟨ht, rest, hc⟩ | ⟨p, rest, hi, rfl⟩
  · have hr := not_resetTurn_of_transaction hi
    cases hb : s.busy
    · rcases (exec_effect hx).drop_of_idle hb with ⟨hb', hd⟩ | ⟨hb', hd⟩ <;>
        simp +contextual [hr, hb', hd]
    · obtain ⟨hb', hd⟩ := exec_decodeHbus_busy (s := s.withInputs rest) hb hx
      simp +contextual [hr, hb', hd, hi]
  · obtain ⟨hb', hd⟩ := hc.drop_eq
    have hr := ht.not_resetTurn
    have hi := ht.inputs_ne
    simp +contextual [hr, hb', hd, hi]
  · have hr : ResetTurn s := ⟨p, rest, hi⟩
    simp [State.resetEdge, State.reset, hr, hi]

/-! ### The error report (10_state.md R27, R30, R40; 60_exceptions.md R192) -/

/-- `t` holds the error report of `s`. -/
def SameReport (s t : State) : Prop := t.err = s.err ∧ t.errCode = s.errCode ∧ t.errPos = s.errPos

/-- A transaction leaves the error report, is a rejection, which leaves ERR_POS, or is an acceptance. -/
theorem TransactionEffect.report {s t : State} (h : TransactionEffect s t) :
    SameReport s t ∨ (s.busy = false ∧ t.err = true ∧ t.errPos = s.errPos) ∨ (s.busy = false ∧ t.busy = true) := by
  cases h with
  | rejected c hb _ => exact .inr (.inl ⟨hb, rfl, rfl⟩)
  | acceptedEncode len hb _ => exact .inr (.inr ⟨hb, rfl⟩)
  | acceptedDecode bits hb _ _ => exact .inr (.inr ⟨hb, rfl⟩)
  | _ => exact .inl ⟨rfl, rfl, rfl⟩

/-- A completion step leaves the error report, or is a DECODE's that ends with ERR = 1. -/
theorem CompletionEffect.report {s t : State} (h : CompletionEffect s t) :
    SameReport s t ∨ ((∃ bits, s.pend = some (.decode bits)) ∧ t.err = true) := by
  cases h with
  | walked bits r hp _ _ _ =>
    rcases s.endWalk_report r with ⟨-, hsame⟩ | ⟨c, pos, -, he, -⟩
    · exact .inl hsame
    · exact .inr ⟨⟨bits, hp⟩, he⟩
  | _ => exact .inl ⟨rfl, rfl, rfl⟩

/-- Settles O58. -/
theorem errorReportsStayUntilAcceptance : Obligations.ErrorReportsStayUntilAcceptance := by
  intro s t h hr hacc
  have same : SameReport s t → (s.err = true → t.err = true)
      ∧ (t.errPos ≠ s.errPos → DecodeTurn s ∧ t.err = true)
      ∧ (t.errCode ≠ s.errCode → t.err = true ∧ (DecodeTurn s ∨ (s.busy = false ∧ t.errPos = s.errPos))) :=
    fun ⟨he, hcode, hpos⟩ => ⟨fun hs => he.trans hs, fun hne => absurd hpos hne, fun hne => absurd hcode hne⟩
  rcases step_turns h with ⟨w, rest, -, hx⟩ | ⟨ht, rest, hc⟩ | ⟨p, rest, hi, -⟩
  · rcases (exec_effect hx).report with hsame | ⟨hb, he, hpos⟩ | hacc'
    · exact same hsame
    · exact ⟨fun _ => he, fun hne => absurd hpos hne, fun _ => ⟨he, .inr ⟨hb, hpos⟩⟩⟩
    · exact absurd hacc' hacc
  · rcases hc.report with hsame | ⟨hd, he⟩
    · exact same hsame
    · exact ⟨fun _ => he, fun _ => ⟨⟨ht, hd⟩, he⟩, fun _ => ⟨he, .inl ⟨ht, hd⟩⟩⟩
  · exact absurd ⟨p, rest, hi⟩ hr

end Sys2Proof.Machine
end

section
/-! PROOFS. What host transactions leave alone: a read everything, and any transaction a running command. -/

namespace Sys2Proof.Machine

/-! ### Reads (20_memory.md R68, 43_host_access.md R179) -/

/-- A read while BUSY = 0 that answers shows the address's view, and changes `rdata` alone. -/
theorem exec_busRd_idle_next {s t : State} {w : WordAddr} {d : Word} (hb : s.busy = false)
    (h : exec (.busRd w d) s = .next t) : ∃ v, view w s = .ok v ∧ t = s.returnData v := by
  cases hv : view w s with
  | ok v => exact ⟨v, rfl, Host.Outcome.next.inj (h.symm.trans (exec_busRd_idle hb hv))⟩
  | error a => simp [exec, execBusRd, readView, countDraw, hb, hv] at h

/-- No view shows the `rdata` port. -/
theorem view_returnData (w : WordAddr) (s : State) (v : Word) : view w (s.returnData v) = view w s := rfl

/-- Settles O24: a read stores its word in `rdata`, which no view shows. -/
theorem readsChangeNoState : Obligations.ReadsChangeNoState := by
  intro s t w d h
  refine ⟨?_, fun hb => ?_⟩
  · obtain ⟨v, rfl⟩ := execBusRd_next (d := d) h
    split <;> rfl
  · obtain ⟨v, hv, rfl⟩ := exec_busRd_idle_next hb h
    exact ⟨rfl, fun d' => exec_busRd_idle hb ((view_returnData w s v).trans hv)⟩

/-! ### Transactions while a command runs (40_command.md R105, R106)

While BUSY = 1 a transaction leaves its mark in DROP, `rdata` and `draws` alone, and the completion step neither reads
nor writes these three fields. So the two commute, one transaction at a time. -/

/-- `s` with the marks that transactions left in `o`: DROP and the model's `rdata` and `draws`. -/
def State.withMarks (s o : State) : State := { s with drop := o.drop, rdata := o.rdata, draws := o.draws }

theorem State.endWalk_withMarks (s o : State) (r : WalkEnd) :
    (s.withMarks o).endWalk r = (s.endWalk r).withMarks o := by
  rw [State.endWalk, State.endWalk]
  split <;> rfl

/-- A transaction while BUSY = 1 answers, and changes nothing but the marks. -/
theorem exec_busy_withMarks (i : Instr) {s : State} (hb : s.busy = true) :
    ∃ t, exec i s = .next t ∧ t = s.withMarks t := by
  rcases exec_cases i s with ⟨t, ht⟩ | ⟨_, _, _, _, hidle, _⟩
  · refine ⟨t, ht, ?_⟩
    cases exec_effect ht with
    | dropped _ => rfl
    | readBusy v _ => rfl
    | _ => exact nomatch hb.symm.trans ‹s.busy = false›
  · exact nomatch hb.symm.trans hidle

/-- A listed effect is what the completion step answers: the converse of `complete_effect`. -/
theorem CompletionEffect.complete_eq {s t : State} (h : CompletionEffect s t) : complete s = .next t := by
  cases h with
  | idle hp => rw [complete, hp]
  | emptied hp => rw [complete, hp]; rfl
  | encoded len text hp hlen hpos htext => simp only [complete, hp, encodeCommit_text hlen hpos htext, retired]
  | nothing bits hp hc => simp only [complete, hp, decodeCommit, if_pos hc, retired]
  | walked bits r hp hr hbits hw =>
    have hc : ¬ (s.ready = false ∨ bits = 0) := not_or.2 ⟨by simp [hr], hbits⟩
    simp only [complete, hp, decodeCommit, if_neg hc, hw, retired]

/-- A completion step carries the marks along. -/
theorem CompletionEffect.withMarks {s u : State} (h : CompletionEffect s u) (o : State) :
    CompletionEffect (s.withMarks o) (u.withMarks o) := by
  cases h with
  | idle hp => exact .idle hp
  | emptied hp => exact .emptied hp
  | encoded len text hp hlen hpos htext => exact .encoded len text hp hlen hpos htext
  | nothing bits hp hc => exact .nothing bits hp hc
  | walked bits r hp hr hbits hw =>
    have := CompletionEffect.walked (s := s.withMarks o) bits r hp hr hbits hw
    rwa [State.endWalk_withMarks] at this

theorem complete_withMarks {s u : State} (h : complete s = .next u) (o : State) :
    complete (s.withMarks o) = .next (u.withMarks o) :=
  ((complete_effect h).withMarks o).complete_eq

theorem run_succ {s t : State} (h : step s = .next t) (k : Nat) :
    Sys2Proof.core.run (k + 1) s = Sys2Proof.core.run k t := by
  simp only [Host.Core.run, Sys2Proof.core, h]

theorem step_of_no_inputs {s : State} (hi : s.inputs = []) : step s = complete s := by
  rw [step, hi]

theorem step_of_transaction {s : State} {w : HbusWord} {rest : List Input} (hi : s.inputs = .transaction w :: rest) :
    step s = exec (decodeHbus w) (s.withInputs rest) := by
  rw [step, hi]
  rfl

/-- Settles O59, by induction on the transactions: the first one leaves its marks, which the completion step carries
along. -/
theorem transactionsDoNotDisturbARunningCommand : Obligations.TransactionsDoNotDisturbARunningCommand := by
  intro s u words
  induction words generalizing s u with
  | nil =>
    intro hb hi hc
    have hi : s.inputs = [] := hi
    have hself : { s with inputs := [] } = s := by rw [← hi]
    rw [hself] at hc
    have hs : step s = .next u := (step_of_no_inputs hi).trans hc
    exact ⟨u, run_succ hs 0, rfl, by simp [(complete_effect hc).drop_eq.2]⟩
  | cons w ws ih =>
    intro hb hi hc
    obtain ⟨s₁, hx, hmarks⟩ := exec_busy_withMarks (decodeHbus w) (s := s.withInputs (ws.map .transaction)) hb
    obtain ⟨hb₁, hd₁⟩ := exec_decodeHbus_busy (s := s.withInputs (ws.map .transaction)) hb hx
    have hi₁ : s₁.inputs = ws.map .transaction := by rw [hmarks]; rfl
    have hc₁ : complete { s₁ with inputs := [] } = .next (u.withMarks s₁) := by
      rw [hmarks]
      exact complete_withMarks hc s₁
    obtain ⟨t, ht, htu, hdrop⟩ := ih s₁ _ hb₁ hi₁ hc₁
    refine ⟨t, (run_succ ((step_of_transaction hi).trans hx) _).trans ht, htu, ?_⟩
    rw [hdrop, hd₁]
    simp [or_assoc]

end Sys2Proof.Machine
end

section
/-! PROOFS. The two decoders and the encoder agree (30_encoding.md R80-R88). -/

namespace Sys2Proof

/-! ### The fields of an HBUS word (30_encoding.md R82) -/

theorem getLsbD_hbusWord (we : Bool) (waddr : WordAddr) (wdata : Word) (i : Nat) :
    (hbusWord we waddr wdata).getLsbD i =
      if i < 32 then wdata.getLsbD i
      else if i - 32 < 16 then waddr.getLsbD (i - 32)
      else (BitVec.ofBool we).getLsbD (i - 32 - 16) :=
  BitVec.getLsbD_append.trans (by rw [BitVec.getLsbD_append])

@[simp] theorem hbusWe_hbusWord (we : Bool) (waddr : WordAddr) (wdata : Word) :
    hbusWe (hbusWord we waddr wdata) = we := by
  rw [hbusWe, getLsbD_hbusWord]
  simp

@[simp] theorem hbusWaddr_hbusWord (we : Bool) (waddr : WordAddr) (wdata : Word) :
    hbusWaddr (hbusWord we waddr wdata) = waddr := by
  ext i hi
  simp [hbusWaddr, getLsbD_hbusWord, hi]

@[simp] theorem hbusWdata_hbusWord (we : Bool) (waddr : WordAddr) (wdata : Word) :
    hbusWdata (hbusWord we waddr wdata) = wdata := by
  ext i hi
  simp [hbusWdata, getLsbD_hbusWord, hi]

/-- The three fields are the whole word. -/
theorem hbusWord_fields (w : HbusWord) : hbusWord (hbusWe w) (hbusWaddr w) (hbusWdata w) = w := by
  refine BitVec.eq_of_getLsbD_eq fun i hi => ?_
  rw [getLsbD_hbusWord]
  split
  case isTrue hdata => simp [hbusWdata, hdata]
  case isFalse hdata =>
    split
    case isTrue haddr => simp [hbusWaddr, haddr, show 32 + (i - 32) = i by omega]
    case isFalse haddr =>
      obtain rfl : i = 48 := by omega
      simp [hbusWe]

theorem hbusWaddr_eq_ofNat (w : HbusWord) : hbusWaddr w = BitVec.ofNat 16 (w.toNat / 2 ^ 32) := by
  rw [hbusWaddr, BitVec.extractLsb', Nat.shiftRight_eq_div_pow]

theorem hbusWdata_eq_ofNat (w : HbusWord) : hbusWdata w = BitVec.ofNat 32 w.toNat := by
  rw [hbusWdata, BitVec.extractLsb', Nat.shiftRight_zero]

/-! ### Words (30_encoding.md R84, R85) -/

theorem decodeHbus_hbusWord (we : Bool) (waddr : WordAddr) (wdata : Word) :
    decodeHbus (hbusWord we waddr wdata) = if we then .busWr waddr wdata else .busRd waddr wdata := by
  simp [decodeHbus]

theorem encode_decodeHbus (w : HbusWord) : encode (decodeHbus w) = .hbus w := by
  have hfields := hbusWord_fields w
  rw [decodeHbus]
  split
  case isTrue hwe => rw [encode, ← hwe, hfields]
  case isFalse hwe => rw [encode, ← Bool.eq_false_of_not_eq_true hwe, hfields]

theorem decodeWord_encode (i : Instr) : decodeWord (encode i) = some i := by
  cases i with
  | nop => rfl
  | encode => rfl
  | decode => rfl
  | busRd waddr wdata => exact congrArg some (decodeHbus_hbusWord false waddr wdata)
  | busWr waddr wdata => exact congrArg some (decodeHbus_hbusWord true waddr wdata)

/-- Settles O4. -/
theorem hbusWordsDecodeOnBit48 : Obligations.HbusWordsDecodeOnBit48 := by
  intro w
  refine ⟨?_, encode_decodeHbus w⟩
  rw [decodeHbus, hbusWaddr_eq_ofNat, hbusWdata_eq_ofNat, hbusWe]

/-! ### Bytes (30_encoding.md R86-R88, log entry 10) -/

/-- The format a word is of. -/
def EncodedWord.format : EncodedWord → Format
  | .cmd _ => .cmd
  | .hbus _ => .hbus

theorem format_encode (i : Instr) : (encode i).format = i.format := by
  cases i <;> rfl

/-- What the decoder of bytes answers for a word: its operation and the bytes after it, or the refusal of a CMD word. -/
def answerWord (rest : List Byte) (w : EncodedWord) : Except DecodeError (Instr × List Byte) :=
  (decodeWord w).elim (.error .illegalCommand) fun i => .ok (i, rest)

/-- The decoder reads the number that the format's bytes spell, as a word, and leaves the bytes after it. -/
theorem decodeBytes_bytesOfNat_append {f : Format} {v : Nat} (hv : v < 256 ^ f.byteLength) (rest : List Byte) :
    decodeBytes f (bytesOfNat f.byteLength v ++ rest) = (wordOfNat f v).bind (answerWord rest) := by
  have hlen := length_bytesOfNat f.byteLength v
  have hlong : ¬ (bytesOfNat f.byteLength v ++ rest).length < f.byteLength := by simp
  rw [decodeBytes, if_neg hlong, List.take_left' hlen, List.drop_left' hlen, natOfBytes_bytesOfNat,
    Nat.mod_eq_of_lt hv]
  cases wordOfNat f v with
  | error e => rfl
  | ok w => simp only [Except.bind, answerWord]; cases decodeWord w <;> rfl

/-- The bytes of a word decode as the word does. -/
theorem decodeBytes_bytes_append (w : EncodedWord) (rest : List Byte) :
    decodeBytes w.format (w.bytes ++ rest) = answerWord rest w := by
  cases w with
  | cmd v =>
    have hw : wordOfNat .cmd v.toNat = .ok (.cmd v) := by simp [wordOfNat]
    exact (decodeBytes_bytesOfNat_append (f := .cmd) v.isLt rest).trans (by rw [hw]; rfl)
  | hbus w =>
    have hw : wordOfNat .hbus w.toNat = .ok (.hbus w) := by simp [wordOfNat, w.isLt]
    have hlt : w.toNat < 256 ^ 7 := by have := w.isLt; omega
    exact (decodeBytes_bytesOfNat_append (f := .hbus) hlt rest).trans (by rw [hw]; rfl)

/-- Settles O2: the bytes decode as the word does, and the word decodes to the operation. -/
theorem everyOperationRoundTrips : Obligations.EveryOperationRoundTrips := by
  intro i rest
  rw [encodeBytes, ← format_encode, decodeBytes_bytes_append, answerWord, decodeWord_encode, Option.elim]

/-- Settles O5, one refusal at a time: by length, by the CMD word, and by the bits above bit 48. -/
theorem byteDecoderRefusesByName : Obligations.ByteDecoderRefusesByName := by
  refine ⟨fun f bs hshort => ?_, fun v rest h0 h1 h2 => ?_, fun w rest => ?_, fun v rest hlo hhi => ?_⟩
  · rw [decodeBytes, if_pos hshort]
  · have hillegal : decodeWord (.cmd v) = none := by simp [decodeWord, decodeCmd, h0, h1, h2]
    exact (decodeBytes_bytes_append (.cmd v) rest).trans (by rw [answerWord, hillegal, Option.elim])
  · exact decodeBytes_bytes_append (.hbus w) rest
  · have hbits : wordOfNat .hbus v = .error .bitsAboveHbus := by rw [wordOfNat, if_neg (by omega)]
    have hlt : v < 256 ^ 7 := by omega
    exact (decodeBytes_bytesOfNat_append (f := .hbus) hlt rest).trans (by rw [hbits]; rfl)

/-- Settles O1. -/
theorem specWordsDecode : Obligations.SpecWordsDecode := by
  unfold Obligations.SpecWordsDecode
  decide

end Sys2Proof
end

section
/-! PROOFS. A step runs the transaction that stands next (30_encoding.md R80, R90). -/

namespace Sys2Proof.Machine

/-- The transaction that performs an operation has the operation's meaning: a command's is a write to CMD. -/
theorem exec_decodeHbus_transaction (i : Instr) (s : State) : exec (decodeHbus i.transaction) s = exec i s := by
  cases i with
  | nop => rfl
  | encode => rfl
  | decode => rfl
  | busRd waddr wdata => exact congrArg (exec · s) (decodeHbus_hbusWord false waddr wdata)
  | busWr waddr wdata => exact congrArg (exec · s) (decodeHbus_hbusWord true waddr wdata)

/-- Settles O6. -/
theorem stepRunsTheDecodedTransaction : Obligations.StepRunsTheDecodedTransaction := by
  intro s rest
  exact ⟨fun w hi => step_of_transaction hi,
    fun i hi => (step_of_transaction hi).trans (exec_decodeHbus_transaction i _)⟩

end Sys2Proof.Machine
end

section
/-! PROOFS. The only stop is the read of a buffer byte that nothing has written (70_reset_and_hazards.md R207). -/

namespace Sys2Proof.Machine

/-- A byte address of the three buffers that nothing has written (20_memory.md R61). -/
def Memory.Unwritten (m : Memory) (a : Nat) : Prop := m.read a = none ∧ symInBase ≤ a ∧ a < memEnd

/-- The outcome is a next state, or the stop at an unwritten byte of `m`. -/
def AnswersOrStops (m : Memory) (o : Outcome) : Prop :=
  (∃ t, o = .next t) ∨ ∃ a, o = .fault (.unwrittenRead a) ∧ m.Unwritten a

theorem Memory.unwritten_of_readBytes {m : Memory} {base n a : Nat} (h : m.readBytes base n = .error a)
    (hlo : symInBase ≤ base) (hhi : base + n ≤ memEnd) : m.Unwritten a := by
  obtain ⟨h1, h2, hnone, -⟩ := readBytes_eq_error.1 h
  exact ⟨hnone, by omega, by omega⟩

/-- BUS_RD stops in a buffer's word. -/
theorem exec_answersOrStops (i : Instr) (s : State) : AnswersOrStops s.mem (exec i s) := by
  rcases exec_cases i s with hnext | ⟨w, d, a, -, -, hread, hw, hx⟩
  · exact .inl hnext
  · refine .inr ⟨a, hx, Memory.unwritten_of_readBytes (Memory.readWord_eq_error.1 hread) ?_ ?_⟩
    · simp only [symInBase, byteAddr]; omega
    · have := w.isLt
      simp only [memEnd, byteAddr]; omega

/-- ENCODE stops in its text, which SYMBUF_IN holds. -/
theorem encodeCommit_error {keep : Bool} {len : BitVec 16} {s : State} {a : Nat}
    (h : encodeCommit keep len s = .error a) : s.mem.Unwritten a := by
  rw [encodeCommit] at h
  split at h
  · exact nomatch h
  · split at h
    · rename_i ht
      obtain rfl := Except.error.inj h
      have := len.isLt
      exact Memory.unwritten_of_readBytes ht (Nat.le_refl _) (by simp only [symInBase, memEnd]; omega)
    · exact nomatch h

/-- DECODE stops at one of its bits. Any 20-bit count of them ends in the buffers. -/
theorem decodeCommit_error {bits : BitVec 20} {s : State} {a : Nat} (h : decodeCommit bits s = .error a) :
    s.mem.Unwritten a := by
  rw [decodeCommit] at h
  split at h
  · exact nomatch h
  · split at h
    · rename_i hw
      obtain rfl := Except.error.inj h
      obtain ⟨j, -, hj, rfl, hbit⟩ := walk_error hw
      have := bits.isLt
      refine ⟨Option.map_eq_none_iff.1 hbit, ?_, ?_⟩ <;> simp only [bitAddr, bitBase, symInBase, memEnd] <;> omega
    · exact nomatch h

theorem retired_answersOrStops {m : Memory} {r : Except Nat State} (h : ∀ a, r = .error a → m.Unwritten a) :
    AnswersOrStops m (retired r) := by
  cases r with
  | ok u => exact .inl ⟨_, rfl⟩
  | error a => exact .inr ⟨a, rfl, h a rfl⟩

theorem complete_answersOrStops (s : State) : AnswersOrStops s.mem (complete s) := by
  rw [complete]
  split
  · exact .inl ⟨s, rfl⟩
  · exact retired_answersOrStops fun _ => encodeCommit_error
  · exact retired_answersOrStops fun _ => decodeCommit_error

theorem step_answersOrStops (s : State) : AnswersOrStops s.mem (step s) := by
  rw [step]
  split
  · exact complete_answersOrStops s
  · exact exec_answersOrStops _ (s.withInputs _)
  · exact complete_answersOrStops (s.withInputs _)
  · exact .inl ⟨_, rfl⟩

/-- Settles O47: a step is one of the turns, and none stops elsewhere. -/
theorem onlyUnwrittenReadsStop : Obligations.OnlyUnwrittenReadsStop := by
  intro s
  rcases step_answersOrStops s with ⟨t, ht⟩ | ⟨a, ha, hunwritten⟩
  · rw [ht]
    exact ⟨fun _ => nofun, fun _ => nofun⟩
  · rw [ha]
    refine ⟨fun _ => nofun, ?_⟩
    rintro r ⟨rfl⟩
    exact ⟨a, rfl, hunwritten⟩

end Sys2Proof.Machine
end

section
/-! PROOFS. The issue of a command, from its CMD word to the outcome (40_command.md R100-R106), and the run of an ENCODE
from issue to result. -/

namespace Sys2Proof.Machine

/-! ### The CMD word (40_command.md R101) -/

theorem decodeCmd_eq_some {v : Word} {c : Command} : decodeCmd v = some c ↔ v = c.word := by
  constructor
  · intro h
    rw [decodeCmd] at h
    split_ifs at h with h0 h1 h2 <;> (obtain rfl := Option.some.inj h; assumption)
  · rintro rfl
    cases c <;> rfl

theorem decodeCmd_eq_none {v : Word} :
    decodeCmd v = none ↔ v ≠ 0x00000000#32 ∧ v ≠ 0x00000001#32 ∧ v ≠ 0x00000002#32 := by
  rw [decodeCmd]
  split_ifs with h0 h1 h2 <;> simp [*]

/-- Settles O3. -/
theorem commandWordsDecodeByExactMatch : Obligations.CommandWordsDecodeByExactMatch := fun _ =>
  ⟨decodeCmd_eq_some, decodeCmd_eq_some, decodeCmd_eq_some, decodeCmd_eq_none⟩

/-! ### Writes while BUSY = 1 (40_command.md R106) -/

section Busy

variable {s : State} (hb : s.busy = true)

include hb

theorem exec_nop_busy : exec .nop s = .next s.dropWrite := if_pos hb

theorem exec_encode_busy : exec .encode s = .next s.dropWrite := if_pos hb

theorem exec_decode_busy : exec .decode s = .next s.dropWrite := if_pos hb

/-- A write to CMD is dropped too, whatever its word. -/
theorem issueCmd_busy (v : Word) : issueCmd v s = .next s.dropWrite := by
  rw [issueCmd]
  split
  · exact exec_nop_busy hb
  · exact exec_encode_busy hb
  · exact exec_decode_busy hb
  · exact if_pos hb

theorem exec_busWr_busy (w : WordAddr) (v : Word) : exec (.busWr w v) s = .next s.dropWrite := by
  rw [exec, execBusWr, issueCmd_busy hb, if_pos hb, ite_self]

end Busy

/-- Settles O10. -/
theorem writesWhileBusyAreDropped : Obligations.WritesWhileBusyAreDropped := fun _ hb =>
  ⟨exec_busWr_busy hb, exec_nop_busy hb, exec_encode_busy hb, exec_decode_busy hb⟩

/-! ### Issue while BUSY = 0 (40_command.md R100, R102-R104) -/

/-- A write of a command's word to CMD is that command (30_encoding.md R90). -/
theorem exec_busWr_word (c : Command) (s : State) : exec (.busWr 0x0000 c.word) s = exec c.instr s := by
  cases c <;> rfl

section Idle

variable {s : State} (hb : s.busy = false)

include hb

theorem exec_nop_idle : exec .nop s = .next s := if_neg (by simp [hb])

/-- A CMD word that is no command's is rejected with BAD_CMD. -/
theorem exec_busWr_illegal {v : Word} (hv : decodeCmd v = none) :
    exec (.busWr 0x0000 v) s = .next (s.reject .badCmd) := by
  simp [exec, execBusWr, issueCmd, hv, issueIllegal, hb]

theorem exec_encode_rejected (hl : 65535 < s.inLen.toNat) : exec .encode s = .next (s.reject .lenRange) := by
  simp [exec, execEncode, Config.maxLen, hb, hl]

theorem exec_encode_accepted (hl : s.inLen.toNat ≤ 65535) :
    exec .encode s = .next (s.accept (.encode (BitVec.ofNat 16 s.inLen.toNat))) := by
  simp [exec, execEncode, Config.maxLen, hb, Nat.not_lt.2 hl, BitVec.extractLsb']

theorem exec_decode_rejected (hl : 524288 < s.inBits.toNat) : exec .decode s = .next (s.reject .bitsRange) := by
  simp [exec, execDecode, Config.bitbufBits, hb, hl]

theorem exec_decode_accepted (hl : s.inBits.toNat ≤ 524288) :
    exec .decode s = .next (s.accept (.decode (BitVec.ofNat 20 s.inBits.toNat))) := by
  simp [exec, execDecode, Config.bitbufBits, hb, Nat.not_lt.2 hl, BitVec.extractLsb']

end Idle

/-- Settles O9. -/
theorem nopChangesNothing : Obligations.NopChangesNothing := fun _ =>
  ⟨exec_nop_idle, exec_nop_busy, fun hb => exec_busWr_illegal hb (by decide)⟩

/-- Settles O11: the register's value fits the command's length. -/
theorem commandsAreAccepted : Obligations.CommandsAreAccepted := fun _ hb =>
  ⟨fun hl => ⟨_, Nat.mod_eq_of_lt (by omega), exec_encode_accepted hb hl⟩,
    fun hl => ⟨_, Nat.mod_eq_of_lt (by omega), exec_decode_accepted hb hl⟩⟩

/-- Settles O12. -/
theorem commandsAreRejectedPrecisely : Obligations.CommandsAreRejectedPrecisely := fun _ hb =>
  ⟨fun _ h0 h1 h2 => exec_busWr_illegal hb (decodeCmd_eq_none.2 ⟨h0, h1, h2⟩), exec_encode_rejected hb,
    exec_decode_rejected hb⟩

/-! ### The other transactions issue no command (40_command.md R100) -/

@[simp] theorem writeTarget_pend (w : WordAddr) (v : Word) (s : State) : (writeTarget w v s).pend = s.pend := by
  rw [writeTarget]
  split <;> rfl

theorem exec_busWr_pend {w : WordAddr} {v : Word} {s t : State} (hw : w ≠ 0x0000) (h : exec (.busWr w v) s = .next t) :
    t.pend = s.pend := by
  rw [exec, execBusWr, if_neg hw] at h
  split at h <;> obtain rfl := Host.Outcome.next.inj h
  · rfl
  · exact writeTarget_pend w v s

theorem exec_busRd_pend {w : WordAddr} {d : Word} {s t : State} (h : exec (.busRd w d) s = .next t) :
    t.pend = s.pend := by
  obtain ⟨v, rfl⟩ := execBusRd_next (d := d) h
  split <;> rfl

/-- Settles O8: one outcome for each branch of R194's order. -/
theorem commandIssueFollowsTheCheckOrder : Obligations.CommandIssueFollowsTheCheckOrder := by
  refine fun s v => ⟨fun w t hw h => h.elim (exec_busWr_pend hw) exec_busRd_pend, fun t => exec_busRd_pend, ?_⟩
  split_ifs with hb h0 h1 hl h2 hl
  · exact exec_busWr_busy hb 0x0000 v
  all_goals rw [Bool.not_eq_true] at hb
  · rw [h0]
    exact (exec_busWr_word .nop s).trans (exec_nop_idle hb)
  · rw [h1]
    exact (exec_busWr_word .encode s).trans (exec_encode_rejected hb hl)
  · rw [h1]
    exact (exec_busWr_word .encode s).trans (exec_encode_accepted hb (Nat.not_lt.1 hl))
  · rw [h2]
    exact (exec_busWr_word .decode s).trans (exec_decode_rejected hb hl)
  · rw [h2]
    exact (exec_busWr_word .decode s).trans (exec_decode_accepted hb (Nat.not_lt.1 hl))
  · exact exec_busWr_illegal hb (decodeCmd_eq_none.2 ⟨h0, h1, h2⟩)

/-! ### The engine's turn (40_command.md R105) -/

theorem step_of_engine {s : State} {rest : List Input} (hi : s.inputs = .engine :: rest) :
    step s = complete (s.withInputs rest) := by
  rw [step, hi]

/-- Settles O7. -/
theorem stepGivesTheEngineItsTurn : Obligations.StepGivesTheEngineItsTurn := fun s =>
  ⟨step_of_no_inputs, fun _ => step_of_engine, fun hb => (CompletionEffect.idle (s.busy_eq_false.1 hb)).complete_eq⟩

/-! ### ENCODE from issue to result (41_encode.md R115, R140) -/

/-- The bit-string under the committed table is the one packed (41_encode.md R135). -/
theorem streamBits_commitText {text : List Symbol} (hpos : 0 < text.length) (s : State) :
    (s.commitText text).streamBits text = streamOf (codesOf text) text := by
  rw [State.streamBits, streamOf, funext (codeBits_commitText hpos s)]

/-- A commit writes the BITBUF words of the bit-string and no other byte (41_encode.md R136). -/
theorem sameOutside_commitText {text : List Symbol} (hpos : 0 < text.length) (s : State) :
    SameOutside s.mem (s.commitText text).mem bitBase
      (bitWordBytes ((s.commitText text).streamBits text).length) := by
  intro a ha
  rw [streamBits_commitText hpos, ← length_packBits] at ha
  exact Memory.read_store_outside s.mem bitBase _ a ha

/-- Settles O25: the accepted length is the text's, so the completion step commits the text. Acceptance keeps
the buffers, and what the commit writes depends on the text alone, so the facts of a commit at `s` hold of it. -/
theorem encodeRunsToItsResult : Obligations.EncodeRunsToItsResult := by
  intro s text hb hlen hpos hle htext
  have hlt : text.length < 2 ^ 16 := Nat.lt_succ_of_le hle
  have haccept : exec .encode s = .next (s.accept (.encode (BitVec.ofNat 16 text.length))) := by
    rw [hlen] at hle ⊢
    exact exec_encode_accepted hb hle
  have hcommit := CompletionEffect.encoded (s := s.accept (.encode (BitVec.ofNat 16 text.length))) _ text rfl
    (Nat.mod_eq_of_lt hlt).symm hpos htext
  exact ⟨_, _, haccept, rfl, hcommit.complete_eq, rfl, origBits_commitText hlt s, freqOf_commitText hlt s,
    sameOutside_commitText hpos s⟩

end Sys2Proof.Machine
end

section
/-! PROOFS. The invariant of the size statistics. -/

namespace Sys2Proof.Machine

/-! ### The size statistics (41_encode.md R137-R139) -/

/-- RATIO is at most 100 percent (41_encode.md R139). -/
theorem ratioOf_le {comp orig : Nat} (h : comp ≤ orig) : ratioOf comp orig ≤ 6553600 := by
  rw [ratioOf]
  split
  · exact Nat.zero_le _
  · exact Nat.div_le_of_le_mul (Nat.mul_le_mul_right _ h)

section Commit

variable {text : List Symbol} (hpos : 0 < text.length) (hlen : text.length < 2 ^ 16) (s : State)

include hpos

include hlen in
/-- COMP_BITS holds the length of the bit-string, without wrap (41_encode.md R137). -/
theorem compBits_commitText : (s.commitText text).compBits.toNat = (streamOf (codesOf text) text).length := by
  have := length_stream_le hpos
  rw [State.commitText_compBits, BitVec.toNat_ofNat]
  omega

/-- RATIO holds the ratio, without wrap (41_encode.md R138, R139). -/
theorem ratio_commitText :
    (s.commitText text).ratio.toNat = ratioOf (streamOf (codesOf text) text).length (8 * text.length) := by
  have := ratioOf_le (length_stream_le hpos)
  rw [State.commitText_ratio, BitVec.toNat_ofNat]
  omega

include hlen

/-- The statistics that a non-empty ENCODE commits: COMP_BITS, a sum over the text, is a sum over all symbols, each
counted. -/
theorem sizeInv_commitText : SizeInv (s.commitText text) where
  comp := by
    simp only [freqOf_commitText hlen, codeLenOf_commitText hpos]
    rw [compBits_commitText hpos hlen, length_streamOf, sum_allSymbols]
  bound := by
    rw [compBits_commitText hpos hlen, origBits_commitText hlen]
    exact length_stream_le hpos
  ratio := by
    rw [ratio_commitText hpos, compBits_commitText hpos hlen, origBits_commitText hlen, ratioOf]
  ratio_le := by
    rw [ratio_commitText hpos]
    exact ratioOf_le (length_stream_le hpos)

end Commit

/-- Zero tables and statistics agree. -/
theorem sizeInv_of_cleared {s : State} (h : Cleared s) : SizeInv s := by
  obtain ⟨horig, hcomp, hratio⟩ := h.sizes
  refine ⟨?_, by simp [hcomp], by simp [horig, hratio], by simp [hratio]⟩
  have hzero : ∀ sym, s.freqOf sym * s.codeLenOf sym = 0 := fun sym => by rw [(h.tables sym).1, Nat.zero_mul]
  simp only [hcomp, hzero, List.map_const', List.sum_replicate, smul_zero]
  rfl

/-- The invariant speaks of the tables and the statistics alone. -/
theorem SameTables.sizeInv {s t : State} (h : SameTables s t) (hs : SizeInv s) : SizeInv t := by
  rw [h]
  exact ⟨hs.comp, hs.bound, hs.ratio, hs.ratio_le⟩

/-- An ENCODE with L = 0 leaves zero tables, and no tree (41_encode.md R118, R119). -/
theorem cleared_emptyCommit (s : State) : Cleared (s.emptyCommit Config.keepTreeOnEmpty) :=
  cleared_of_zero rfl rfl rfl rfl ⟨rfl, rfl, rfl⟩ ⟨rfl, rfl, rfl⟩

/-- A reset edge leaves zero tables, and no tree (70_reset_and_hazards.md R205). -/
theorem cleared_resetEdge (s : State) (p : Option HbusWord) : Cleared (s.resetEdge p) :=
  cleared_of_zero rfl rfl rfl rfl ⟨rfl, rfl, rfl⟩ ⟨rfl, rfl, rfl⟩

/-- A completion step keeps the invariant of the size statistics. -/
theorem CompletionEffect.keeps_sizeInv {s t : State} (h : CompletionEffect s t) (hs : SizeInv s) : SizeInv t := by
  cases h with
  | idle _ => exact hs
  | emptied _ => exact SameTables.sizeInv rfl (sizeInv_of_cleared (cleared_emptyCommit s))
  | encoded len text _ hl hpos _ => exact SameTables.sizeInv rfl (sizeInv_commitText hpos (hl ▸ len.isLt) s)
  | nothing bits _ _ => exact SameTables.sizeInv (s := s) rfl hs
  | walked bits r _ _ _ _ => exact SameTables.sizeInv (s := s) ((sameTables_endWalk s r).trans rfl) hs

/-- Settles O52: only an ENCODE's completion and a reset edge touch the statistics, and each leaves consistent ones. -/
theorem stepKeepsSizeInvariant : Obligations.StepKeepsSizeInvariant := by
  intro s t hs h
  exact step_keeps (fun s l hs => (sameTables_withInputs s l).sizeInv hs) (fun _ _ he hs => he.sameTables.sizeInv hs)
    (fun _ _ he => he.keeps_sizeInv) (fun s p _ => sizeInv_of_cleared (cleared_resetEdge s p)) hs h

end Sys2Proof.Machine
end

section
/-! PROOFS. Every merge joins the two least members of the queue (41_encode.md R124, R125). -/

namespace Sys2Proof.Machine

/-! ### The queue and its keys across a merge -/

section Append

variable {nodes : List NodeRec} {a b : QItem} {g h : Handle}

/-- A merge leaves the queues at the earlier makings, and at its own, as they were. -/
theorem inQueue_append (hh : h.toNat ≤ nodes.length) :
    InQueue (treeOfNodes (nodes ++ [internalRec a b])) (nodes.length + 1) h g ↔
      InQueue (treeOfNodes nodes) nodes.length h g := by
  rw [InQueue, InQueue]
  refine and_congr_right fun _ => forall₂_congr fun k hk => not_congr ?_
  rw [isParent_append, or_iff_left]
  rintro ⟨he, -⟩
  omega

/-- A merge leaves the keys of the nodes made before as they were. -/
theorem keyLess_append (hg : g.toNat < nodes.length) (hh : h.toNat < nodes.length) :
    KeyLess (treeOfNodes (nodes ++ [internalRec a b])) g h ↔ KeyLess (treeOfNodes nodes) g h := by
  rw [KeyLess, KeyLess, node_treeOfNodes_append_old hg, node_treeOfNodes_append_old hh]

end Append

/-- A handle among the queue's is a member's. -/
theorem exists_member_of_mem_handles {q : List QItem} {g : Handle} (h : g.toNat ∈ q.map QItem.handle) :
    ∃ it ∈ q, BitVec.ofNat 9 it.handle = g := by
  obtain ⟨it, hit, heq⟩ := List.mem_map.1 h
  exact ⟨it, hit, by rw [heq, BitVec.ofNat_toNat, BitVec.setWidth_eq]⟩

section Forest

variable {total : Nat} {nodes : List NodeRec} {q : List QItem} (hf : Forest total nodes q)
  (hlen : nodes.length < 512)

include hf

/-- The nodes in the queue when the next node is made are the queue's members. -/
theorem Forest.inQueue_iff {g h : Handle} (hh : h.toNat = nodes.length) :
    InQueue (treeOfNodes nodes) nodes.length h g ↔ g.toNat ∈ q.map QItem.handle := by
  constructor
  · rintro ⟨hlt, hno⟩
    by_contra hnot
    obtain ⟨k, hk, -⟩ := hf.one_parent g (hh ▸ hlt) hnot
    exact hno k (hh ▸ hk.1) hk
  · intro hmem
    obtain ⟨it, hit, rfl⟩ := exists_member_of_mem_handles hmem
    obtain ⟨hlt, hno, -⟩ := hf.member it hit
    refine ⟨?_, fun k _ => hno k⟩
    rw [BitVec.toNat_ofNat]
    omega

include hlen

/-- Of two members, the one that does not come after the other has the lesser key. -/
theorem Forest.keyLess_of_not_before {x y : QItem} (hx : x ∈ q) (hy : y ∈ q) (hne : x.handle ≠ y.handle)
    (hxy : y.before x = false) :
    KeyLess (treeOfNodes nodes) (BitVec.ofNat 9 x.handle) (BitVec.ofNat 9 y.handle) := by
  rw [← Bool.not_eq_true, QItem.before_iff] at hxy
  rw [KeyLess, ← BitVec.toNat_inj, (hf.member x hx).2.2, (hf.member y hy).2.2, hf.member_toNat hlen hx,
    hf.member_toNat hlen hy]
  omega

end Forest

/-! ### One merge, and the merge of a text -/

section Merge

variable {total : Nat} {nodes : List NodeRec} {a b : QItem} {rest : List QItem}
  (hf : Forest total nodes (a :: b :: rest)) (hlen : nodes.length < 512)
  (ha : ∀ x ∈ b :: rest, x.before a = false) (hb : ∀ x ∈ rest, x.before b = false)

include hf hlen ha hb

/-- The node that a merge makes joins the two least members of the queue, the least one LEFT (41_encode.md R125). -/
theorem Forest.least_taken {h : Handle} (hh : h.toNat = nodes.length) :
    InQueue (treeOfNodes nodes) nodes.length h (BitVec.ofNat 9 a.handle)
      ∧ InQueue (treeOfNodes nodes) nodes.length h (BitVec.ofNat 9 b.handle)
      ∧ KeyLess (treeOfNodes nodes) (BitVec.ofNat 9 a.handle) (BitVec.ofNat 9 b.handle)
      ∧ ∀ g, InQueue (treeOfNodes nodes) nodes.length h g → g ≠ BitVec.ofNat 9 a.handle →
          g ≠ BitVec.ofNat 9 b.handle → KeyLess (treeOfNodes nodes) (BitVec.ofNat 9 b.handle) g := by
  obtain ⟨hab, hrest⟩ := hf.taken_ne
  simp only [hf.inQueue_iff hh]
  have hkey := hf.keyLess_of_not_before hlen (x := a) (y := b) (by simp) (by simp) hab (ha b (by simp))
  refine ⟨?left, ?right, hkey, fun g hg hga hgb => ?least⟩
  case left => simp [hf.member_toNat hlen (it := a)]
  case right => simp [hf.member_toNat hlen (it := b)]
  case least =>
    obtain ⟨it, hit, rfl⟩ := exists_member_of_mem_handles hg
    have hit' : it ∈ rest := by
      rcases List.mem_cons.1 hit with rfl | hit
      · exact absurd rfl hga
      · rcases List.mem_cons.1 hit with rfl | hit
        · exact absurd rfl hgb
        · exact hit
    exact hf.keyLess_of_not_before hlen (by simp) (by simp [hit']) (hrest it hit').2.symm (hb it hit')

/-- One merge keeps the order of the merges before it, and takes its own two members least first. -/
theorem Forest.leastFirst_merge (hl : LeastFirst (treeOfNodes nodes) nodes.length) :
    LeastFirst (treeOfNodes (nodes ++ [internalRec a b])) (nodes.length + 1) := by
  intro h hh
  rcases Nat.lt_succ_iff_lt_or_eq.1 hh with hlt | heq
  · rw [node_treeOfNodes_append_old hlt]
    intro hleaf
    obtain ⟨hcl, hcr, -, -⟩ := hf.internal h hlt hleaf
    obtain ⟨hql, hqr, hlr, hleast⟩ := hl h hlt hleaf
    simp only [inQueue_append hlt.le]
    refine ⟨hql, hqr, (keyLess_append (by omega) (by omega)).2 hlr, fun g hg hgl hgr => ?_⟩
    exact (keyLess_append (by omega) (hg.1.trans hlt)).2 (hleast g hg hgl hgr)
  · intro _
    obtain ⟨hqa, hqb, hab, hleast⟩ := hf.least_taken hlen ha hb heq
    rw [node_treeOfNodes_append_new heq]
    simp only [inQueue_append heq.le]
    refine ⟨hqa, hqb, (keyLess_append (hqa.1.trans_eq heq) (hqb.1.trans_eq heq)).2 hab, fun g hg hga hgb => ?_⟩
    exact (keyLess_append (hqb.1.trans_eq heq) (hg.1.trans_eq heq)).2 (hleast g hg hga hgb)

end Merge

/-- The leaves alone have no merge behind them. -/
theorem leastFirst_leafRecs (text : List Symbol) : LeastFirst (treeOfNodes (leafRecs text)) (leafRecs text).length := by
  intro h hh hleaf
  rw [node_treeOfNodes, List.getD_eq_getElem _ _ hh] at hleaf
  simp [leafRecs, leafRec] at hleaf

/-- What the records and the queue satisfy while a text's leaves are merged: as many as 2N together, a forest, and every
merge so far least first. -/
def MergesLeastFirst (text : List Symbol) (nodes : List NodeRec) (q : List QItem) : Prop :=
  nodes.length + q.length = 2 * numSymsOf text ∧ Forest text.length nodes q
    ∧ LeastFirst (treeOfNodes nodes) nodes.length

theorem mergeStep_mergesLeastFirst {text : List Symbol} (hlen : text.length < 2 ^ 16) {nodes nodes' : List NodeRec}
    {q q' : List QItem} (h : mergeStep nodes q = some (nodes', q')) (hm : MergesLeastFirst text nodes q) :
    MergesLeastFirst text nodes' q' := by
  obtain ⟨hcount, hf, hl⟩ := hm
  have hN := numSymsOf_le text
  have hlengths := mergeStep_length h
  obtain ⟨a, b, rest, hp, ha, hb, rfl, rfl⟩ := mergeStep_eq_some h
  have hpl := hp.length_eq
  rw [List.length_cons, List.length_cons] at hpl
  have hlt : nodes.length < 512 := by omega
  refine ⟨by omega, (hf.perm hp).merge hlt hlen, ?_⟩
  rw [List.length_append]
  exact (hf.perm hp).leastFirst_merge hlt ha hb hl

/-- Every merge of a text's records takes the two least members, the least one LEFT (41_encode.md R124, R125). -/
theorem leastFirst_treeOf {text : List Symbol} (hpos : 0 < text.length) (hlen : text.length < 2 ^ 16) :
    LeastFirst (treeOf text) (2 * numSymsOf text - 1) := by
  obtain ⟨-, -, hl, -⟩ := forest_merged hpos hlen
  have hstart : MergesLeastFirst text (leafRecs text) (leafQueue text) :=
    ⟨by rw [length_leafRecs, leafQueue_length]; omega, forest_leaves hlen, leastFirst_leafRecs text⟩
  have hend : MergesLeastFirst text (merged text).1 (merged text).2 :=
    mergeAll_invariant (P := MergesLeastFirst text) (fun _ _ _ _ => mergeStep_mergesLeastFirst hlen) _ _ _ hstart
  exact hl ▸ hend.2.2

/-- The root holds the frequency of the whole text, without wrap (41_encode.md R128). -/
theorem root_freq_treeOf {text : List Symbol} (hpos : 0 < text.length) (hlen : text.length < 2 ^ 16) :
    ((treeOf text).node (rootOf text)).freq.toNat = text.length := by
  obtain ⟨it, hroot, -, hf⟩ := forest_merged hpos hlen
  have htotal : it.freq = text.length := by simpa using hf.total
  rw [hroot, ← htotal]
  exact (hf.member it (by simp)).2.2

/-- The root of a strict tree is its last node: any other node has a parent after it. -/
theorem StrictTree.root_last {t : Tree} {root : Handle} {n : Nat} (hs : StrictTree t root n) (hn : n ≤ 512) :
    root.toNat + 1 = n := by
  obtain ⟨hlt, -⟩ := hs.root_node
  by_contra hne
  have hlast : (BitVec.ofNat 9 (n - 1)).toNat = n - 1 := by rw [BitVec.toNat_ofNat, Nat.mod_eq_of_lt (by omega)]
  obtain ⟨h, ⟨hh, hleaf, hchild⟩, -⟩ := hs.one_parent (BitVec.ofNat 9 (n - 1)) (by omega) (by rintro rfl; omega)
  obtain ⟨hl, hr, -, -⟩ := hs.internal h hh hleaf
  rcases hchild with hc | hc
  · rw [hc] at hl
    omega
  · rw [hc] at hr
    omega

end Sys2Proof.Machine
end

section
/-! PROOFS. What ENCODE's completion answers (41_encode.md R116-R140): each result of a non-empty text is a fact about
the state that `State.commitText` makes. -/

namespace Sys2Proof.Machine

/-! ### What an ENCODE's completion answers -/

/-- A non-empty ENCODE's completion answers the commit of its text, with no command pending. -/
theorem EncodeCommits.eq_commitText {s t : State} {text : List Symbol} (h : EncodeCommits s text t) :
    0 < text.length ∧ text.length < 2 ^ 16 ∧ t = s.retire.commitText text := by
  obtain ⟨hp, hpos, hle, htext, ht⟩ := h
  have hlt : text.length < 2 ^ 16 := Nat.lt_succ_of_le hle
  have hcommit := (CompletionEffect.encoded _ text hp (Nat.mod_eq_of_lt hlt).symm hpos htext).complete_eq
  exact ⟨hpos, hlt, Host.Outcome.next.inj (ht.symm.trans hcommit)⟩

/-- An empty ENCODE's completion answers the empty commit, with no command pending. -/
theorem complete_of_encode_zero {s : State} (hp : s.pend = some (.encode 0)) :
    complete s = .next (s.emptyCommit Config.keepTreeOnEmpty).retire :=
  (CompletionEffect.emptied hp).complete_eq

/-! ### COUNT and the leaf list (41_encode.md R120-R123) -/

/-- Settles O26: the counts add up to L because ORIG_BITS is eight times their sum and 8L. -/
theorem encodeCountsTheText : Obligations.EncodeCountsTheText := by
  intro s t text h
  obtain ⟨hpos, hlen, rfl⟩ := h.eq_commitText
  have horig := (retained_commitText hpos hlen s.retire).orig
  rw [origBits_commitText hlen] at horig
  exact ⟨freqOf_commitText hlen s.retire, by omega⟩

theorem pairwise_allSymbols : allSymbols.Pairwise fun a b => a.toNat < b.toNat := by
  rw [allSymbols, List.pairwise_map]
  refine List.pairwise_lt_range.imp_of_mem fun hi hj hij => ?_
  rw [List.mem_range] at hi hj
  simp only [BitVec.toNat_ofNat]
  omega

/-- The leaf list is in ascending order (41_encode.md R122). -/
theorem pairwise_leafSymbols (text : List Symbol) : (leafSymbols text).Pairwise fun a b => a.toNat < b.toNat :=
  pairwise_allSymbols.filter _

/-- Settles O27. -/
theorem encodeNumbersLeavesBySymbol : Obligations.EncodeNumbersLeavesBySymbol := by
  intro s t text h
  obtain ⟨hpos, hlen, rfl⟩ := h.eq_commitText
  have hN := numSymsOf_le text
  rw [seen_commitText hlen, numSyms_commitText, nodeCount_commitText]
  refine ⟨rfl, numSymsOf_pos hpos, hN, pairwise_leafSymbols text, fun k hk => ?_, fun g hge => ?_,
    (strictTree_treeOf hpos hlen).unused⟩
  · have hnat : (BitVec.ofNat 9 k).toNat = k := by
      rw [numSymsOf] at hN
      rw [BitVec.toNat_ofNat, Nat.mod_eq_of_lt (by omega)]
    rw [State.commitText_tree, node_treeOf_of_lt (by rwa [hnat])]
    simp only [hnat]
    rfl
  · rw [← Bool.not_eq_true, State.commitText_tree, leaf_treeOf_iff]
    exact Nat.not_lt.2 hge

/-! ### BUILD (41_encode.md R124-R129) -/

/-- Settles O28. -/
theorem encodeMergesLeastFirst : Obligations.EncodeMergesLeastFirst := by
  intro s t text h
  obtain ⟨hpos, hlen, rfl⟩ := h.eq_commitText
  rw [nodeCount_commitText]
  exact ⟨leastFirst_treeOf hpos hlen, freqSums_treeOf hpos hlen, root_freq_treeOf hpos hlen⟩

/-- Settles O29: the root is the last of the tree's nodes, and the leaves are the leaf list's. -/
theorem encodeBuildsAStrictBinaryTree : Obligations.EncodeBuildsAStrictBinaryTree := by
  intro s t text h
  obtain ⟨hpos, hlen, rfl⟩ := h.eq_commitText
  have hN := numSymsOf_pos hpos
  have hN' := numSymsOf_le text
  have htree := strictTree_treeOf hpos hlen
  have hroot := htree.root_last (by omega)
  rw [nodeCount_commitText, numSyms_commitText]
  refine ⟨htree, by omega, by omega, ?root, fun g _ => ⟨leaf_treeOf_iff, fun hl => (leaf_treeOf hl).1⟩,
    fun sym hs => ?_⟩
  case root =>
    rw [State.commitText_root]
    omega
  · obtain ⟨g, hl, hsym⟩ := exists_leaf_treeOf hs
    have := leaf_treeOf_iff.1 hl
    exact ⟨g, ⟨by omega, hl, hsym⟩, fun h' hl' hs' => leaf_treeOf_unique hl' hl (hs'.trans hsym.symm)⟩

/-! ### CODEGEN (41_encode.md R130-R134) -/

/-- Settles O30. -/
theorem encodeCodesAreTreePaths : Obligations.EncodeCodesAreTreePaths := by
  intro s t text h sym
  obtain ⟨hpos, hlen, rfl⟩ := h.eq_commitText
  have hretained := retained_commitText hpos hlen s.retire
  rw [codeLenOf_commitText hpos, codeBits_commitText hpos, numSyms_commitText]
  refine ⟨fun hs => ⟨(length_codeOf_pos hpos).2 hs, length_codeOf_le hpos sym, fun hN => codeOf_lone hpos hN hs,
    fun hN => isCode_codeOf hpos (by omega) hs⟩, fun hs => ?_, fun j hj => ?_⟩
  · simp [codeOf_of_not_mem hpos hs, codeEntry, natOfBits]
  · exact hretained.high_bits sym j (by rwa [codeLenOf_commitText hpos])

/-- Settles O31. -/
theorem encodeCodesArePrefixFree : Obligations.EncodeCodesArePrefixFree := by
  intro s t text h
  obtain ⟨hpos, hlen, rfl⟩ := h.eq_commitText
  exact (retained_commitText hpos hlen s.retire).prefix_free

/-! ### PACK (41_encode.md R135, R136) -/

/-- BITBUF after a commit: the bit-string, and zeros to the end of its last word (41_encode.md R135, R136). -/
theorem readBit_commitText {text : List Symbol} (hpos : 0 < text.length) (s : State) {i : Nat}
    (hi : i < 8 * bitWordBytes ((s.commitText text).streamBits text).length) :
    (s.commitText text).mem.readBit i = some (((s.commitText text).streamBits text).getD i false) := by
  rw [streamBits_commitText hpos] at hi ⊢
  exact readBit_store_packBits s.mem _ i hi

/-- Settles O32. -/
theorem encodePacksTheBitString : Obligations.EncodePacksTheBitString := by
  intro s t text h
  obtain ⟨hpos, -, rfl⟩ := h.eq_commitText
  refine ⟨fun i hi => ?_, fun i hge hi => ?_, sameOutside_commitText hpos s.retire⟩
  · rw [readBit_commitText hpos _ (hi.trans_le (bitWordBytes_ge _)), List.getD_eq_getElem _ _ hi]
  · rw [readBit_commitText hpos _ hi, List.getD_eq_default _ _ hge]

/-- The bytes of a commit's BITBUF words are the packed bit-string's, whatever the state held (41_encode.md R136). -/
theorem read_commitText {text : List Symbol} (hpos : 0 < text.length) (s₁ s₂ : State) {a : Nat} (hge : bitBase ≤ a)
    (hlt : a < bitBase + bitWordBytes ((s₁.commitText text).streamBits text).length) :
    (s₁.commitText text).mem.read a = (s₂.commitText text).mem.read a := by
  rw [streamBits_commitText hpos, ← length_packBits] at hlt
  rw [State.commitText_mem, State.commitText_mem, Memory.read_store, Memory.read_store, if_pos ⟨hge, hlt⟩,
    if_pos ⟨hge, hlt⟩]

/-! ### The size statistics (41_encode.md R137, R138) -/

/-- Settles O33. -/
theorem encodeAccountsForSizes : Obligations.EncodeAccountsForSizes := by
  intro s t
  refine ⟨fun text h => ?_, fun hp h => ?_⟩
  · obtain ⟨hpos, hlen, rfl⟩ := h.eq_commitText
    have horig := origBits_commitText hlen s.retire
    have hratio := (sizeInv_commitText hpos hlen s.retire).ratio
    rw [if_neg (by omega)] at hratio
    rw [streamBits_commitText hpos, hratio, Nat.mul_assoc]
    exact ⟨horig, compBits_commitText hpos hlen s.retire, rfl⟩
  · obtain rfl := Host.Outcome.next.inj (h.symm.trans (complete_of_encode_zero hp))
    exact ⟨rfl, rfl, rfl⟩

/-! ### The commit (41_encode.md R117-R119, R140) -/

/-- Settles O34. The other value of KEEP_TREE_ON_EMPTY clears the tables all the same. -/
theorem emptyEncodeClears : Obligations.EmptyEncodeClears := by
  refine fun s => ⟨fun hp => ⟨_, complete_of_encode_zero hp, rfl, ?_⟩, s.emptyCommit true, rfl, rfl, ?_⟩
  · exact cleared_of_zero rfl rfl rfl rfl ⟨rfl, rfl, rfl⟩ ⟨rfl, rfl, rfl⟩
  · exact (cleared_emptyCommit s).tables

/-- Settles O35: everything committed is a function of the text. -/
theorem encodeDependsOnTheTextAlone : Obligations.EncodeDependsOnTheTextAlone := by
  intro s₁ s₂ t₁ t₂ text h₁ h₂
  obtain ⟨hpos, -, rfl⟩ := h₁.eq_commitText
  obtain ⟨-, -, rfl⟩ := h₂.eq_commitText
  exact ⟨rfl, rfl, rfl, rfl, rfl, rfl, rfl, rfl, rfl, rfl, rfl, fun a => read_commitText hpos s₁.retire s₂.retire⟩

end Sys2Proof.Machine
end

section
/-! PROOFS. The walk over bits that are known: the codes of symbols, the path after them, and how the walk ends
(42_decode.md R149-R155). -/

namespace Sys2Proof.Machine

/-! ### Known bits -/

/-- The bits stand in BITBUF from `BIT[i]` on. -/
def BitsFrom (m : Memory) : Nat → List Bool → Prop
  | _, [] => True
  | i, b :: bits => m.readBit i = some b ∧ BitsFrom m (i + 1) bits

theorem bitsFrom_of_readBit {m : Memory} {i : Nat} {bits : List Bool}
    (h : ∀ j, (hj : j < bits.length) → m.readBit (i + j) = some bits[j]) : BitsFrom m i bits := by
  induction bits generalizing i with
  | nil => trivial
  | cons b bits ih =>
    refine ⟨h 0 (by simp), ih fun j hj => ?_⟩
    rw [Nat.add_assoc, Nat.add_comm 1 j]
    exact h (j + 1) (by simpa using hj)

/-- A bit-string at the start of BITBUF stands from `BIT[0]` on. -/
theorem BitsAt.bitsFrom {m : Memory} {bits : List Bool} (h : BitsAt m bits) : BitsFrom m 0 bits :=
  bitsFrom_of_readBit fun j hj => by rw [Nat.zero_add]; exact h j hj

theorem bitsFrom_append {m : Memory} {i : Nat} {p q : List Bool} :
    BitsFrom m i (p ++ q) ↔ BitsFrom m i p ∧ BitsFrom m (i + p.length) q := by
  induction p generalizing i with
  | nil => simp [BitsFrom]
  | cons b p ih =>
    rw [List.cons_append, BitsFrom, BitsFrom, ih, and_assoc, List.length_cons, Nat.add_assoc, Nat.add_comm 1]

/-! ### One bit (42_decode.md R149-R154) -/

section Bit

variable {t : Tree} {root cur : Handle} {n : Nat} {b : Bool}

/-- From an internal node to an internal child: the walker moves. -/
theorem walkBit_moves (hc : (t.node cur).leaf = false) (hg : (t.node (t.child cur b)).leaf = false) :
    walkBit t root cur n b = .ok (t.child cur b, none) := by
  simp [walkBit, hc, hg]

/-- From an internal node to a leaf: its symbol is complete, and is written or does not fit. -/
theorem walkBit_reaches_leaf (hc : (t.node cur).leaf = false) (hg : (t.node (t.child cur b)).leaf = true) :
    walkBit t root cur n b = if n = Config.decOutCap then .error .decOverflow
      else .ok (root, some (t.node (t.child cur b)).sym) := by
  simp [walkBit, hc, hg]

/-- At a leaf, bit 0 completes its symbol. -/
theorem walkBit_leaf_zero (hc : (t.node cur).leaf = true) :
    walkBit t root cur n false = if n = Config.decOutCap then .error .decOverflow
      else .ok (cur, some (t.node cur).sym) := by
  simp [walkBit, hc]

/-- At a leaf, bit 1 would lead to an absent child. -/
theorem walkBit_leaf_one (hc : (t.node cur).leaf = true) : walkBit t root cur n true = .error .decAbsentChild := by
  simp [walkBit, hc]

end Bit

/-! ### One turn of the walk's loop -/

section Turn

variable {t : Tree} {root cur cur' : Handle} {m : Memory} {k i n : Nat} {b : Bool} (hb : m.readBit i = some b)

include hb

theorem walk_of_moves (hw : walkBit t root cur n b = .ok (cur', none)) :
    walk t root m (k + 1) i cur n = walk t root m k (i + 1) cur' n := by
  simp only [walk, hb, hw]

theorem walk_of_emits {sym : Symbol} {r : WalkEnd} (hw : walkBit t root cur n b = .ok (cur', some sym))
    (hr : walk t root m k (i + 1) cur' (n + 1) = .ok r) : walk t root m (k + 1) i cur n = .ok (r.cons sym) := by
  simp only [walk, hb, hw, hr]

theorem walk_of_faults {c : ErrorCode} (hw : walkBit t root cur n b = .error c) :
    walk t root m (k + 1) i cur n = .ok ⟨[], some (c, i)⟩ := by
  simp only [walk, hb, hw]

end Turn

/-! ### The bits of one symbol -/

/-- From node `cur` the bits move the walker until the last of them completes `sym`, which is written if it fits; the
walker is then at the root again. -/
inductive Spells (t : Tree) (root : Handle) : Handle → List Bool → Symbol → Prop where
  | last {cur : Handle} {b : Bool} {sym : Symbol}
      (h : ∀ n, walkBit t root cur n b
        = if n = Config.decOutCap then .error .decOverflow else .ok (root, some sym)) : Spells t root cur [b] sym
  | move {cur cur' : Handle} {b : Bool} {bits : List Bool} {sym : Symbol}
      (h : ∀ n, walkBit t root cur n b = .ok (cur', none)) (hs : Spells t root cur' bits sym) :
      Spells t root cur (b :: bits) sym

/-- A path from an internal node to a leaf spells the leaf's symbol (42_decode.md R150, R151). -/
theorem spells_of_reaches {t : Tree} {root cur g : Handle} {p : List Bool} (hp : Reaches t cur p g)
    (hc : (t.node cur).leaf = false) (hg : (t.node g).leaf = true) : Spells t root cur p (t.node g).sym := by
  induction p generalizing cur with
  | nil =>
    obtain rfl : cur = g := hp
    exact nomatch hc.symm.trans hg
  | cons b p ih =>
    obtain ⟨-, hp⟩ := hp
    cases hl : (t.node (t.child cur b)).leaf with
    | false => exact .move (fun _ => walkBit_moves hc hl) (ih hp hl)
    | true =>
      obtain ⟨rfl, rfl⟩ := reaches_of_leaf hl hp
      exact .last fun _ => walkBit_reaches_leaf hc hl

/-- At an internal root a code spells its symbol. -/
theorem IsCode.spells {t : Tree} {root : Handle} {p : List Bool} {sym : Symbol} (h : IsCode t root p sym)
    (hroot : (t.node root).leaf = false) : Spells t root root p sym := by
  obtain ⟨g, hp, hg, rfl⟩ := h
  exact spells_of_reaches hp hroot hg

/-- At a root that is a leaf the bit 0 spells its symbol (42_decode.md R152). -/
theorem spells_of_leaf_root {t : Tree} {root : Handle} (hroot : (t.node root).leaf = true) :
    Spells t root root [false] (t.node root).sym :=
  .last fun _ => walkBit_leaf_zero hroot

/-- A list related to one with a last element has a last element itself, and the two are related. -/
theorem forall₂_concat {α β : Type} {R : α → β → Prop} {l : List α} {l' : List β} {b : β}
    (h : List.Forall₂ R l (l' ++ [b])) : ∃ k a, l = k ++ [a] ∧ List.Forall₂ R k l' ∧ R a b := by
  obtain ⟨a, _, hab, hnil, hdrop⟩ := List.forall₂_cons_right_iff.1 (List.forall₂_drop_append l l' [b] h)
  rw [List.forall₂_nil_right_iff.1 hnil] at hdrop
  exact ⟨_, a, by rw [← hdrop, List.take_append_drop], List.forall₂_take_append l l' [b] h, hab⟩

section Symbols

variable {t : Tree} {root : Handle} {m : Memory}

/-- The bits of one symbol, where it fits, write it and lead back to the root. -/
theorem Spells.walk_eq {cur : Handle} {p : List Bool} {sym : Symbol} (hs : Spells t root cur p sym) {k i n : Nat}
    {r : WalkEnd} (hb : BitsFrom m i p) (hn : n ≠ Config.decOutCap)
    (hr : walk t root m k (i + p.length) root (n + 1) = .ok r) :
    walk t root m (p.length + k) i cur n = .ok (r.cons sym) := by
  induction hs generalizing i with
  | last h =>
    rw [List.length_singleton, Nat.add_comm]
    exact walk_of_emits hb.1 ((h n).trans (if_neg hn)) hr
  | move h hs ih =>
    rw [List.length_cons, Nat.add_right_comm, walk_of_moves hb.1 (h n)]
    exact ih hb.2 (by rwa [List.length_cons, Nat.add_comm _ 1, ← Nat.add_assoc] at hr)

/-- The bits of a symbol that does not fit stop the walk at the last of them (42_decode.md R154). -/
theorem Spells.walk_overflow {cur : Handle} {p : List Bool} {sym : Symbol} (hs : Spells t root cur p sym) {k i : Nat}
    (hb : BitsFrom m i p) :
    walk t root m (p.length + k) i cur Config.decOutCap = .ok ⟨[], some (.decOverflow, i + p.length - 1)⟩ := by
  induction hs generalizing i with
  | last h =>
    rw [List.length_singleton, Nat.add_comm]
    exact walk_of_faults hb.1 ((h _).trans (if_pos rfl))
  | move h hs ih =>
    rw [List.length_cons, Nat.add_right_comm, walk_of_moves hb.1 (h _), ih hb.2, Nat.add_right_comm i, Nat.add_assoc i]

/-- The bits of symbols that fit write them in order (42_decode.md R151). -/
theorem walk_of_spells {codes : List (List Bool)} {syms : List Symbol}
    (hs : List.Forall₂ (Spells t root root) codes syms) {k i n : Nat} {r : WalkEnd} (hb : BitsFrom m i codes.flatten)
    (hn : n + syms.length ≤ Config.decOutCap)
    (hr : walk t root m k (i + codes.flatten.length) root (n + syms.length) = .ok r) :
    walk t root m (codes.flatten.length + k) i root n = .ok ⟨syms ++ r.out, r.fault⟩ := by
  induction hs generalizing i n with
  | nil => simpa using hr
  | @cons p sym codes syms hp _ ih =>
    rw [List.flatten_cons, bitsFrom_append] at hb
    rw [List.length_cons] at hn
    rw [List.flatten_cons, List.length_append, List.length_cons, ← Nat.add_assoc, Nat.add_comm syms.length,
      ← Nat.add_assoc] at hr
    rw [List.flatten_cons, List.length_append, Nat.add_assoc]
    exact hp.walk_eq hb.1 (by omega) (ih hb.2 (by omega) hr)

/-- The bits of 65537 symbols stop the walk at the last of them, with all but the last symbol written
(42_decode.md R154). -/
theorem walk_of_spells_overflow {codes : List (List Bool)} {syms : List Symbol}
    (hs : List.Forall₂ (Spells t root root) codes syms) (hlen : syms.length = Config.decOutCap + 1) {k : Nat}
    (hb : BitsFrom m 0 codes.flatten) :
    walk t root m (codes.flatten.length + k) 0 root 0
      = .ok ⟨syms.take Config.decOutCap, some (.decOverflow, codes.flatten.length - 1)⟩ := by
  obtain rfl | ⟨init, sym, rfl⟩ := syms.eq_nil_or_concat'
  · exact nomatch hlen
  obtain ⟨codes, p, rfl, hinit, hp⟩ := forall₂_concat hs
  replace hlen : init.length = Config.decOutCap := by simpa using hlen
  have hflat : (codes ++ [p]).flatten = codes.flatten ++ p := by simp
  rw [hflat, bitsFrom_append] at hb
  have hlast := hp.walk_overflow (k := k) hb.2
  rw [← hlen, ← Nat.zero_add init.length] at hlast
  rw [hflat, List.length_append, Nat.add_assoc, walk_of_spells hinit hb.1 (by omega) hlast, ← hlen, List.take_left,
    List.append_nil, Nat.zero_add]

/-! ### The end of the bits (42_decode.md R155) -/

/-- A path to an internal node writes nothing; the walk ends there, cleanly at the root alone. -/
theorem walk_of_tail {cur g : Handle} {p : List Bool} (hp : Reaches t cur p g) (hg : (t.node g).leaf = false)
    {i n : Nat} (hb : BitsFrom m i p) :
    walk t root m p.length i cur n = .ok ⟨[], if g = root then none else some (.decPartial, i + p.length)⟩ := by
  induction p generalizing cur i with
  | nil =>
    obtain rfl : cur = g := hp
    rfl
  | cons b p ih =>
    obtain ⟨hc, hp⟩ := hp
    have hchild : (t.node (t.child cur b)).leaf = false := by
      by_contra hl
      rw [Bool.not_eq_false] at hl
      obtain ⟨-, rfl⟩ := reaches_of_leaf hl hp
      exact nomatch hg.symm.trans hl
    rw [List.length_cons, walk_of_moves hb.1 (walkBit_moves hc hchild), ih hp hb.2, Nat.add_assoc, Nat.add_comm 1]

end Symbols

end Sys2Proof.Machine
end

section
/-! PROOFS. What DECODE's completion answers, and the run of a DECODE from issue to result (42_decode.md R145-R158). -/

namespace Sys2Proof.Machine

/-! ### DECODE's completion -/

/-- Settles O36. -/
theorem decodeOfNothingIsEmpty : Obligations.DecodeOfNothingIsEmpty := fun _ bits hp hc =>
  (CompletionEffect.nothing bits hp hc).complete_eq

/-- A DECODE's completion answers in one of two ways: it has nothing to decode, or it walks the tree. -/
theorem complete_decode_cases {s t : State} {bits : BitVec 20} (hp : s.pend = some (.decode bits))
    (h : complete s = .next t) :
    ((s.ready = false ∨ bits = 0) ∧ t = (s.setOutLen 0).retire)
      ∨ ∃ r, s.ready = true ∧ bits ≠ 0 ∧ walk s.tree s.root s.mem bits.toNat 0 s.root 0 = .ok r
          ∧ t = (s.endWalk r).retire := by
  cases complete_effect h with
  | idle hp' => exact nomatch hp.symm.trans hp'
  | emptied hp' => exact nomatch hp.symm.trans hp'
  | encoded len text hp' _ _ _ => exact nomatch hp.symm.trans hp'
  | nothing bits' hp' hc =>
    obtain rfl : bits = bits' := by simpa using hp.symm.trans hp'
    exact .inl ⟨hc, rfl⟩
  | walked bits' r hp' hr hbits hw =>
    obtain rfl : bits = bits' := by simpa using hp.symm.trans hp'
    exact .inr ⟨r, hr, hbits, hw, rfl⟩

/-- An output of no symbols is no change (42_decode.md R147). -/
theorem decoded_setOutLen_zero (s : State) : Decoded s (s.setOutLen 0).retire [] :=
  ⟨rfl, fun _ hk => absurd hk (Nat.not_lt_zero _), fun _ _ hk => absurd hk (Nat.not_lt_zero _), fun _ _ => rfl⟩

/-- The output words after a walk hold its symbols and their pad, whatever the state held (42_decode.md R157). -/
theorem read_endWalk (s : State) (r : WalkEnd) {k : Nat} (hk : k < wordBytes r.out.length) :
    (s.endWalk r).retire.mem.read (symOutBase + k) = some ((padSymbols r.out)[k]'(length_padSymbols r.out ▸ hk)) := by
  rw [State.retire_mem, State.endWalk_mem, Memory.read_store_inside]

/-- The end of a walk writes its symbols and their pad (42_decode.md R157). -/
theorem decoded_endWalk (s : State) {r : WalkEnd} (hcap : r.out.length ≤ Config.decOutCap) :
    Decoded s (s.endWalk r).retire r.out := by
  rw [Config.decOutCap] at hcap
  refine ⟨?count, fun k hk => ?symbol, fun k hge hk => ?pad, fun a ha => ?outside⟩
  case count =>
    rw [State.retire_outLen, State.endWalk_outLen, BitVec.toNat_ofNat]
    omega
  case symbol =>
    rw [read_endWalk s r (hk.trans_le (wordBytes_ge _))]
    simp only [padSymbols, List.getElem_append_left hk]
  case pad =>
    rw [read_endWalk s r hk]
    simp only [padSymbols, List.getElem_append_right hge, List.getElem_replicate]
  case outside =>
    rw [← length_padSymbols] at ha
    rw [State.retire_mem, State.endWalk_mem, Memory.read_store_outside _ _ _ _ ha]

/-- A DECODE whose walk ends writes what the walk wrote, and changes nothing else but the error report. With B = 0 too:
such a walk ends at once. -/
theorem complete_of_walk {s : State} {bits : BitVec 20} {r : WalkEnd} (hp : s.pend = some (.decode bits))
    (hr : s.ready = true) (hw : walk s.tree s.root s.mem bits.toNat 0 s.root 0 = .ok r) :
    ∃ t, complete s = .next t ∧ Decoded s t r.out
      ∧ t = { s.endWalk r with pend := none, outLen := t.outLen, mem := t.mem } := by
  by_cases hbits : bits = 0
  · subst hbits
    obtain rfl : (⟨[], none⟩ : WalkEnd) = r := by simpa [walk] using hw
    exact ⟨_, (CompletionEffect.nothing 0 hp (.inr rfl)).complete_eq, decoded_setOutLen_zero s, rfl⟩
  · have hcap := (walk_ok hw (Nat.zero_le _)).1
    exact ⟨_, (CompletionEffect.walked bits r hp hr hbits hw).complete_eq, decoded_endWalk s (by omega), rfl⟩

/-- What a DECODE's completion can report: nothing new, or a DECODE fault (42_decode.md R153-R156). -/
theorem endWalk_report_of_walk {s : State} {k : Nat} {r : WalkEnd}
    (hw : walk s.tree s.root s.mem k 0 s.root 0 = .ok r) :
    SameReport s (s.endWalk r)
      ∨ ((s.endWalk r).err = true ∧ ((s.endWalk r).errCode = .decAbsentChild ∨ (s.endWalk r).errCode = .decPartial
        ∨ (s.endWalk r).errCode = .decOverflow)) := by
  rcases s.endWalk_report r with ⟨-, hsame⟩ | ⟨c, pos, hf, he, hc, -⟩
  · exact .inl hsame
  · obtain ⟨-, -, h | h | h⟩ := (walk_ok hw (Nat.zero_le _)).2 c pos hf <;> simp [he, hc, h]

/-- Settles O40. -/
theorem decodeTouchesOnlyItsOutput : Obligations.DecodeTouchesOnlyItsOutput := by
  intro s t bits hp h
  have frame {out : List Symbol} (hd : Decoded s t out) : SameOutside s.mem t.mem symOutBase (wordBytes t.outLen.toNat)
      ∧ ∀ k, t.outLen.toNat ≤ k → k < wordBytes t.outLen.toNat → t.mem.read (symOutBase + k) = some 0 := by
    obtain ⟨hlen, -, hpad, hout⟩ := hd
    rw [hlen]
    exact ⟨hout, hpad⟩
  rcases complete_decode_cases hp h with ⟨-, rfl⟩ | ⟨r, -, -, hw, rfl⟩
  · obtain ⟨hout, hpad⟩ := frame (decoded_setOutLen_zero s)
    exact ⟨rfl, hout, hpad, .inl ⟨rfl, rfl, rfl⟩⟩
  · have hcap := (walk_ok hw (Nat.zero_le _)).1
    obtain ⟨hout, hpad⟩ := frame (decoded_endWalk s (by omega))
    refine ⟨?_, hout, hpad, endWalk_report_of_walk hw⟩
    simp only [State.endWalk]
    split <;> rfl

/-- After the same walk the error reports are the same, if they were before it. -/
theorem SameReport.endWalk {s t : State} (h : SameReport s t) (r : WalkEnd) :
    SameReport (s.endWalk r) (t.endWalk r) := by
  rw [State.endWalk, State.endWalk]
  split
  · exact h
  · exact ⟨rfl, rfl, rfl⟩

/-- Settles O41: the second walk reads the bits that the first one read, so it ends alike. -/
theorem decodeDependsOnTreeAndBitsAlone : Obligations.DecodeDependsOnTreeAndBitsAlone := by
  intro s₁ s₂ t₁ bits hp₁ hp₂ hready htree hroot herr hcode hpos hbits h
  rcases complete_decode_cases hp₁ h with ⟨hc, rfl⟩ | ⟨r, hr, hne, hw, rfl⟩
  · refine ⟨_, (CompletionEffect.nothing bits hp₂ (hready ▸ hc)).complete_eq, rfl, herr.symm, hcode.symm, hpos.symm,
      fun hr hne => ?_⟩
    rcases hc with hc | hc
    · exact nomatch hr.symm.trans hc
    · exact absurd hc hne
  · rw [walk_congr fun j _ hj => hbits j (by omega), htree, hroot] at hw
    have hcap := (walk_ok hw (Nat.zero_le _)).1
    obtain ⟨he, hc, hp⟩ := SameReport.endWalk (s := s₁) (t := s₂) ⟨herr.symm, hcode.symm, hpos.symm⟩ r
    obtain ⟨hlen, -⟩ := decoded_endWalk s₁ (r := r) (by omega)
    refine ⟨_, (CompletionEffect.walked bits r hp₂ (hready ▸ hr) hne hw).complete_eq, ?_, he, hc, hp,
      fun _ _ k hk => ?_⟩
    · rw [State.retire_outLen, State.retire_outLen, State.endWalk_outLen, State.endWalk_outLen]
    · rw [hlen] at hk
      rw [read_endWalk s₁ r hk, read_endWalk s₂ r hk]

/-! ### DECODE from issue to result -/

/-- An idle HCB accepts DECODE, and when the walk ends the completion step writes its symbols and reports its fault, if
any; DROP is cleared (40_command.md R104; 42_decode.md R149, R156-R158). -/
theorem decode_of_walk {s : State} {r : WalkEnd} (hb : s.busy = false) (hr : s.ready = true)
    (hl : s.inBits.toNat ≤ 524288) (hw : walk s.tree s.root s.mem s.inBits.toNat 0 s.root 0 = .ok r) :
    ∃ u t, exec .decode s = .next u ∧ complete u = .next t ∧ Decoded s t r.out
      ∧ t = { s with
          err := r.fault.isSome, errCode := (r.fault.map Prod.fst).getD .none,
          errPos := BitVec.ofNat 20 ((r.fault.map Prod.snd).getD 0), drop := false,
          outLen := t.outLen, mem := t.mem } := by
  have hbits : (BitVec.ofNat 20 s.inBits.toNat).toNat = s.inBits.toNat := by rw [BitVec.toNat_ofNat]; omega
  obtain ⟨t, hcomplete, hd, ht⟩ := complete_of_walk (s := s.accept (.decode (BitVec.ofNat 20 s.inBits.toNat))) rfl hr
    (hbits.symm ▸ hw)
  refine ⟨_, t, exec_decode_accepted hb hl, hcomplete, hd, ht.trans ?_⟩
  rw [← s.busy_eq_false.1 hb]
  obtain ⟨out, _ | ⟨c, pos⟩⟩ := r <;> rfl

/-- Settles O37: the codes write their symbols, the path after them writes nothing, and the walker stops where it
leads. -/
theorem decodeFollowsTheTree : Obligations.DecodeFollowsTheTree := by
  intro s codes syms tail g hb hr hroot hcodes htail hg hcap hlen hl hbits
  obtain ⟨hbcodes, hbtail⟩ := bitsFrom_append.1 hbits.bitsFrom
  have hw := walk_of_spells (hcodes.imp fun _ _ hc => hc.spells hroot) hbcodes (by rwa [Nat.zero_add])
    (walk_of_tail htail hg hbtail)
  rw [Nat.zero_add, ← List.length_append, hlen, List.append_nil] at hw
  obtain ⟨u, t, hu, ht, hd, he⟩ := decode_of_walk hb hr hl hw
  refine ⟨u, t, hu, ht, hd, he.trans ?_⟩
  by_cases hgr : g = s.root <;> simp [hgr]

/-- At a root that is a leaf each bit 0 spells the root's symbol (42_decode.md R152). -/
theorem forall₂_spells_of_leaf_root {t : Tree} {root : Handle} (hroot : (t.node root).leaf = true) (n : Nat) :
    List.Forall₂ (Spells t root root) (List.replicate n [false]) (List.replicate n (t.node root).sym) := by
  induction n with
  | zero => exact .nil
  | succ n ih => exact .cons (spells_of_leaf_root hroot) ih

/-- At a root that is a leaf, zero bits that fit write the root's symbol each, and the walk goes on at the root. -/
theorem walk_of_leaf_root {t : Tree} {root : Handle} {m : Memory} {k n : Nat} {e : Option (ErrorCode × Nat)}
    (hroot : (t.node root).leaf = true) (hn : n ≤ Config.decOutCap) (hb : BitsFrom m 0 (List.replicate n false))
    (hr : walk t root m k n root n = .ok ⟨[], e⟩) :
    walk t root m (n + k) 0 root 0 = .ok ⟨List.replicate n (t.node root).sym, e⟩ := by
  have hflat : (List.replicate n [false]).flatten = List.replicate n false := List.flatten_replicate_singleton
  have := walk_of_spells (forall₂_spells_of_leaf_root hroot n) (k := k) (i := 0) (n := 0) (r := ⟨[], e⟩) (hflat ▸ hb)
    (by simpa using hn) (by simpa [hflat] using hr)
  simpa [hflat] using this

/-- Settles O38. -/
theorem decodeAtALeafRoot : Obligations.DecodeAtALeafRoot := by
  intro s n hb hr hroot hl hn
  refine ⟨fun hlen hbits => ?_, fun hlt hbits => ?_⟩
  · have hw := walk_of_leaf_root (k := 0) (e := none) hroot hn hbits.bitsFrom (by simp [walk])
    exact decode_of_walk hb hr hl (by rwa [hlen])
  · obtain ⟨hzeros, hone, -⟩ := bitsFrom_append.1 hbits.bitsFrom
    rw [List.length_replicate, Nat.zero_add] at hone
    obtain ⟨k, hk⟩ := Nat.exists_eq_add_of_lt hlt
    have hw := walk_of_leaf_root (k := k + 1) hroot hn hzeros (walk_of_faults hone (walkBit_leaf_one hroot))
    exact decode_of_walk hb hr hl (by rwa [hk])

/-- DECODE of the bits of 65537 symbols, whatever the bits after them (42_decode.md R154). -/
theorem decode_overflows {s : State} {codes : List (List Bool)} {syms : List Symbol} (hb : s.busy = false)
    (hr : s.ready = true) (hl : s.inBits.toNat ≤ 524288) (hs : List.Forall₂ (Spells s.tree s.root s.root) codes syms)
    (hlen : syms.length = Config.decOutCap + 1) (hle : codes.flatten.length ≤ s.inBits.toNat)
    (hbits : BitsAt s.mem codes.flatten) :
    ∃ u t, exec .decode s = .next u ∧ complete u = .next t ∧ Decoded s t (syms.take Config.decOutCap)
      ∧ t = { s with
          err := true, errCode := .decOverflow, errPos := BitVec.ofNat 20 (codes.flatten.length - 1),
          drop := false, outLen := t.outLen, mem := t.mem } := by
  obtain ⟨k, hk⟩ := Nat.exists_eq_add_of_le hle
  have hw := walk_of_spells_overflow hs hlen (k := k) hbits.bitsFrom
  exact decode_of_walk hb hr hl (by rwa [hk])

/-- Settles O39. -/
theorem decodeOverflowsAtItsCapacity : Obligations.DecodeOverflowsAtItsCapacity := by
  intro s hb hr hl
  refine ⟨fun codes syms hroot hcodes hlen hle hbits => ?_, fun hroot hle hbits => ?_⟩
  · exact decode_overflows hb hr hl (hcodes.imp fun _ _ hc => hc.spells hroot) hlen hle hbits
  · have hflat : (List.replicate 65537 [false]).flatten = List.replicate 65537 false :=
      List.flatten_replicate_singleton
    have := decode_overflows hb hr hl (forall₂_spells_of_leaf_root hroot 65537) List.length_replicate
      (by rwa [hflat, List.length_replicate]) (by rwa [hflat])
    rw [hflat, List.length_replicate, List.take_replicate] at this
    exact this

end Sys2Proof.Machine
end

section
/-! PROOFS. DECODE over the trees that ENCODE makes: no absent child with two symbols or more, and the round trip
(42_decode.md R159, R160). -/

namespace Sys2Proof.Machine

/-! ### An internal root (42_decode.md R160) -/

/-- From an internal node on, every bit sequence completes the code begun on the way there, and is then a list of codes
followed by at most an incomplete one, as long as the root is internal. -/
theorem exists_codes_of_internal {t : Tree} {root : Handle} (hroot : (t.node root).leaf = false) (bits : List Bool)
    {p : List Bool} {cur : Handle} (hp : Reaches t root p cur) (hc : (t.node cur).leaf = false) :
    ∃ (codes : List (List Bool)) (syms : List Symbol) (tail : List Bool) (g : Handle),
      p ++ bits = codes.flatten ++ tail ∧ List.Forall₂ (IsCode t root) codes syms ∧ Reaches t root tail g
        ∧ (t.node g).leaf = false := by
  induction bits generalizing p cur with
  | nil => exact ⟨[], [], p, cur, by simp, .nil, hp, hc⟩
  | cons b bits ih =>
    have hnext : Reaches t root (p ++ [b]) (t.child cur b) := reaches_append.2 ⟨cur, hp, hc, rfl⟩
    cases hl : (t.node (t.child cur b)).leaf with
    | false =>
      obtain ⟨codes, syms, tail, g, heq, hrest⟩ := ih hnext hl
      exact ⟨codes, syms, tail, g, by rw [← heq, List.append_assoc, List.singleton_append], hrest⟩
    | true =>
      obtain ⟨codes, syms, tail, g, heq, hcodes, hrest⟩ := ih (p := []) (cur := root) rfl hroot
      refine ⟨(p ++ [b]) :: codes, _ :: syms, tail, g, ?_, .cons ⟨_, hnext, hl, rfl⟩ hcodes, hrest⟩
      rw [List.flatten_cons, List.append_assoc, ← heq, List.nil_append, List.append_assoc, List.singleton_append]

/-- From an internal node a bit leads to an internal node, or through a leaf to the root (42_decode.md R150, R151). -/
theorem walkBit_keeps_internal {t : Tree} {root cur cur' : Handle} {n : Nat} {b : Bool} {e : Option Symbol}
    (hroot : (t.node root).leaf = false) (hc : (t.node cur).leaf = false)
    (h : walkBit t root cur n b = .ok (cur', e)) : (t.node cur').leaf = false := by
  cases hl : (t.node (t.child cur b)).leaf with
  | false =>
    rw [walkBit_moves hc hl] at h
    obtain ⟨rfl, -⟩ : t.child cur b = cur' ∧ none = e := by simpa using h
    exact hl
  | true =>
    rw [walkBit_reaches_leaf hc hl] at h
    split at h
    · exact nomatch h
    · obtain ⟨rfl, -⟩ : root = cur' ∧ some _ = e := by simpa using h
      exact hroot

@[simp] theorem WalkEnd.cons_fault (sym : Symbol) (r : WalkEnd) : (r.cons sym).fault = r.fault := rfl

/-- A walk over a tree with an internal root meets no absent child (42_decode.md R160). -/
theorem walk_no_absent_child {t : Tree} {root : Handle} (hroot : (t.node root).leaf = false) {m : Memory}
    {k i n : Nat} {cur : Handle} {r : WalkEnd} (hc : (t.node cur).leaf = false)
    (h : walk t root m k i cur n = .ok r) (pos : Nat) : r.fault ≠ some (.decAbsentChild, pos) := by
  induction k generalizing i cur n r with
  | zero =>
    obtain rfl := Except.ok.inj h
    dsimp only
    split <;> simp
  | succ k ih =>
    rw [walk] at h
    split at h
    · exact nomatch h
    · split at h
      · rename_i c hw
        obtain rfl := Except.ok.inj h
        rcases walkBit_error hw with ⟨-, hleaf, -⟩ | ⟨rfl, -⟩
        · exact nomatch hc.symm.trans hleaf
        · simp
      · rename_i hw
        exact ih (walkBit_keeps_internal hroot hc hw) h
      · rename_i hw
        split at h
        · exact nomatch h
        · rename_i hr
          obtain rfl := Except.ok.inj h
          rw [WalkEnd.cons_fault]
          exact ih (walkBit_keeps_internal hroot hc hw) hr

/-- A strict tree of more than one node has an internal root: the node made before the root is a child, and only the
root comes after it. -/
theorem StrictTree.root_internal {t : Tree} {root : Handle} {n : Nat} (hs : StrictTree t root n) (hn : n ≤ 512)
    (hn' : 2 ≤ n) : (t.node root).leaf = false := by
  have hroot := hs.root_last hn
  have hnat : (BitVec.ofNat 9 (n - 2)).toNat = n - 2 := by rw [BitVec.toNat_ofNat, Nat.mod_eq_of_lt (by omega)]
  obtain ⟨h, ⟨hh, hleaf, hchild⟩, -⟩ := hs.one_parent (BitVec.ofNat 9 (n - 2)) (by omega) (by rintro rfl; omega)
  obtain ⟨hl, hr, -, -⟩ := hs.internal h hh hleaf
  have hlt : n - 2 < h.toNat := by
    rcases hchild with hc | hc
    · rwa [hc, hnat] at hl
    · rwa [hc, hnat] at hr
  obtain rfl : h = root := BitVec.eq_of_toNat_eq (by omega)
  exact hleaf

/-- Settles O42. -/
theorem twoSymbolTreesHaveNoAbsentChild : Obligations.TwoSymbolTreesHaveNoAbsentChild := by
  intro s hs hN
  have hcounts := hs.counts.2
  have hroot : (s.tree.node s.root).leaf = false :=
    hs.tree.root_internal (Nat.le_of_lt s.nodeCount.isLt) (by omega)
  refine ⟨fun bits => exists_codes_of_internal hroot bits (p := []) rfl hroot, fun t bits hp h => ?_⟩
  rcases complete_decode_cases hp h with ⟨-, rfl⟩ | ⟨r, -, -, hw, rfl⟩
  · exact .inl rfl
  · rcases s.endWalk_report r with ⟨-, -, hc, -⟩ | ⟨c, pos, hf, -, hc, -⟩
    · exact .inl hc
    · obtain ⟨-, -, rfl | rfl | rfl⟩ := (walk_ok hw (Nat.zero_le _)).2 c pos hf
      · exact absurd hf (walk_no_absent_child hroot hroot hw pos)
      · exact .inr (.inr hc)
      · exact .inr (.inl hc)

/-! ### The round trip (42_decode.md R159) -/

/-- A lone symbol's leaf is the root (41_encode.md R126). -/
theorem root_treeOf_lone {text : List Symbol} (hlen : text.length < 2 ^ 16) (hN : numSymsOf text = 1) {sym : Symbol}
    (hs : sym ∈ text) :
    ((treeOf text).node (rootOf text)).leaf = true ∧ ((treeOf text).node (rootOf text)).sym = sym := by
  have hroot := (strictTree_treeOf (List.length_pos_of_mem hs) hlen).root_node.1
  obtain ⟨h, hleaf, hsym⟩ := exists_leaf_treeOf hs
  have hlt := leaf_treeOf_iff.1 hleaf
  obtain rfl : h = rootOf text := BitVec.eq_of_toNat_eq (by omega)
  exact ⟨hleaf, hsym⟩

/-- The code that ENCODE gives a symbol spells it: a path of the tree, or "0" for a lone symbol. -/
theorem spells_codeOf {text : List Symbol} (hlen : text.length < 2 ^ 16) {sym : Symbol} (hs : sym ∈ text) :
    Spells (treeOf text) (rootOf text) (rootOf text) (codeOf (codesOf text) sym) sym := by
  have hpos := List.length_pos_of_mem hs
  by_cases hN : numSymsOf text = 1
  · obtain ⟨hleaf, hsym⟩ := root_treeOf_lone hlen hN hs
    rw [codeOf_lone hpos hN hs, ← hsym]
    exact spells_of_leaf_root hleaf
  · exact (isCode_codeOf hpos hN hs).spells (root_treeOf_internal hpos hN)

/-- A walk over the packed bits of a text, wherever they stand, writes the text and ends at the root. -/
theorem walk_streamOf {text : List Symbol} (hlen : text.length < 2 ^ 16) {m : Memory}
    (hb : BitsAt m (streamOf (codesOf text) text)) :
    walk (treeOf text) (rootOf text) m (streamOf (codesOf text) text).length 0 (rootOf text) 0 = .ok ⟨text, none⟩ := by
  have hs : List.Forall₂ (Spells (treeOf text) (rootOf text) (rootOf text)) (text.map (codeOf (codesOf text))) text :=
    List.forall₂_map_left_iff.2 (List.forall₂_same.2 fun _ => spells_codeOf hlen)
  have hflat : (text.map (codeOf (codesOf text))).flatten = streamOf (codesOf text) text := rfl
  have := walk_of_spells hs (k := 0) (i := 0) (n := 0) (r := ⟨[], none⟩) (hflat ▸ hb.bitsFrom)
    (by rw [Config.decOutCap]; omega) (by simp [walk])
  simpa [hflat] using this

/-- Settles O43. -/
theorem roundTrip : Obligations.RoundTrip := by
  intro s t s' text h htree hroot hready hmem hp
  have hpacked := (encodePacksTheBitString s t text h).1
  obtain ⟨hpos, hlen, rfl⟩ := h.eq_commitText
  have hfits := length_stream_fits hpos (Nat.le_of_lt_succ hlen)
  rw [streamBits_commitText hpos] at hpacked
  have hbits : BitsAt s'.mem (streamOf (codesOf text) text) := fun i hi => by
    rw [readBit_congr (hmem _ (Nat.le_add_right _ _) (by rw [bitAddr, bitBase, symOutBase]; omega)), hpacked i hi]
  have hw := walk_streamOf hlen hbits
  rw [State.commitText_tree] at htree
  rw [State.commitText_root] at hroot
  rw [← compBits_commitText hpos hlen s.retire, ← htree, ← hroot] at hw
  obtain ⟨u, hu, hd, he⟩ := complete_of_walk hp hready hw
  refine ⟨u, hu, hd, ?_⟩
  rw [he]
  exact ⟨rfl, rfl, rfl⟩

end Sys2Proof.Machine
end

section
/-! PROOFS. What the host reaches besides the registers' views: the addresses that hold nothing, the tables, and the
buffers (43_host_access.md R165-R180). -/

namespace Sys2Proof.Machine

/-! ### Reads whose value is drawn, or zero (43_host_access.md R168, R169) -/

/-- A read while BUSY = 1 of an address that does not read exactly answers with a drawn value. -/
theorem exec_busRd_drawn {s : State} {w : WordAddr} {d : Word} (hb : s.busy = true) (hw : exactWhileBusy w = false) :
    exec (.busRd w d) s = .next { s with rdata := Config.busyRead s.draws, draws := s.draws + 1 } := by
  simp [exec, execBusRd, countDraw, hb, hw, State.returnData, State.nextDraw]

/-- Only the addresses below 4 read exactly while BUSY = 1. -/
theorem exec_busRd_busy_of_four_le {s : State} {w : WordAddr} {d : Word} (hb : s.busy = true) (hw : 4 ≤ w.toNat) :
    ∃ t, exec (.busRd w d) s = .next t ∧ t = { s with rdata := t.rdata, draws := t.draws } :=
  ⟨_, exec_busRd_drawn hb (decide_eq_false (Nat.not_lt.2 hw)), rfl⟩

/-- Settles O21: the three registers read exactly, and every address above 3 reads as a draw. -/
theorem readsWhileBusyAnswer : Obligations.ReadsWhileBusyAnswer := fun _ _ hb =>
  ⟨⟨_, exec_busRd_exact hb rfl rfl, rfl⟩, ⟨_, exec_busRd_exact hb rfl rfl, rfl⟩,
    ⟨_, exec_busRd_exact hb rfl rfl, rfl⟩,
    fun _ => exec_busRd_busy_of_four_le hb⟩

theorem view_unmapped {w : WordAddr} (h : target w = .unmapped) (s : State) : view w s = .ok 0 := by
  rw [view, h]

/-- Settles O23: the three ranges are the unmapped addresses, and all are above 3. -/
theorem unmappedReadsReturnZero : Obligations.UnmappedReadsReturnZero := fun s _ _ hw =>
  ⟨fun hb => exec_busRd_idle hb (view_unmapped (target_eq_unmapped.2 hw) s),
    fun hb => exec_busRd_busy_of_four_le hb (by omega)⟩

/-! ### The tables (43_host_access.md R172-R175) -/

theorem target_ofNat {a : Nat} (h : a < 2 ^ 16) : target (BitVec.ofNat 16 a) = targetAt a := by
  rw [target, BitVec.toNat_ofNat, Nat.mod_eq_of_lt h]

theorem target_freq (sym : Symbol) : target (BitVec.ofNat 16 (0x0400 + sym.toNat)) = .freq sym.toNat := by
  rw [target_ofNat (by omega), targetAt, if_neg (by omega), if_pos (by omega), Nat.add_sub_cancel_left]

theorem target_codeLen (sym : Symbol) : target (BitVec.ofNat 16 (0x0500 + sym.toNat)) = .codeLen sym.toNat := by
  rw [target_ofNat (by omega), targetAt, if_neg (by omega), if_neg (by omega), if_pos (by omega),
    Nat.add_sub_cancel_left]

theorem target_code (sym : Symbol) {k : Nat} (hk : k < 8) :
    target (BitVec.ofNat 16 (0x0800 + 8 * sym.toNat + k)) = .code sym.toNat k := by
  have hword : (0x0800 + 8 * sym.toNat + k - 0x0800) / 8 = sym.toNat
      ∧ (0x0800 + 8 * sym.toNat + k - 0x0800) % 8 = k := by omega
  rw [target_ofNat (by omega), targetAt, if_neg (by omega), if_neg (by omega), if_neg (by omega), if_neg (by omega),
    if_pos (by omega), hword.1, hword.2]

theorem target_tree (h : Handle) {k : Nat} (hk : k < 2) :
    target (BitVec.ofNat 16 (0x1000 + 2 * h.toNat + k)) = .tree h.toNat k := by
  have hword : (0x1000 + 2 * h.toNat + k - 0x1000) / 2 = h.toNat
      ∧ (0x1000 + 2 * h.toNat + k - 0x1000) % 2 = k := by omega
  rw [target_ofNat (by omega), targetAt, if_neg (by omega), if_neg (by omega), if_neg (by omega), if_neg (by omega),
    if_neg (by omega), if_pos (by omega), hword.1, hword.2]

section Views

variable (s : State) {w : WordAddr}

theorem view_freq {sym : Symbol} (h : target w = .freq sym.toNat) :
    view w s = .ok (BitVec.ofNat 32 (s.freqOf sym)) := by
  simp only [view, h, State.freqOf, BitVec.ofNat_toNat, Vector.getElem?_eq_getElem sym.isLt, Option.getD_some]

theorem view_codeLen {sym : Symbol} (h : target w = .codeLen sym.toNat) :
    view w s = .ok (BitVec.ofNat 32 (s.codeLenOf sym)) := by
  simp only [view, h, State.codeLenOf, BitVec.ofNat_toNat, Vector.getElem?_eq_getElem sym.isLt, Option.getD_some]

theorem view_code {sym : Symbol} {k : Nat} (h : target w = .code sym.toNat k) :
    view w s = .ok (codeWord (s.code[sym.toNat]'(sym.isLt)) k) := by
  simp only [view, h, Vector.getElem?_eq_getElem sym.isLt, Option.getD_some]

theorem view_tree {h : Handle} {k : Nat} (ht : target w = .tree h.toNat k) :
    view w s = .ok (nodeWord (s.tree.node h) k) := by
  simp only [view, ht, Tree.node, Vector.getElem?_eq_getElem h.isLt, Option.getD_some]

end Views

theorem getLsbD_codeWord (c : BitVec 256) (k : Nat) {j : Nat} (hj : j < 32) :
    (codeWord c k).getLsbD j = c.getLsbD (32 * k + j) := by
  simp [codeWord, hj]

/-- The fields of a node record's first word at their bit positions (43_host_access.md R175). -/
theorem nodeWord_zero (n : NodeRec) :
    nodeWord n 0 = BitVec.ofNat 32 (2 ^ 31 * n.leaf.toNat + 2 ^ 16 * n.sym.toNat + n.freq.toNat) := by
  have h : (nodeWord n 0).toNat = 2 ^ 31 * n.leaf.toNat + 2 ^ 16 * n.sym.toNat + n.freq.toNat := by
    simp only [nodeWord, if_true, toNat_append_eq_add, BitVec.toNat_ofBool, BitVec.toNat_ofNat]
    omega
  rw [← h, BitVec.ofNat_toNat, BitVec.setWidth_eq]

/-- The fields of a node record's second word at their bit positions (43_host_access.md R175). -/
theorem nodeWord_one (n : NodeRec) :
    nodeWord n 1 = BitVec.ofNat 32 (2 ^ 16 * n.right.toNat + n.left.toNat) := by
  have h : (nodeWord n 1).toNat = 2 ^ 16 * n.right.toNat + n.left.toNat := by
    simp only [nodeWord, Nat.one_ne_zero, if_false, toNat_append_eq_add, BitVec.toNat_ofNat]
    omega
  rw [← h, BitVec.ofNat_toNat, BitVec.setWidth_eq]

/-- Settles O22: each table address has its target, and the target its view. -/
theorem tablesReadBackWhileIdle : Obligations.TablesReadBackWhileIdle := fun s _ hb =>
  ⟨fun sym => exec_busRd_idle hb (view_freq s (target_freq sym)),
    fun sym => exec_busRd_idle hb (view_codeLen s (target_codeLen sym)),
    fun sym k hk => ⟨_, exec_busRd_idle hb (view_code s (target_code sym hk)), fun _ => getLsbD_codeWord _ k⟩,
    fun h => ⟨exec_busRd_idle hb (nodeWord_zero _ ▸ view_tree s (target_tree h Nat.zero_lt_two)),
      exec_busRd_idle hb (nodeWord_one _ ▸ view_tree s (target_tree h Nat.one_lt_two))⟩⟩

/-! ### Writes while BUSY = 0 (43_host_access.md R166, R180) -/

theorem exec_busWr_idle {s : State} {w : WordAddr} (hb : s.busy = false) (hw : 0 < w.toNat) (v : Word) :
    exec (.busWr w v) s = .next (writeTarget w v s) := by
  have h0 : w ≠ 0 := by
    rintro rfl
    exact Nat.lt_irrefl 0 hw
  rw [exec, execBusWr, if_neg h0, hb, if_neg Bool.false_ne_true]

theorem target_length_iff {w : WordAddr} :
    target w = .inLen ∨ target w = .inBits ↔ w.toNat = 2 ∨ w.toNat = 3 := by
  rw [target]
  rcases targetAt_cases w.toNat with ⟨-, h⟩ | ⟨_, _, h⟩ | ⟨_, _, h⟩ | ⟨_, _, h⟩ | ⟨_, _, h⟩ | ⟨_, _, h⟩ | ⟨_, _, h⟩ |
    ⟨_, _, h⟩ | ⟨_, _, h⟩ | ⟨_, h⟩ <;> rw [h]
  · rcases registerAt_cases w.toNat with r | r | r | r | r | r | r | r | r | r | r | r | r <;>
      (rw [r.2]; simp; omega)
  all_goals simp; omega

/-- Outside IN_LEN, IN_BITS, SYMBUF_IN and BITBUF no address takes a word (43_host_access.md R180). -/
theorem writeTarget_ignored {w : WordAddr} (hlen : w.toNat ≠ 2) (hbits : w.toNat ≠ 3)
    (hbuf : w.toNat < 0x4000 ∨ 0xC000 ≤ w.toNat) (v : Word) (s : State) : writeTarget w v s = s := by
  rw [writeTarget]
  split
  case h_1 h =>
    have := target_length_iff.1 (.inl h)
    omega
  case h_2 h =>
    have := target_length_iff.1 (.inr h)
    omega
  case h_3 h =>
    have := target_eq_symIn.1 h
    omega
  case h_4 h =>
    have := target_eq_bitBuf.1 h
    omega
  all_goals rfl

/-- Settles O17: none of the addresses takes a word, and none is CMD's. -/
theorem readOnlyAndUnmappedWritesAreIgnored : Obligations.ReadOnlyAndUnmappedWritesAreIgnored := by
  intro s w v hb hw
  rw [exec_busWr_idle hb (by omega), writeTarget_ignored (by omega) (by omega) (by omega)]

/-- A command pending after a transaction of an idle HCB has its length register's whole value (40_command.md R104). -/
theorem TransactionEffect.length_of_pend {s t : State} (h : TransactionEffect s t) (hb : s.busy = false) :
    (∀ len, t.pend = some (.encode len) → len.toNat = s.inLen.toNat)
      ∧ ∀ bits, t.pend = some (.decode bits) → bits.toNat = s.inBits.toNat := by
  have hp := s.busy_eq_false.1 hb
  cases h
  case acceptedEncode len _ hl => simp [State.accept, hl]
  case acceptedDecode bits _ hl _ => simp [State.accept, hl]
  all_goals simp [hp]

/-- Settles O13: the registers are plain fields, and an accepted command holds its register's value. -/
theorem lengthRegistersHoldAllBits : Obligations.LengthRegistersHoldAllBits := fun _ v _ hb =>
  ⟨exec_busWr_idle hb (by decide) v, exec_busRd_idle hb rfl, exec_busWr_idle hb (by decide) v, exec_busRd_idle hb rfl,
    fun _ len h => ((exec_effect h).length_of_pend hb).1 len,
    fun _ bits h => ((exec_effect h).length_of_pend hb).2 bits⟩

/-! ### Words in memory (20_memory.md R62, R63) -/

/-- The four bytes from an address on are a word's, bits [7:0] first. -/
def Memory.HoldsWord (m : Memory) (base : Nat) (v : Word) : Prop :=
  ∀ k, k < 4 → m.read (base + k) = some (v.extractLsb' (8 * k) 8)

theorem Memory.holdsWord_store (m : Memory) (base : Nat) (v : Word) :
    (m.store base (bytesOfWord v)).HoldsWord base v := fun k hk =>
  (read_store_inside m base (bytesOfWord v) k hk).trans (congrArg some (getElem_bytesOfWord v k hk))

theorem extractLsb'_wordOfBytes (b0 b1 b2 b3 : Byte) {k : Nat} (hk : k < 4) :
    (wordOfBytes b0 b1 b2 b3).extractLsb' (8 * k) 8 = [b0, b1, b2, b3].getD k 0 := by
  apply BitVec.eq_of_getLsbD_eq
  intro i hi
  have hbit : (8 * k + i) / 8 = k ∧ (8 * k + i) % 8 = i := by omega
  rw [BitVec.getLsbD_extractLsb', getLsbD_wordOfBytes _ _ _ _ _ (by omega), hbit.1, hbit.2]
  simp [hi]

/-- A word whose four bytes are written is read, and it stands there. -/
theorem Memory.readWord_of_written {m : Memory} {base : Nat} (h : ∀ k, k < 4 → (m.read (base + k)).isSome) :
    ∃ v, m.readWord base = .ok v ∧ m.HoldsWord base v := by
  obtain ⟨b0, h0⟩ := Option.isSome_iff_exists.1 (h 0 (by decide))
  obtain ⟨b1, h1⟩ := Option.isSome_iff_exists.1 (h 1 (by decide))
  obtain ⟨b2, h2⟩ := Option.isSome_iff_exists.1 (h 2 (by decide))
  obtain ⟨b3, h3⟩ := Option.isSome_iff_exists.1 (h 3 (by decide))
  refine ⟨_, readWord_eq_ok h0 h1 h2 h3, fun k hk => ?_⟩
  rw [extractLsb'_wordOfBytes _ _ _ _ hk]
  match k, hk with
  | 0, _ => exact h0
  | 1, _ => exact h1
  | 2, _ => exact h2
  | 3, _ => exact h3

theorem bitAddr_word (j i : Nat) : bitAddr (32 * j + i) = bitBase + 4 * j + i / 8 := by
  rw [bitAddr]
  omega

/-- A BITBUF word's bits are the sequence's, bit 0 at the lowest index. -/
theorem Memory.HoldsWord.readBit {m : Memory} {j : Nat} {v : Word} (h : m.HoldsWord (bitBase + 4 * j) v) {i : Nat}
    (hi : i < 32) : m.readBit (32 * j + i) = some (v.getLsbD i) := by
  have hbyte : (32 * j + i) % 8 = i % 8 := by omega
  have hbit : 8 * (i / 8) + i % 8 = i := Nat.div_add_mod i 8
  have hlt : i % 8 < 8 := Nat.mod_lt i (by decide)
  rw [Memory.readBit, bitAddr_word, h (i / 8) (by omega), hbyte, Option.map_some, BitVec.getLsbD_extractLsb', hbit]
  simp [hlt]

/-- A bit is written only with its whole byte. -/
theorem Memory.read_isSome_of_readBit {m : Memory} {j k : Nat} (h : (m.readBit (32 * j + 8 * k)).isSome) :
    (m.read (bitBase + 4 * j + k)).isSome := by
  rwa [Memory.readBit, bitAddr_word, Nat.mul_div_cancel_left k (by decide), Option.isSome_map] at h

/-! ### The buffers (43_host_access.md R176-R178) -/

section Buffers

variable {w : WordAddr}

theorem byteAddr_symIn (h : 0x4000 ≤ w.toNat) : byteAddr w = symInBase + 4 * (w.toNat - 0x4000) := by
  rw [byteAddr, symInBase]
  omega

theorem byteAddr_bitBuf (h : 0x8000 ≤ w.toNat) : byteAddr w = bitBase + 4 * (w.toNat - 0x8000) := by
  rw [byteAddr, bitBase]
  omega

theorem byteAddr_symOut (h : 0xC000 ≤ w.toNat) : byteAddr w = symOutBase + 4 * (w.toNat - 0xC000) := by
  rw [byteAddr, symOutBase]
  omega

theorem view_buffer (h : 0x4000 ≤ w.toNat) (s : State) : view w s = s.mem.readWord (byteAddr w) := by
  rw [view]
  by_cases hin : w.toNat < 0x8000
  · rw [target_eq_symIn.2 ⟨h, hin⟩]
  by_cases hbit : w.toNat < 0xC000
  · rw [target_eq_bitBuf.2 ⟨Nat.not_lt.1 hin, hbit⟩]
  · rw [target_eq_symOut.2 (Nat.not_lt.1 hbit)]

theorem writeTarget_buffer (h : 0x4000 ≤ w.toNat) (h' : w.toNat < 0xC000) (v : Word) (s : State) :
    writeTarget w v s = s.storeBytes (byteAddr w) (bytesOfWord v) := by
  rw [writeTarget]
  by_cases hin : w.toNat < 0x8000
  · rw [target_eq_symIn.2 ⟨h, hin⟩]
  · rw [target_eq_bitBuf.2 ⟨Nat.not_lt.1 hin, h'⟩]

variable {s : State} (hb : s.busy = false)

include hb

/-- A write to SYMBUF_IN or BITBUF makes its word stand there and leaves every other byte. -/
theorem exec_busWr_buffer (h : 0x4000 ≤ w.toNat) (h' : w.toNat < 0xC000) (v : Word) :
    ∃ m, exec (.busWr w v) s = .next { s with mem := m } ∧ m.HoldsWord (byteAddr w) v
      ∧ SameOutside s.mem m (byteAddr w) 4 := by
  refine ⟨s.mem.store (byteAddr w) (bytesOfWord v), ?_, Memory.holdsWord_store _ _ v,
    Memory.read_store_outside _ _ (bytesOfWord v)⟩
  rw [exec_busWr_idle hb (by omega), writeTarget_buffer h h']
  rfl

/-- A read of a written buffer word answers with the word that stands there. -/
theorem exec_busRd_buffer (h : 0x4000 ≤ w.toNat) (d : Word)
    (hread : ∀ k, k < 4 → (s.mem.read (byteAddr w + k)).isSome) :
    ∃ r, exec (.busRd w d) s = .next { s with rdata := r } ∧ s.mem.HoldsWord (byteAddr w) r := by
  obtain ⟨r, hr, hold⟩ := Memory.readWord_of_written hread
  exact ⟨r, exec_busRd_idle hb ((view_buffer h s).trans hr), hold⟩

/-- A read of a symbol buffer's word answers with its four bytes in order (20_memory.md R62). -/
theorem exec_busRd_symbols (h : 0x4000 ≤ w.toNat) (d : Word) {base j : Nat} (haddr : byteAddr w = base + 4 * j)
    {bs : List Byte} (hl : bs.length = 4)
    (hread : ∀ k, (hk : k < 4) → s.mem.read (base + (4 * j + k)) = some bs[k]) :
    ∃ r : Word, exec (.busRd w d) s = .next { s with rdata := r }
      ∧ ∀ k, (hk : k < 4) → r.extractLsb' (8 * k) 8 = bs[k] := by
  have hbytes : ∀ k, (hk : k < 4) → s.mem.read (byteAddr w + k) = some bs[k] := by
    simpa only [haddr, Nat.add_assoc] using hread
  obtain ⟨r, hr, hold⟩ := exec_busRd_buffer hb h d fun k hk => Option.isSome_of_eq_some (hbytes k hk)
  exact ⟨r, hr, fun k hk => Option.some.inj ((hold k hk).symm.trans (hbytes k hk))⟩

end Buffers

/-- Settles O14: the word's address is that of its first byte, and the word stands there. -/
theorem symbolInputBufferIsReadWrite : Obligations.SymbolInputBufferIsReadWrite := by
  intro s w v d hb hlo hhi
  refine ⟨?_, fun bs hl => exec_busRd_symbols hb hlo d (byteAddr_symIn hlo) hl⟩
  obtain ⟨m, hm, hold, hout⟩ := exec_busWr_buffer hb hlo (by omega) v
  rw [byteAddr_symIn hlo] at hold hout
  exact ⟨m, hm, fun k hk => Nat.add_assoc .. ▸ hold k hk, hout⟩

/-- Settles O15: bit `j` of a BITBUF word is bit `j % 8` of its byte `j / 8`. -/
theorem bitBufferIsReadWrite : Obligations.BitBufferIsReadWrite := by
  intro s w v d hb hlo hhi
  constructor
  · obtain ⟨m, hm, hold, hout⟩ := exec_busWr_buffer hb (by omega) hhi v
    rw [byteAddr_bitBuf hlo] at hold hout
    exact ⟨m, hm, fun j => hold.readBit, hout⟩
  · intro bits hl hbits
    have hwritten : ∀ k, k < 4 → (s.mem.read (byteAddr w + k)).isSome := by
      intro k hk
      rw [byteAddr_bitBuf hlo]
      exact Memory.read_isSome_of_readBit (Option.isSome_of_eq_some (hbits (8 * k) (by omega)))
    obtain ⟨r, hr, hold⟩ := exec_busRd_buffer hb (by omega) d hwritten
    rw [byteAddr_bitBuf hlo] at hold
    exact ⟨r, hr, fun j hj => Option.some.inj ((hold.readBit hj).symm.trans (hbits j hj))⟩

/-- Settles O16: SYMBUF_OUT is among the addresses that take no word, and reads as a symbol buffer. -/
theorem symbolOutputBufferIsReadOnly : Obligations.SymbolOutputBufferIsReadOnly := fun s w v d hb hw =>
  ⟨readOnlyAndUnmappedWritesAreIgnored s w v hb (.inr (.inr hw)),
    fun _ hl => exec_busRd_symbols hb (by omega) d (byteAddr_symOut hw) hl⟩

end Sys2Proof.Machine
end

section
/-! PROOFS. The reset edge, and the stop at the first unwritten byte that BUS_RD, ENCODE or DECODE reads
(70_reset_and_hazards.md R205-R207). -/

namespace Sys2Proof.Machine

/-! ### The reset edge -/

theorem step_of_resetEdge {s : State} {p : Option HbusWord} {rest : List Input}
    (hi : s.inputs = .resetEdge p :: rest) : step s = .next ((s.withInputs rest).resetEdge p) := by
  rw [step, hi]

/-- Erasing a range leaves every byte outside it, and none within it written. -/
theorem Memory.erase_range (m : Memory) (base n : Nat) :
    SameOutside m (m.erase base n) base n ∧ ∀ k, k < n → (m.erase base n).read (base + k) = none := by
  refine ⟨fun a ha => ?_, fun k hk => ?_⟩
  · rw [read_erase, if_neg (by omega)]
  · rw [read_erase, if_pos (by omega)]

theorem memAfterReset_of_idle {s : State} (hp : s.pend = none) : memAfterReset s = s.mem := by
  rw [memAfterReset, hp]

theorem memAfterReset_of_encode {s : State} {len : BitVec 16} (hp : s.pend = some (.encode len)) :
    memAfterReset s = s.mem.erase bitBase Config.symbufBytes := by
  rw [memAfterReset, hp]

theorem memAfterReset_of_decode {s : State} {bits : BitVec 20} (hp : s.pend = some (.decode bits)) :
    memAfterReset s = s.mem.erase symOutBase Config.symbufBytes := by
  rw [memAfterReset, hp]

/-- Settles O44: the registers' values are those of `State.resetEdge`, and the buffers lose at most the one that the
pending command was writing. -/
theorem resetEdgeRestoresResetValues : Obligations.ResetEdgeRestoresResetValues := by
  intro s p rest hi
  refine ⟨_, step_of_resetEdge hi, rfl, fun hp => ?_, fun len hp => ?_, fun bits hp => ?_⟩
  · exact memAfterReset_of_idle (s := s.withInputs rest) hp
  · rw [State.resetEdge_mem, memAfterReset_of_encode (s := s.withInputs rest) hp]
    exact s.mem.erase_range bitBase Config.symbufBytes
  · rw [State.resetEdge_mem, memAfterReset_of_decode (s := s.withInputs rest) hp]
    exact s.mem.erase_range symOutBase Config.symbufBytes

/-! ### The stop at an unwritten byte -/

section Stops

variable {s : State} {a : Nat}

/-- A read while BUSY = 0 stops where the address's view does. -/
theorem exec_busRd_stops {w : WordAddr} (hb : s.busy = false) (hv : view w s = .error a) (d : Word) :
    exec (.busRd w d) s = .fault (.unwrittenRead a) := by
  simp [exec, execBusRd, readView, countDraw, hb, hv]

/-- An ENCODE's completion stops where the read of its text does. -/
theorem complete_encode_stops {len : BitVec 16} (hp : s.pend = some (.encode len))
    (ht : s.mem.readBytes symInBase len.toNat = .error a) : complete s = .fault (.unwrittenRead a) := by
  have hlen : len ≠ 0 := by
    rintro rfl
    exact nomatch ht
  simp only [complete, hp, encodeCommit, if_neg hlen, ht, retired]

/-- A DECODE's completion stops where its walk does. -/
theorem complete_decode_stops {bits : BitVec 20} (hp : s.pend = some (.decode bits)) (hr : s.ready = true)
    (hw : walk s.tree s.root s.mem bits.toNat 0 s.root 0 = .error a) : complete s = .fault (.unwrittenRead a) := by
  have hbits : bits ≠ 0 := by
    rintro rfl
    exact nomatch hw
  have hwalks : ¬ (s.ready = false ∨ bits = 0) := not_or.2 ⟨by simp [hr], hbits⟩
  simp only [complete, hp, decodeCommit, if_neg hwalks, hw, retired]

end Stops

/-- Settles O46: each of the three stops where its own read of the buffers does, and the byte given is the first
unwritten one of that read. -/
theorem unwrittenReadsFault : Obligations.UnwrittenReadsFault := by
  intro s a hnone
  refine ⟨?busRd, ?encode, ?decode⟩
  case busRd =>
    intro w d hb hw hlo hhi hbefore
    have hword : s.mem.readWord (byteAddr w) = .error a :=
      Memory.readWord_eq_error.2 (Memory.readBytes_eq_error.2 ⟨hlo, hhi, hnone, hbefore⟩)
    exact exec_busRd_stops hb ((view_buffer hw s).trans hword) d
  case encode =>
    intro len hp hlo hhi hbefore
    exact complete_encode_stops hp (Memory.readBytes_eq_error.2 ⟨hlo, hhi, hnone, hbefore⟩)
  case decode =>
    rintro bits i r hp hr hi rfl hw hf
    have hbit : s.mem.readBit (0 + i) = none := by rw [Nat.zero_add, Memory.readBit, hnone, Option.map_none]
    obtain ⟨k, hk⟩ : ∃ k, bits.toNat = i + (k + 1) := ⟨bits.toNat - i - 1, by omega⟩
    have hstop := walk_unwritten (k := k) hw hf hbit
    rw [← hk, Nat.zero_add] at hstop
    exact complete_decode_stops hp hr hstop

end Sys2Proof.Machine
end
